-- ==== Sys2Proof/Word.lean ====
section
/-! DEFINITION. The word types of the EKC: bytes of a frame, the 16-bit wire fields, the 32-bit
registers and the 64-bit counters (R12: every value is unsigned). -/

namespace Sys2Proof

/-- One byte of a frame or of the frame memory (R11, R60). -/
abbrev Byte := BitVec 8

/-- A u16 field (R82). -/
abbrev Half := BitVec 16

/-- A 32-bit register word (R22) or command word (R92). -/
abbrev Word := BitVec 32

/-- A u64 counter, such as key_replay_counter (R82). -/
abbrev Dword := BitVec 64

end Sys2Proof
end

