-- ==== Sys2Proof/Config.lean ====
section
/-! DEFINITION. What an implementation of the EKC fixes (the parameters of R7) and the free values
(R27, R61: an unspecified read is a fresh draw). -/

namespace Sys2Proof

/-- The parameter BODYLEN_OVERFLOW of R7: what UPDLEN does when the body length exceeds 65535. -/
inductive BodyLenOverflow
  | fault
  | wrap
deriving DecidableEq, Repr

/-- The parameters of R7 (all but EKC_BASE, which no rule reads: `Config.ekcBase`). -/
structure Params where
  /-- MAX_MIC: capacity in bytes of F_MIC. -/
  maxMic : Nat
  /-- FM_BYTES: size in bytes of the frame memory. -/
  fmBytes : Nat
  /-- DESC_RC4. -/
  descRc4 : Byte
  /-- DESC_80211. -/
  desc80211 : Byte
  /-- DESC_WPA1. -/
  descWpa1 : Byte
  /-- BODYLEN_OVERFLOW. -/
  bodyLenOverflow : BodyLenOverflow
deriving DecidableEq, Repr

/-- The defaults of R7. -/
def Params.default : Params where
  maxMic := 32
  fmBytes := 4096
  descRc4 := 1
  desc80211 := 2
  descWpa1 := 254
  bodyLenOverflow := .fault

/-- The legal values of R7: "multiple of 4, 4..64", "multiple of 4, at least 2*(83+MAX_MIC), at most
0xF000", and "The three descriptor codes must be pairwise distinct". -/
abbrev Params.Legal (p : Params) : Prop :=
  (p.maxMic % 4 = 0 ∧ 4 ≤ p.maxMic ∧ p.maxMic ≤ 64) ∧
  (p.fmBytes % 4 = 0 ∧ 2 * (83 + p.maxMic) ≤ p.fmBytes ∧ p.fmBytes ≤ 0xF000) ∧
  (p.descRc4 ≠ p.desc80211 ∧ p.descRc4 ≠ p.descWpa1 ∧ p.desc80211 ≠ p.descWpa1)

/-- The unspecified 32-bit value of the n-th host read (R27, R61). It has no body: nothing can be
proved of it, so a claim holds whatever the hardware returns. Log 4. -/
opaque Config.freshWord : Nat → Word

/-- The platform's choice behind EKC_BASE (R7): which 0x1000-byte page holds the register space.
No rule reads it. Log 13. -/
opaque Config.ekcPage : Nat

/-- EKC_BASE of R7, "any multiple of 0x1000 the platform chooses". -/
def Config.ekcBase : Nat := 0x1000 * Config.ekcPage

end Sys2Proof
end

