-- ==== Sys2Proof/Syntax.lean ====
section
/-! DEFINITION. The command set of R95, one constructor per row of spec/opcode_table.json. No
command has an operand in its word (R92, R96). Beside it, the accesses a host makes (R97). -/

namespace Sys2Proof

/-- The nine commands (R95). -/
inductive Instr
  /-- Parse the received buffer into the FRF (R113). -/
  | parse
  /-- Serialize the FRF, writing the held MIC (R114). -/
  | ser
  /-- Serialize the FRF with the MIC region cleared (R115). -/
  | serz
  /-- Update body length (R116). -/
  | updlen
  /-- Write the held MIC into the output buffer (R117). -/
  | patchmic
  /-- Compute the expected Key Descriptor Version (R151). -/
  | kdv
  /-- The replay-counter comparator alone (R163). -/
  | rccmp
  /-- The admission gate (R164). -/
  | validate
  /-- End the frame's life (R118). -/
  | discard
deriving DecidableEq, Repr

/-- Everything the outside does to the EKC (R97, R220): a read or a write of the register space, or
the reset input. `bits` is the access's width: R65 carries only 32-bit accesses and refuses any
other, so the width is part of the event. A write's data is the low 32 bits the bus drives; for an
access of another width it is never looked at. -/
inductive HostEvent
  /-- `RD(off)` of R97. -/
  | rd (bits : Nat) (off : Nat)
  /-- `WR(off, d)` of R97. -/
  | wr (bits : Nat) (off : Nat) (d : Word)
  /-- The reset input of R220. -/
  | reset
deriving DecidableEq, Repr

end Sys2Proof
end

