-- ==== Sys2Proof/WellFormed.lean ====
section
/-! DEFINITION. What counts as well formed: the parameters (R7, `Params.Legal` in Config), a command
word (R94) and a host access (R65). -/

namespace Sys2Proof

/-- Every command is well formed: no command carries an operand (R92, R96). -/
def Instr.wf (i : Instr) : Bool :=
  match i with
  | .parse | .ser | .serz | .updlen | .patchmic | .kdv | .rccmp | .validate | .discard => true

/-- R94 read as a check: a word is legal when none of the three illegal cases holds. OP is w[3:0],
CLR is w[4] (R92). -/
def CommandWord.wf (w : Word) : Bool :=
  !([0x0, 0x9, 0xA, 0xB, 0xC, 0xD, 0xE, 0xF].contains (w.extractLsb' 0 4)) &&
  (w.extractLsb' 5 27 == 0) &&
  !(w.getLsbD 4 && w.extractLsb' 0 4 != 2)

/-- R65: an aligned 32-bit access inside 0 .. 0x1000+FM_BYTES-1. The reset input is no access. -/
def HostEvent.wf (p : Params) : HostEvent → Bool
  | .rd bits off => bits == 32 && off % 4 == 0 && off < 0x1000 + p.fmBytes
  | .wr bits off _ => bits == 32 && off % 4 == 0 && off < 0x1000 + p.fmBytes
  | .reset => true

end Sys2Proof
end

