-- ==== Sys2Proof/Decode.lean ====
section
/-! DEFINITION. The command word (R92 to R95): its decoder, total on every 32-bit word and rejecting
by name, and after it the encoder. A command word is written to CMD as one 32-bit bus word (R23), so
it has no byte order of its own. -/

namespace Sys2Proof

/-- Why a command word is illegal (R94). Each is the fault F_ILLEGAL_CMD of R192. -/
inductive DecodeError
  /-- w[31:5] is not 0. -/
  | reservedBits
  /-- CLR = 1 with an OP other than 2. -/
  | clearNotSer
  /-- OP is 0x0 or 0x9..0xF. -/
  | reservedOp
deriving DecidableEq, Repr

/-- R92: OP is bits [3:0]. -/
def CommandWord.op (w : Word) : BitVec 4 := w.extractLsb' 0 4

/-- R92: CLR is bit [4]. -/
def CommandWord.clr (w : Word) : Bool := w.getLsbD 4

/-- R92: bits [31:5] are reserved. -/
def CommandWord.reserved (w : Word) : BitVec 27 := w.extractLsb' 5 27

/-- The command of an OP and CLR, by the table of R95. An OP outside the table is `reservedOp`
whatever CLR is (R94). -/
def decodeOp (op : BitVec 4) (clr : Bool) : Except DecodeError Instr :=
  match op, clr with
  | 0x1, false => .ok .parse
  | 0x2, false => .ok .ser
  | 0x2, true => .ok .serz
  | 0x3, false => .ok .updlen
  | 0x4, false => .ok .patchmic
  | 0x5, false => .ok .kdv
  | 0x6, false => .ok .rccmp
  | 0x7, false => .ok .validate
  | 0x8, false => .ok .discard
  | 0x1, true => .error .clearNotSer
  | 0x3, true => .error .clearNotSer
  | 0x4, true => .error .clearNotSer
  | 0x5, true => .error .clearNotSer
  | 0x6, true => .error .clearNotSer
  | 0x7, true => .error .clearNotSer
  | 0x8, true => .error .clearNotSer
  | _, _ => .error .reservedOp

/-- The command a word encodes (R92 to R95), or why it is illegal (R94). -/
def decode (w : Word) : Except DecodeError Instr :=
  if CommandWord.reserved w ≠ 0 then .error .reservedBits
  else decodeOp (CommandWord.op w) (CommandWord.clr w)

/-- The OP column of R95. -/
def Instr.op : Instr → BitVec 4
  | .parse => 0x1
  | .ser => 0x2
  | .serz => 0x2
  | .updlen => 0x3
  | .patchmic => 0x4
  | .kdv => 0x5
  | .rccmp => 0x6
  | .validate => 0x7
  | .discard => 0x8

/-- The CLR column of R95. -/
def Instr.clr : Instr → Bool
  | .serz => true
  | .parse | .ser | .updlen | .patchmic | .kdv | .rccmp | .validate | .discard => false

/-- The command word of R92: 27 reserved zeros, CLR, OP. -/
def encode (i : Instr) : Word := (0 : BitVec 27) ++ BitVec.ofBool i.clr ++ i.op

/-- The instruction of an opcode-table row's bits. A command word is 32 bits; the bits above `nbits`
are 0, and a number with a bit above bit 31 is no command word. -/
def decodeTableWord (nbits w : Nat) : Option Instr :=
  let v := w % 2 ^ nbits
  if v < 2 ^ 32 then
    match decode (BitVec.ofNat 32 v) with
    | .ok i => some i
    | .error _ => none
  else none

end Sys2Proof
end

