-- ==== Sys2Proof/Machine/State.lean ====
section
/-! DEFINITION. The state of the EKC as plain data (10_state.md), the reasons a run can stop, and the
state after reset (R44). Registers are stored as their field bits; the 32-bit words the host sees are
computed in Machine/Flags.lean and Machine/Ops.lean. -/

namespace Sys2Proof.Machine

/-- Why the machine stops with a fault. The EKC's own FAULT outcomes (R196) are next states, not
stops: this type holds only the outcome the spec itself ends a run with. -/
inductive Fault
  /-- UNDEF_READ (R194): PARSE read an undefined byte of its buffer, or SER/SERZ an undefined byte of
  the key-data view. Raised by `execParse`, `execSer` and `execSerz`. Model-only in the spec too. Safe:
  the hardware goes on with unspecified bytes, and the model says nothing about that run. Log 7. -/
  | undefRead
deriving DecidableEq, Repr

/-- Why the model gives a step no meaning. -/
inductive Refusal
  /-- An instruction with no meaning yet. No arm of `exec` uses it. Safe: the run stops. -/
  | notModelled (mnemonic : String)
  /-- A host access that is not 32 bits wide (R65). Raised by `hostAccess`. Safe: the spec refuses it. -/
  | accessNot32Bit (bits : Nat)
  /-- A host access at an offset that is not a multiple of 4 (R65). Raised by `hostAccess`. Safe. -/
  | accessMisaligned (off : Nat)
  /-- A host access at or beyond 0x1000+FM_BYTES (R65). Raised by `hostAccess`. Safe. -/
  | accessOutOfSpace (off : Nat)
deriving DecidableEq, Repr

/-- "Role: {Authenticator, Supplicant}", "a closed two-value tag" (R31). -/
inductive Role
  | authenticator
  | supplicant
deriving DecidableEq, Repr

/-- ORIGIN of the FRF content (R39); the value 3 never occurs. -/
inductive Origin
  | none
  | rx
  | tx
deriving DecidableEq, Repr

/-- CLASS (R34); the value 3 never occurs. -/
inductive Classification
  | none
  | withoutMic
  | withUnverifiedMic
deriving DecidableEq, Repr

/-- The frame-level errors of R191, codes 0x01..0x1F: classes (a) and (c) of R190. -/
inductive ErrorCode
  | format
  | admDescUnsupported
  | admDescRc4
  | admDescWpa1NotNegotiated
  | admVersion
  | admGroupInstall
  | admAckFromSupplicant
  | admErrorFromAuthenticator
  | admRequestFromAuthenticator
  | admSmk
  | admTkUnknown
  | admKeyLen
  | admReplay
  | admEncWithoutMic
deriving DecidableEq, Repr

/-- The faults of R191, codes 0x20..0x2F. -/
inductive FaultCode
  | illegalCmd
  | undefField
  | buffer
  | micCapacity
  | overlap
  | bodylenOvf
  | notTx
deriving DecidableEq, Repr

/-- STATUS.ERR: "complete. No other value occurs" (R191). -/
inductive ErrCode
  | none
  | error (e : ErrorCode)
  | fault (f : FaultCode)
deriving DecidableEq, Repr

/-- The fields of STATUS (R24). Its reserved bits are 0, so they are not stored. -/
structure Status where
  done : Bool
  ok : Bool
  err : ErrCode
  detail : Byte
  lastop : BitVec 4
deriving DecidableEq, Repr

/-- The CFG registers, in the order of their CFG_WDEF bits (R26). -/
inductive CfgReg
  | micSize
  | rxBase
  | rxLen
  | txBase
  | txCap
  | role
  | prot
  | lastRcHi
  | lastRcLo
deriving DecidableEq, Repr

/-- The FRF words, in the order of their word index (R35). -/
inductive FrfReg
  | proto
  | ptype
  | bodylen
  | desc
  | keyinfo
  | keylen
  | rcHi
  | rcLo
  | nonce (j : Fin 8)
  | iv (j : Fin 4)
  | rscHi
  | rscLo
  | miclen
  | kdlen
  | kdaddr
deriving DecidableEq, Repr

/-- The values of the CFG registers (R26, R28 to R32), each as wide as its field bits. PROT keeps its
word whole and reads through the accessors of Machine/Flags.lean. -/
structure Cfg where
  micSize : Half
  rxBase : Word
  rxLen : Word
  txBase : Word
  txCap : Word
  role : Role
  prot : Word
  lastRcHi : Word
  lastRcLo : Word
deriving DecidableEq, Repr

/-- The values of the FRF words (R35), each as wide as its field bits. -/
structure Frf where
  proto : Byte
  ptype : Byte
  bodylen : Half
  desc : Byte
  keyinfo : Half
  keylen : Half
  rcHi : Word
  rcLo : Word
  nonce : Vector Word 8
  iv : Vector Word 4
  rscHi : Word
  rscLo : Word
  miclen : Half
  kdlen : Half
  kdaddr : Word
deriving DecidableEq, Repr

/-- The frame memory FM (R60): the defined bytes (R61), by rising address. A byte that is not listed
is undefined and has no value. -/
abbrev Memory := List Host.Cell

/-- The state of one EKC. -/
structure State where
  /-- The parameters of R7, which no step changes. Log 1. -/
  params : Params
  /-- STATUS (R24). -/
  status : Status
  /-- FAULT[8:0] (R25). -/
  fault : BitVec 9
  /-- The CFG registers (R26). A value is meaningful when its bit of `cfgWdef` is set. -/
  cfg : Cfg
  /-- CFG_WDEF[8:0] (R26). -/
  cfgWdef : BitVec 9
  /-- VERSION[15:0] (R33). -/
  version : Half
  /-- VERSION[16], VVALID (R33). -/
  vvalid : Bool
  /-- CLASS (R34). -/
  cls : Classification
  /-- The FRF words 0..24 (R35). A value is meaningful when its bit of `frfWdef0` is set. -/
  frf : Frf
  /-- The F_MIC words (R38): word k exists for k < MAX_MIC/4, and MAX_MIC is at most 64. -/
  mic : Vector Word 16
  /-- FRF_WDEF0[24:0] (R39). -/
  frfWdef0 : BitVec 25
  /-- FRF_WDEF1[15:0] (R39). -/
  frfWdef1 : BitVec 16
  /-- ORIGIN (R39). -/
  origin : Origin
  /-- FM (R60). -/
  fm : Memory
  /-- The model's own: the host's events not yet performed, first one first. Log 2. -/
  host : List HostEvent
  /-- The model's own: what the last host read returned (R97), if there was one. Log 3. -/
  readData : Option Word
  /-- The model's own: how many host reads were performed, the index of the next free draw. Log 4. -/
  draws : Nat
deriving DecidableEq, Repr

/-- The reset state (R44) of an EKC with parameters `p`. The values behind the clear defined bits are
never observed; they are 0 here. Log 5. -/
def State.resetWith (p : Params) : State where
  params := p
  status := ⟨false, false, .none, 0, 0⟩
  fault := 0
  cfg := ⟨0, 0, 0, 0, 0, .authenticator, 0, 0, 0⟩
  cfgWdef := 0
  version := 0
  vvalid := false
  cls := .none
  frf := ⟨0, 0, 0, 0, 0, 0, 0, 0, #v[0, 0, 0, 0, 0, 0, 0, 0], #v[0, 0, 0, 0], 0, 0, 0, 0, 0⟩
  mic := #v[0, 0, 0, 0, 0, 0, 0, 0, 0, 0, 0, 0, 0, 0, 0, 0]
  frfWdef0 := 0
  frfWdef1 := 0
  origin := .none
  fm := []
  host := []
  readData := none
  draws := 0

/-- The machine right after reset (R44, R220), with the default parameters of R7 and no host event
pending. -/
def State.reset : State := State.resetWith Params.default

end Sys2Proof.Machine
end

