-- ==== Sys2Proof/Machine/Bytes.lean ====
section
/-! DEFINITION. Byte sequences: big-endian values (R11), slices of a frame (R80), and the packing of
bytes into 32-bit words (R38, R62, R83). -/

namespace Sys2Proof.Machine

/-- `be(bytes)` of R11: the unsigned big-endian value Σ b_i * 256^(n-1-i). -/
def be : List Byte → Nat
  | [] => 0
  | b :: bs => b.toNat * 256 ^ bs.length + be bs

/-- `be_bytes_N(v)` of R11: the N-byte big-endian sequence of v. -/
def beBytes : Nat → Nat → List Byte
  | 0, _ => []
  | n + 1, v => BitVec.ofNat 8 (v / 256 ^ n) :: beBytes n v

/-- The bytes b[start .. start+len-1] of a frame image (R80, R83). -/
def slice (b : List Byte) (start len : Nat) : List Byte := (b.drop start).take len

/-- Byte i of a frame image; 0 beyond its end. -/
def byteAt (b : List Byte) (i : Nat) : Byte := b.getD i 0

/-- Four bytes as one word, the first in bits [31:24] (R38, R62). -/
def wordOfBytes (b0 b1 b2 b3 : Byte) : Word := b0 ++ b1 ++ b2 ++ b3

/-- The four bytes of a word, bits [31:24] first (R38, R62). -/
def bytesOfWord (w : Word) : List Byte :=
  [w.extractLsb' 24 8, w.extractLsb' 16 8, w.extractLsb' 8 8, w.extractLsb' 0 8]

/-- Word k of a packed byte array: bytes 4k .. 4k+3 (R38), zero beyond the array's end (R99, R113). -/
def packWord (bs : List Byte) (k : Nat) : Word :=
  wordOfBytes (byteAt bs (4 * k)) (byteAt bs (4 * k + 1)) (byteAt bs (4 * k + 2)) (byteAt bs (4 * k + 3))

/-- The bytes of a word array, in word order (R40). -/
def bytesOfWords (ws : List Word) : List Byte := ws.flatMap bytesOfWord

/-- ceil(n/4): how many words hold n bytes (R39, R40). -/
def wordsFor (n : Nat) : Nat := (n + 3) / 4

end Sys2Proof.Machine
end

