-- ==== Sys2Proof/Machine/Flags.lean ====
section
/-! DEFINITION. The fields of the words software sees: the outcome codes and STATUS (R24, R191), the
FAULT bits (R25, R192), the codes of CLASS, ORIGIN and ROLE (R31, R34, R39), VERSION (R33), PROT (R30)
and KeyInformation (R84). -/

namespace Sys2Proof.Machine

/-- The ERR numbers of the frame-level errors (R191). -/
def errorNumber : ErrorCode → Byte
  | .format => 0x01
  | .admDescUnsupported => 0x10
  | .admDescRc4 => 0x11
  | .admDescWpa1NotNegotiated => 0x12
  | .admVersion => 0x13
  | .admGroupInstall => 0x14
  | .admAckFromSupplicant => 0x15
  | .admErrorFromAuthenticator => 0x16
  | .admRequestFromAuthenticator => 0x17
  | .admSmk => 0x18
  | .admTkUnknown => 0x19
  | .admKeyLen => 0x1A
  | .admReplay => 0x1B
  | .admEncWithoutMic => 0x1C

/-- The ERR numbers of the faults (R191). -/
def faultNumber : FaultCode → Byte
  | .illegalCmd => 0x20
  | .undefField => 0x21
  | .buffer => 0x22
  | .micCapacity => 0x23
  | .overlap => 0x24
  | .bodylenOvf => 0x25
  | .notTx => 0x26

/-- STATUS.ERR as a number (R191). -/
def errNumber : ErrCode → Byte
  | .none => 0x00
  | .error e => errorNumber e
  | .fault f => faultNumber f

/-- The FAULT bit a faulting command sets (R192). -/
def faultBit : FaultCode → Nat
  | .illegalCmd => 0
  | .undefField => 1
  | .buffer => 2
  | .micCapacity => 3
  | .overlap => 4
  | .bodylenOvf => 5
  | .notTx => 6

/-- FAULT bit MIC_CAPACITY, also set by an F_MICLEN write (R25, R192). -/
def micCapacityBit : Nat := 3

/-- FAULT bit RX_WRITE (R25). -/
def rxWriteBit : Nat := 7

/-- FAULT bit BORROW (R25). -/
def borrowBit : Nat := 8

/-- A register with bit i set as well: how the sticky FAULT bits (R25) and the defined bits (R26, R39)
are set. -/
def setBit {n : Nat} (v : BitVec n) (i : Nat) : BitVec n := v ||| BitVec.twoPow n i

/-- A register with bit i cleared (R76). -/
def clearBit {n : Nat} (v : BitVec n) (i : Nat) : BitVec n := v &&& ~~~(BitVec.twoPow n i)

/-- STATUS as the host reads it (R24): bits [31:28] 0, LASTOP [27:24], DETAIL [23:16], ERR [15:8],
[7:2] 0, OK [1], DONE [0]. -/
def statusWord (st : Status) : Word :=
  (0 : BitVec 4) ++ st.lastop ++ st.detail ++ errNumber st.err ++ (0 : BitVec 6) ++
    BitVec.ofBool st.ok ++ BitVec.ofBool st.done

/-- STATUS after a command that succeeded (R24, R190). -/
def statusOk (lastop : BitVec 4) : Status := ⟨true, true, .none, 0, lastop⟩

/-- STATUS after a command that ended in ERROR or FAULT (R195, R196). -/
def statusBad (lastop : BitVec 4) (err : ErrCode) (detail : Byte) : Status :=
  ⟨true, false, err, detail, lastop⟩

/-- VERSION as the host reads it (R33): VVALID in bit 16 above the u16 result. -/
def versionWord (version : Half) (vvalid : Bool) : Word :=
  (0 : BitVec 15) ++ BitVec.ofBool vvalid ++ version

/-- CLASS[1:0] (R34). -/
def classNumber : Classification → BitVec 2
  | .none => 0
  | .withoutMic => 1
  | .withUnverifiedMic => 2

/-- F_ORIGIN[1:0] (R39). -/
def originNumber : Origin → BitVec 2
  | .none => 0
  | .rx => 1
  | .tx => 2

/-- ROLE[0] (R31). -/
def roleNumber : Role → BitVec 1
  | .authenticator => 0
  | .supplicant => 1

/-- The role a written ROLE word names: bit 0 alone (R31). -/
def roleOfWord (w : Word) : Role := if w.getLsbD 0 then .supplicant else .authenticator

/-- `opposite` of R15: the sender of a received frame. -/
def opposite : Role → Role
  | .authenticator => .supplicant
  | .supplicant => .authenticator

/-! PROT (R30). -/

/-- The writable bits of PROT: all but the reserved bit 7 (R30). -/
def Prot.mask : Word := 0xFFFFFF7F

/-- PROT[0] AKM_KNOWN. -/
abbrev Prot.akmKnown (p : Word) : Bool := p.getLsbD 0

/-- PROT[1] PW_KNOWN. -/
abbrev Prot.pwKnown (p : Word) : Bool := p.getLsbD 1

/-- PROT[2] PW_TKIP_OR_GROUP. -/
abbrev Prot.pwTkipOrGroup (p : Word) : Bool := p.getLsbD 2

/-- PROT[3] PW_ENH. -/
abbrev Prot.pwEnh (p : Word) : Bool := p.getLsbD 3

/-- PROT[4] GD_ENH. -/
abbrev Prot.gdEnh (p : Word) : Bool := p.getLsbD 4

/-- PROT[5] ORIGIN_WPA1. -/
abbrev Prot.originWpa1 (p : Word) : Bool := p.getLsbD 5

/-- PROT[6] TK_VALID. -/
abbrev Prot.tkValid (p : Word) : Bool := p.getLsbD 6

/-- PROT[15:8] AKM_TYPE. -/
abbrev Prot.akmType (p : Word) : Byte := p.extractLsb' 8 8

/-- PROT[31:16] TK_LEN. -/
abbrev Prot.tkLen (p : Word) : Half := p.extractLsb' 16 16

/-! KeyInformation (R84). -/

/-- key_type (R85). -/
inductive KeyType
  | groupSmk
  | pairwise
deriving DecidableEq, Repr

/-- ki[2:0] key_descriptor_version. -/
abbrev KeyInfo.version (ki : Half) : BitVec 3 := ki.extractLsb' 0 3

/-- ki[3] key_type: 1 is PAIRWISE (R85). -/
def KeyInfo.keyType (ki : Half) : KeyType := if ki.getLsbD 3 then .pairwise else .groupSmk

/-- ki[5:4] reserved. -/
def KeyInfo.reservedLow (ki : Half) : BitVec 2 := ki.extractLsb' 4 2

/-- ki[6] install. -/
abbrev KeyInfo.install (ki : Half) : Bool := ki.getLsbD 6

/-- ki[7] key_ack. -/
abbrev KeyInfo.keyAck (ki : Half) : Bool := ki.getLsbD 7

/-- ki[8] key_mic. -/
abbrev KeyInfo.keyMic (ki : Half) : Bool := ki.getLsbD 8

/-- ki[9] secure, which no command interprets (R167). -/
abbrev KeyInfo.secure (ki : Half) : Bool := ki.getLsbD 9

/-- ki[10] error. -/
abbrev KeyInfo.error (ki : Half) : Bool := ki.getLsbD 10

/-- ki[11] request. -/
abbrev KeyInfo.request (ki : Half) : Bool := ki.getLsbD 11

/-- ki[12] encrypted_key_data. -/
abbrev KeyInfo.encryptedKeyData (ki : Half) : Bool := ki.getLsbD 12

/-- ki[13] smk_message. -/
abbrev KeyInfo.smkMessage (ki : Half) : Bool := ki.getLsbD 13

/-- ki[15:14] reserved. -/
def KeyInfo.reservedHigh (ki : Half) : BitVec 2 := ki.extractLsb' 14 2

/-- What SER and SERZ write of KeyInformation: ki AND 0x3FCF, the reserved bits as zero (R86). -/
def KeyInfo.onWire (ki : Half) : Half := ki &&& 0x3FCF

end Sys2Proof.Machine
end

