-- ==== Sys2Proof/Machine/Ops.lean ====
section
/-! DEFINITION. The named operations over FM (R60, R61) and over the registers (R22, R35, R43), the
four outcomes a command ends in (R190), and the recording of an ERROR or a FAULT: the EKC's only
exception mechanism (R195, R196, R200). There is no return from it (R201). -/

namespace Sys2Proof.Machine

/-! ## The frame memory -/

/-- FM[a], or nothing when the byte is undefined (R61). The one place that says what an unlisted
address reads as. Log 6. -/
def Memory.read : Memory → Nat → Option Byte
  | [], _ => none
  | (k, b) :: m, a => if k = a then some b else Memory.read m a

/-- FM with byte a written, and so defined (R61). -/
def Memory.write : Memory → Nat → Byte → Memory
  | [], a, v => [(a, v)]
  | (k, b) :: m, a, v =>
    if a < k then (a, v) :: (k, b) :: m
    else if a = k then (a, v) :: m
    else (k, b) :: Memory.write m a v

/-- `MemRead(addr, n)` of R13, or nothing when one of the bytes is undefined (R194). -/
def Memory.readBytes (m : Memory) : Nat → Nat → Option (List Byte)
  | _, 0 => some []
  | a, n + 1 =>
    match Memory.read m a, Memory.readBytes m (a + 1) n with
    | some b, some bs => some (b :: bs)
    | _, _ => none

/-- `MemWrite(addr, n, bytes)` of R13. -/
def Memory.writeBytes : Memory → Nat → List Byte → Memory
  | m, _, [] => m
  | m, a, b :: bs => Memory.writeBytes (Memory.write m a b) (a + 1) bs

/-- The canonical form of FM: addresses strictly rising. An unlisted byte has no value, so no entry
can equal what an unlisted address reads as. -/
abbrev Memory.wf (m : Memory) : Prop := m.Pairwise (fun x y => x.1 < y.1)

/-! ## Register values and defined bits -/

/-- The CFG_WDEF bit of a CFG register (R26). -/
def cfgIndex : CfgReg → Nat
  | .micSize => 0
  | .rxBase => 1
  | .rxLen => 2
  | .txBase => 3
  | .txCap => 4
  | .role => 5
  | .prot => 6
  | .lastRcHi => 7
  | .lastRcLo => 8

/-- The word index of an FRF word, and its FRF_WDEF0 bit (R35, R39). -/
def frfIndex : FrfReg → Nat
  | .proto => 0
  | .ptype => 1
  | .bodylen => 2
  | .desc => 3
  | .keyinfo => 4
  | .keylen => 5
  | .rcHi => 6
  | .rcLo => 7
  | .nonce j => 8 + j.val
  | .iv j => 16 + j.val
  | .rscHi => 20
  | .rscLo => 21
  | .miclen => 22
  | .kdlen => 23
  | .kdaddr => 24

/-- A CFG register's value as a 32-bit word, reserved bits 0 (R28 to R32, R42). -/
def cfgRead (c : Cfg) : CfgReg → Word
  | .micSize => c.micSize.setWidth 32
  | .rxBase => c.rxBase
  | .rxLen => c.rxLen
  | .txBase => c.txBase
  | .txCap => c.txCap
  | .role => (roleNumber c.role).setWidth 32
  | .prot => c.prot &&& Prot.mask
  | .lastRcHi => c.lastRcHi
  | .lastRcLo => c.lastRcLo

/-- A CFG register's field bits written, reserved bits ignored (R28 to R32, R42). -/
def cfgWrite (c : Cfg) (r : CfgReg) (w : Word) : Cfg :=
  match r with
  | .micSize => { c with micSize := w.setWidth 16 }
  | .rxBase => { c with rxBase := w }
  | .rxLen => { c with rxLen := w }
  | .txBase => { c with txBase := w }
  | .txCap => { c with txCap := w }
  | .role => { c with role := roleOfWord w }
  | .prot => { c with prot := w &&& Prot.mask }
  | .lastRcHi => { c with lastRcHi := w }
  | .lastRcLo => { c with lastRcLo := w }

/-- An FRF word's value as a 32-bit word, reserved bits 0 (R35). -/
def frfRead (f : Frf) : FrfReg → Word
  | .proto => f.proto.setWidth 32
  | .ptype => f.ptype.setWidth 32
  | .bodylen => f.bodylen.setWidth 32
  | .desc => f.desc.setWidth 32
  | .keyinfo => f.keyinfo.setWidth 32
  | .keylen => f.keylen.setWidth 32
  | .rcHi => f.rcHi
  | .rcLo => f.rcLo
  | .nonce j => f.nonce[j]
  | .iv j => f.iv[j]
  | .rscHi => f.rscHi
  | .rscLo => f.rscLo
  | .miclen => f.miclen.setWidth 32
  | .kdlen => f.kdlen.setWidth 32
  | .kdaddr => f.kdaddr

/-- An FRF word's field bits written, reserved bits ignored (R35). -/
def frfWrite (f : Frf) (r : FrfReg) (w : Word) : Frf :=
  match r with
  | .proto => { f with proto := w.setWidth 8 }
  | .ptype => { f with ptype := w.setWidth 8 }
  | .bodylen => { f with bodylen := w.setWidth 16 }
  | .desc => { f with desc := w.setWidth 8 }
  | .keyinfo => { f with keyinfo := w.setWidth 16 }
  | .keylen => { f with keylen := w.setWidth 16 }
  | .rcHi => { f with rcHi := w }
  | .rcLo => { f with rcLo := w }
  | .nonce j => { f with nonce := f.nonce.set j w }
  | .iv j => { f with iv := f.iv.set j w }
  | .rscHi => { f with rscHi := w }
  | .rscLo => { f with rscLo := w }
  | .miclen => { f with miclen := w.setWidth 16 }
  | .kdlen => { f with kdlen := w.setWidth 16 }
  | .kdaddr => { f with kdaddr := w }

/-- Whether a CFG register is defined (R26, R27). -/
def State.cfgDefined (s : State) (r : CfgReg) : Bool := s.cfgWdef.getLsbD (cfgIndex r)

/-- Whether an FRF word is defined (R27, R39). -/
def State.frfDefined (s : State) (r : FrfReg) : Bool := s.frfWdef0.getLsbD (frfIndex r)

/-- Whether F_MIC word k is defined (R27, R39). No word beyond the storage ever is. -/
def State.micDefined (s : State) (k : Nat) : Bool := s.frfWdef1.getLsbD k

/-- Every FRF word and F_MIC word undefined, ORIGIN and CLASS NONE: what DISCARD and a PARSE with a
Format error commit (R39, R113, R118). The values behind the defined bits stay; nothing observes them.
Log 5. -/
def State.invalidateFrf (s : State) : State :=
  { s with frfWdef0 := 0, frfWdef1 := 0, origin := .none, cls := .none }

/-! ## The outcome of a command -/

/-- The four outcomes of R190. A success or an ERROR carries the state with its writes committed; a
FAULT commits none (R14). -/
inductive CmdOutcome
  | success (s : State)
  | error (e : ErrorCode) (detail : Byte) (s : State)
  | fault (f : FaultCode) (detail : Byte)
  | undefRead
deriving DecidableEq, Repr

/-- `finish_ok()` of R13: STATUS says success (R24). -/
def State.finishOk (s : State) (lastop : BitVec 4) : State :=
  { s with status := statusOk lastop }

/-- The recording of an ERROR (R195): STATUS is written, FAULT is not changed. -/
def State.raiseError (s : State) (lastop : BitVec 4) (e : ErrorCode) (detail : Byte) : State :=
  { s with status := statusBad lastop (.error e) detail }

/-- The taking of a FAULT (R196): one FAULT bit and STATUS are written and nothing else. -/
def State.raiseFault (s : State) (lastop : BitVec 4) (f : FaultCode) (detail : Byte) : State :=
  { s with fault := setBit s.fault (faultBit f), status := statusBad lastop (.fault f) detail }

/-- A command's outcome as a step of the machine (R190): SUCCESS, ERROR and FAULT go on, UNDEF_READ
ends the run (R194, R235). `s` is the state before the command. -/
def conclude (lastop : BitVec 4) (s : State) (o : CmdOutcome) : Host.Outcome State Fault Refusal :=
  match o with
  | .success s' => .next (s'.finishOk lastop)
  | .error e detail s' => .next (s'.raiseError lastop e detail)
  | .fault f detail => .next (s.raiseFault lastop f detail)
  | .undefRead => .fault .undefRead

/-- The reset input (R220): every piece of the EKC's state takes its reset value (R44). The parameters
are the machine's, and the model's own fields are the outside's. Log 10. -/
def State.resetInput (s : State) : State :=
  { State.resetWith s.params with host := s.host, readData := s.readData, draws := s.draws }

end Sys2Proof.Machine
end

