-- ==== Sys2Proof/Machine/Operands.lean ====
section
/-! DEFINITION. The operands of the commands (R96): the registers a command needs defined (R27, R197,
R222), the field values it reads from them (R40), the FM range checks (R66) and the borrowed key data
(R76). -/

namespace Sys2Proof.Machine

/-- A host-writable register a command may need (R27). -/
inductive Operand
  | cfg (r : CfgReg)
  | frf (r : FrfReg)
  | mic (k : Nat)
deriving DecidableEq, Repr

/-- `idx(X)` of R27, the DETAIL of F_UNDEF_FIELD. -/
def operandIndex : Operand → Byte
  | .cfg r => BitVec.ofNat 8 (0x00 + cfgIndex r)
  | .frf r => BitVec.ofNat 8 (0x40 + frfIndex r)
  | .mic k => BitVec.ofNat 8 (0x80 + k)

/-- Whether an operand is defined (R27). -/
def State.isDefined (s : State) : Operand → Bool
  | .cfg r => s.cfgDefined r
  | .frf r => s.frfDefined r
  | .mic k => s.micDefined k

/-- The `need` checks of a command in their order (R27, R197): the index of the first undefined one,
or nothing when all are defined. -/
def State.firstUndefined (s : State) : List Operand → Option Byte
  | [] => none
  | x :: xs => if s.isDefined x then s.firstUndefined xs else some (operandIndex x)

/-- F_MIC words 0 .. ceil(ms/4)-1 in ascending order (R40). -/
def micOperands (ms : Nat) : List Operand := (List.range (wordsFor ms)).map .mic

/-- FRF words 0..24 in ascending order (R114). -/
def frfOperands : List Operand :=
  [.frf .proto, .frf .ptype, .frf .bodylen, .frf .desc, .frf .keyinfo, .frf .keylen, .frf .rcHi, .frf .rcLo,
   .frf (.nonce 0), .frf (.nonce 1), .frf (.nonce 2), .frf (.nonce 3),
   .frf (.nonce 4), .frf (.nonce 5), .frf (.nonce 6), .frf (.nonce 7),
   .frf (.iv 0), .frf (.iv 1), .frf (.iv 2), .frf (.iv 3),
   .frf .rscHi, .frf .rscLo, .frf .miclen, .frf .kdlen, .frf .kdaddr]

/-- What PARSE needs (R113). -/
def parseOperands : List Operand := [.cfg .micSize, .cfg .rxBase, .cfg .rxLen]

/-- What SERZ needs (R115): everything SER needs but the F_MIC words. -/
def serzOperands : List Operand := [.cfg .txBase, .cfg .txCap] ++ frfOperands

/-- What UPDLEN needs (R116). -/
def updlenOperands : List Operand := [.frf .miclen, .frf .kdlen]

/-- What PATCHMIC needs before its F_MIC words (R117). -/
def patchmicOperands : List Operand := [.cfg .txBase, .cfg .txCap, .frf .miclen]

/-- What KDV needs (R151). -/
def kdvOperands : List Operand := [.cfg .prot, .frf .desc]

/-- What RCCMP needs (R163). -/
def rccmpOperands : List Operand :=
  [.cfg .role, .cfg .lastRcHi, .cfg .lastRcLo, .frf .rcHi, .frf .rcLo]

/-- What VALIDATE needs (R164). -/
def validateOperands : List Operand :=
  [.cfg .role, .cfg .prot, .cfg .lastRcHi, .cfg .lastRcLo,
   .frf .desc, .frf .keyinfo, .frf .keylen, .frf .rcHi, .frf .rcLo]

/-! Field values as commands read them (R32, R40). -/

/-- LAST_RC = {LAST_RC_HI, LAST_RC_LO} (R32). -/
def State.lastRc (s : State) : Dword := s.cfg.lastRcHi ++ s.cfg.lastRcLo

/-- key_replay_counter = {F_RC_HI, F_RC_LO} (R40). -/
def State.replayCounter (s : State) : Dword := s.frf.rcHi ++ s.frf.rcLo

/-- F_MICLEN as a number: the length of key_mic (R35). -/
def State.micLen (s : State) : Nat := s.frf.miclen.toNat

/-- F_KDLEN as a number: key_data_len (R35). -/
def State.kdLen (s : State) : Nat := s.frf.kdlen.toNat

/-- F_KDADDR as an FM address (R35). -/
def State.kdAddr (s : State) : Nat := s.frf.kdaddr.toNat

/-- TX_BASE as an FM address (R29). -/
def State.txBase (s : State) : Nat := s.cfg.txBase.toNat

/-- TX_CAP as a number (R29). -/
def State.txCap (s : State) : Nat := s.cfg.txCap.toNat

/-- RX_BASE as an FM address (R29). -/
def State.rxBase (s : State) : Nat := s.cfg.rxBase.toNat

/-- RX_LEN as a number (R29). -/
def State.rxLen (s : State) : Nat := s.cfg.rxLen.toNat

/-- The bytes m_0, m_1, … behind the F_MIC words (R38). -/
def State.micBytes (s : State) : List Byte := bytesOfWords s.mic.toList

/-- key_mic = m_0 .. m_(F_MICLEN-1) (R40). -/
def State.keyMic (s : State) : List Byte := s.micBytes.take s.micLen

/-- key_data = MemRead(F_KDADDR, F_KDLEN), or nothing when a byte of it is undefined (R40, R194). -/
def State.keyData (s : State) : Option (List Byte) := Memory.readBytes s.fm s.kdAddr s.kdLen

/-- The length L = 83 + F_MICLEN + F_KDLEN of a serialized image (R63, R111). -/
def State.imageLen (s : State) : Nat := 83 + s.micLen + s.kdLen

/-- R66: the range [base, base+len) leaves FM, in unbounded arithmetic. -/
def State.leavesFm (s : State) (base len : Nat) : Bool := base + len > s.params.fmBytes

/-- Whether the key-data view meets [a, a+len): `kdl > 0 and ka < a + len and a < ka + kdl` (R114,
R117, R76). -/
def State.viewMeets (s : State) (a len : Nat) : Bool :=
  s.kdLen > 0 && s.kdAddr < a + len && a < s.kdAddr + s.kdLen

/-- R76: a host FM write of the four bytes at a meets the borrowed range, which is the key-data view
while ORIGIN = RX and FRF word 24 is defined. -/
def State.borrowHit (s : State) (a : Nat) : Bool :=
  s.origin == .rx && s.frfDefined .kdaddr && s.viewMeets a 4

end Sys2Proof.Machine
end

