-- ==== Sys2Proof/Machine/Kdv.lean ====
section
/-! DEFINITION. The Key-Descriptor-Version lookup table (R150) and the command KDV (R151). -/

namespace Sys2Proof.Machine

/-- `kdv(d, P)` of R150, its branches in the order the rule tries them. -/
def kdv (p : Params) (d : Byte) (prot : Word) : Half :=
  if Prot.akmKnown prot = false ∨ Prot.pwKnown prot = false then 0
  else if Prot.akmType prot = 1 ∨ Prot.akmType prot = 2 then
    if (d = p.descRc4 ∨ d = p.descWpa1) ∧ Prot.pwTkipOrGroup prot = true then 1
    else if d = p.desc80211 ∧ (Prot.pwEnh prot = true ∨ Prot.gdEnh prot = true) then 2
    else 0
  else if Prot.akmType prot = 3 ∨ Prot.akmType prot = 4 ∨ Prot.akmType prot = 5 ∨ Prot.akmType prot = 6 then 3
  else 0

/-- KDV's outcome (R151): VERSION is written, nothing else. -/
def kdvOutcome (s : State) : CmdOutcome :=
  match s.firstUndefined kdvOperands with
  | some idx => .fault .undefField idx
  | none => .success { s with version := kdv s.params s.frf.desc s.cfg.prot, vvalid := true }

/-- KDV: compute the expected Key Descriptor Version of the frame in the FRF (R151). -/
def execKdv (s : State) : Host.Outcome State Fault Refusal :=
  conclude (Instr.op .kdv) s (kdvOutcome s)

end Sys2Proof.Machine
end

