-- ==== Sys2Proof/Machine/Admission.lean ====
section
/-! DEFINITION. The admission unit: the check functions (R160 to R162), the replay-counter comparator
RCCMP (R163) and the gate VALIDATE (R164 to R167). -/

namespace Sys2Proof.Machine

/-- `desc_check(d, P)` of R160, check 1: nothing is PASS. -/
def descCheck (p : Params) (d : Byte) (prot : Word) : Option ErrorCode :=
  if d = p.desc80211 then none
  else if d = p.descWpa1 then if Prot.originWpa1 prot then none else some .admDescWpa1NotNegotiated
  else if d = p.descRc4 then some .admDescRc4
  else some .admDescUnsupported

/-- `bits_check(ki, sender)` of R161, checks 3 to 6 with the number of the failing one: nothing is
PASS. -/
def bitsCheck (ki : Half) (sender : Role) : Option (ErrorCode × Byte) :=
  if KeyInfo.keyType ki = .groupSmk ∧ KeyInfo.install ki = true then some (.admGroupInstall, 3)
  else if sender = .supplicant ∧ KeyInfo.keyAck ki = true then some (.admAckFromSupplicant, 4)
  else if sender = .authenticator ∧ KeyInfo.error ki = true then some (.admErrorFromAuthenticator, 5)
  else if sender = .authenticator ∧ KeyInfo.request ki = true then some (.admRequestFromAuthenticator, 5)
  else if KeyInfo.smkMessage ki = true then some (.admSmk, 6)
  else none

/-- Check 7 of R164, the key length of a PAIRWISE frame: nothing is PASS. -/
def keyLenCheck (ki klen : Half) (prot : Word) (sender : Role) : Option ErrorCode :=
  if KeyInfo.keyType ki = .pairwise then
    if Prot.tkValid prot = false then some .admTkUnknown
    else if sender = .authenticator ∧ klen ≠ Prot.tkLen prot then some .admKeyLen
    else if sender = .supplicant ∧ klen ≠ 0 ∧ klen ≠ Prot.tkLen prot then some .admKeyLen
    else none
  else none

/-- `rc_ok(rc, last, sender)` of R162, check 8: unsigned 64-bit, no wrap-around. -/
def rcOk (rc last : Dword) (sender : Role) : Bool :=
  if last = 0 then true
  else
    match sender with
    | .supplicant => last.toNat ≤ rc.toNat
    | .authenticator => last.toNat < rc.toNat

/-- What VALIDATE judges (R164): the inputs and the fields of the frame that its checks read. -/
structure Admission where
  sender : Role
  prot : Word
  last : Dword
  desc : Byte
  ki : Half
  klen : Half
  rc : Dword
deriving DecidableEq, Repr

/-- The classification of an admitted frame (R165). -/
def classify (ki : Half) : Classification :=
  if KeyInfo.keyMic ki then .withUnverifiedMic else .withoutMic

/-- Checks 1 to 9 in their order (R164, R166): the first failing check's code and number, or the
classification. -/
def admissionVerdict (p : Params) (a : Admission) : Except (ErrorCode × Byte) Classification :=
  match descCheck p a.desc a.prot with
  | some c => .error (c, 1)
  | none =>
    if (KeyInfo.version a.ki).setWidth 16 ≠ kdv p a.desc a.prot then .error (.admVersion, 2)
    else
      match bitsCheck a.ki a.sender with
      | some (c, n) => .error (c, n)
      | none =>
        match keyLenCheck a.ki a.klen a.prot a.sender with
        | some c => .error (c, 7)
        | none =>
          if rcOk a.rc a.last a.sender = false then .error (.admReplay, 8)
          else if KeyInfo.encryptedKeyData a.ki = true ∧ KeyInfo.keyMic a.ki = false then
            .error (.admEncWithoutMic, 9)
          else .ok (classify a.ki)

/-- The inputs and fields a state presents to the admission unit (R164); the sender is opposite(ROLE)
(R15). -/
def State.admission (s : State) : Admission where
  sender := opposite s.cfg.role
  prot := s.cfg.prot
  last := s.lastRc
  desc := s.frf.desc
  ki := s.frf.keyinfo
  klen := s.frf.keylen
  rc := s.replayCounter

/-- RCCMP's outcome (R163): it answers check 8 alone and writes nothing but STATUS. -/
def rccmpOutcome (s : State) : CmdOutcome :=
  match s.firstUndefined rccmpOperands with
  | some idx => .fault .undefField idx
  | none =>
    if rcOk s.replayCounter s.lastRc (opposite s.cfg.role) then .success s
    else .error .admReplay 8 s

/-- VALIDATE's outcome (R164): CLASS is written on every outcome but a fault. -/
def validateOutcome (s : State) : CmdOutcome :=
  match s.firstUndefined validateOperands with
  | some idx => .fault .undefField idx
  | none =>
    match admissionVerdict s.params s.admission with
    | .error (c, n) => .error c n { s with cls := .none }
    | .ok c => .success { s with cls := c }

/-- RCCMP: the replay-counter comparator alone, on the frame in the FRF (R163). -/
def execRccmp (s : State) : Host.Outcome State Fault Refusal :=
  conclude (Instr.op .rccmp) s (rccmpOutcome s)

/-- VALIDATE: the admission gate (R164). -/
def execValidate (s : State) : Host.Outcome State Fault Refusal :=
  conclude (Instr.op .validate) s (validateOutcome s)

end Sys2Proof.Machine
end

