-- ==== Sys2Proof/Machine/Frame.lean ====
section
/-! DEFINITION. The two pure functions of the codec: `decode(b, ms)` (R110) and `image(clear)` (R111),
over the frame layout of R80. -/

namespace Sys2Proof.Machine

/-- The FORMAT details of R110 and R193. -/
inductive FormatError
  | short
  | packetType
  | trailing
deriving DecidableEq, Repr

/-- The DETAIL of a FORMAT error (R193). -/
def formatDetail : FormatError → Byte
  | .short => 0x01
  | .packetType => 0x02
  | .trailing => 0x03

/-- The fields `decode` returns (R110). -/
structure KeyFrame where
  protocolVersion : Byte
  packetType : Byte
  packetBodyLen : Half
  descriptorType : Byte
  keyInfo : Half
  keyLen : Half
  replayCounter : Dword
  keyNonce : List Byte
  keyIv : List Byte
  keyRsc : Dword
  keyMic : List Byte
  keyDataLen : Half
  keyDataOffset : Nat
deriving DecidableEq, Repr

/-- The key_data_len field of a frame image with MIC length ms: be(b[81+ms .. 82+ms]) (R82). -/
def keyDataLenOf (b : List Byte) (ms : Nat) : Nat := be (slice b (81 + ms) 2)

/-- The fields at the offsets of R80, integers by R82 and byte arrays by R83. -/
def frameFields (b : List Byte) (ms : Nat) : KeyFrame where
  protocolVersion := byteAt b 0
  packetType := byteAt b 1
  packetBodyLen := BitVec.ofNat 16 (be (slice b 2 2))
  descriptorType := byteAt b 4
  keyInfo := BitVec.ofNat 16 (be (slice b 5 2))
  keyLen := BitVec.ofNat 16 (be (slice b 7 2))
  replayCounter := BitVec.ofNat 64 (be (slice b 9 8))
  keyNonce := slice b 17 32
  keyIv := slice b 49 16
  keyRsc := BitVec.ofNat 64 (be (slice b 65 8))
  keyMic := slice b 81 ms
  keyDataLen := BitVec.ofNat 16 (keyDataLenOf b ms)
  keyDataOffset := 83 + ms

/-- `decode(b, ms)` of R110: the three checks in their order, then the fields. -/
def decodeFrame (b : List Byte) (ms : Nat) : Except FormatError KeyFrame :=
  if b.length < 2 then .error .short
  else if byteAt b 1 ≠ 3 then .error .packetType
  else if b.length < 83 + ms then .error .short
  else if b.length < 83 + ms + keyDataLenOf b ms then .error .short
  else if b.length > 83 + ms + keyDataLenOf b ms then .error .trailing
  else .ok (frameFields b ms)

/-- The bytes an image carries at offset 81: zeros when the MIC is cleared, the held MIC otherwise
(R111). -/
def imageMic (clear : Bool) (ms : Nat) (keyMic : List Byte) : List Byte :=
  if clear then List.replicate ms 0 else keyMic

/-- `image(clear)` of R111: the fields of the FRF in the layout of R80, the reserved KeyInformation
bits and the reserved octets as zero (R86, R87), `mic` at offset 81, key_data_len always F_KDLEN. -/
def frameImage (f : Frf) (mic keyData : List Byte) : List Byte :=
  [f.proto] ++ [f.ptype] ++ beBytes 2 f.bodylen.toNat ++ [f.desc] ++
  beBytes 2 (KeyInfo.onWire f.keyinfo).toNat ++ beBytes 2 f.keylen.toNat ++
  beBytes 8 (f.rcHi ++ f.rcLo).toNat ++ bytesOfWords f.nonce.toList ++ bytesOfWords f.iv.toList ++
  beBytes 8 (f.rscHi ++ f.rscLo).toNat ++ List.replicate 8 0 ++
  mic ++ beBytes 2 f.kdlen.toNat ++ keyData

/-- `image(clear)` of the FRF of a state, with the key-data bytes given (R111). -/
def State.image (s : State) (clear : Bool) (keyData : List Byte) : List Byte :=
  frameImage s.frf (imageMic clear s.micLen s.keyMic) keyData

end Sys2Proof.Machine
end

