-- ==== Sys2Proof/Machine/Codec.lean ====
section
/-! DEFINITION. The codec commands PARSE, SER, SERZ, UPDLEN, PATCHMIC and DISCARD (R113 to R118). Each
makes its checks in the order of R197 and then commits (R14). -/

namespace Sys2Proof.Machine

/-- The FRF words PARSE writes from the decoded fields (R113); the buffer starts at `base`. -/
def frfOfFrame (r : KeyFrame) (ms base : Nat) : Frf where
  proto := r.protocolVersion
  ptype := r.packetType
  bodylen := r.packetBodyLen
  desc := r.descriptorType
  keyinfo := r.keyInfo
  keylen := r.keyLen
  rcHi := r.replayCounter.extractLsb' 32 32
  rcLo := r.replayCounter.extractLsb' 0 32
  nonce := #v[packWord r.keyNonce 0, packWord r.keyNonce 1, packWord r.keyNonce 2, packWord r.keyNonce 3,
              packWord r.keyNonce 4, packWord r.keyNonce 5, packWord r.keyNonce 6, packWord r.keyNonce 7]
  iv := #v[packWord r.keyIv 0, packWord r.keyIv 1, packWord r.keyIv 2, packWord r.keyIv 3]
  rscHi := r.keyRsc.extractLsb' 32 32
  rscLo := r.keyRsc.extractLsb' 0 32
  miclen := BitVec.ofNat 16 ms
  kdlen := r.keyDataLen
  kdaddr := BitVec.ofNat 32 (base + r.keyDataOffset)

/-- The F_MIC words PARSE writes: the words below ceil(ms/4) hold key_mic, zero padded; the others
become undefined and keep what they held (R39, R113). -/
def micOfFrame (old : Vector Word 16) (keyMic : List Byte) (ms : Nat) : Vector Word 16 :=
  let word (k : Nat) (w : Word) : Word := if k < wordsFor ms then packWord keyMic k else w
  #v[word 0 old[0], word 1 old[1], word 2 old[2], word 3 old[3],
     word 4 old[4], word 5 old[5], word 6 old[6], word 7 old[7],
     word 8 old[8], word 9 old[9], word 10 old[10], word 11 old[11],
     word 12 old[12], word 13 old[13], word 14 old[14], word 15 old[15]]

/-- The commit of a PARSE that succeeds (R113). -/
def State.loadFrame (s : State) (r : KeyFrame) (ms base : Nat) : State :=
  { s with
    frf := frfOfFrame r ms base
    mic := micOfFrame s.mic r.keyMic ms
    frfWdef0 := 0x01FFFFFF
    frfWdef1 := BitVec.ofNat 16 (2 ^ wordsFor ms - 1)
    origin := .rx
    cls := .none }

/-- PARSE (R113). -/
def parseOutcome (s : State) : CmdOutcome :=
  match s.firstUndefined parseOperands with
  | some idx => .fault .undefField idx
  | none =>
    if s.cfg.micSize.toNat > s.params.maxMic then .fault .micCapacity 0
    else if s.leavesFm s.rxBase s.rxLen then .fault .buffer 1
    else
      match Memory.readBytes s.fm s.rxBase s.rxLen with
      | none => .undefRead
      | some b =>
        match decodeFrame b s.cfg.micSize.toNat with
        | .error d => .error .format (formatDetail d) s.invalidateFrf
        | .ok r => .success (s.loadFrame r s.cfg.micSize.toNat s.rxBase)

/-- The checks SER and SERZ share and the write of the image (R114, R115). `needs` is the command's
list of operands; `clear` chooses the image. -/
def serializeOutcome (needs : List Operand) (clear : Bool) (s : State) : CmdOutcome :=
  match s.firstUndefined needs with
  | some idx => .fault .undefField idx
  | none =>
    if s.imageLen > s.txCap || s.leavesFm s.txBase s.imageLen then .fault .buffer 2
    else if s.leavesFm s.kdAddr s.kdLen then .fault .buffer 3
    else if s.viewMeets s.txBase s.imageLen then .fault .overlap 0
    else
      match s.keyData with
      | none => .undefRead
      | some kd => .success { s with fm := Memory.writeBytes s.fm s.txBase (s.image clear kd) }

/-- The operands of SER: TX_BASE, TX_CAP, FRF words 0..24, and the F_MIC words that F_MICLEN reaches
(R114). -/
def State.serOperands (s : State) : List Operand := serzOperands ++ micOperands s.micLen

/-- UPDLEN (R116). -/
def updlenOutcome (s : State) : CmdOutcome :=
  if s.origin ≠ .tx then .fault .notTx 0
  else
    match s.firstUndefined updlenOperands with
    | some idx => .fault .undefField idx
    | none =>
      let sum := 79 + s.micLen + s.kdLen
      if sum > 65535 && s.params.bodyLenOverflow == .fault then .fault .bodylenOvf 0
      else
        .success { s with
          frf := { s.frf with bodylen := BitVec.ofNat 16 sum }
          frfWdef0 := setBit s.frfWdef0 (frfIndex .bodylen)
          cls := .none }

/-- The operands of PATCHMIC: TX_BASE, TX_CAP, F_MICLEN and the F_MIC words it reaches (R117). -/
def State.patchmicNeeds (s : State) : List Operand := patchmicOperands ++ micOperands s.micLen

/-- PATCHMIC (R117). -/
def patchmicOutcome (s : State) : CmdOutcome :=
  match s.firstUndefined s.patchmicNeeds with
  | some idx => .fault .undefField idx
  | none =>
    if 81 + s.micLen > s.txCap || s.leavesFm s.txBase (81 + s.micLen) then .fault .buffer 4
    else if s.frfDefined .kdlen && s.frfDefined .kdaddr && s.viewMeets (s.txBase + 81) s.micLen then
      .fault .overlap 1
    else .success { s with fm := Memory.writeBytes s.fm (s.txBase + 81) s.keyMic }

/-- PARSE: parse the received buffer into the FRF (R113). -/
def execParse (s : State) : Host.Outcome State Fault Refusal :=
  conclude (Instr.op .parse) s (parseOutcome s)

/-- SER: serialize the FRF, writing the held MIC (R114). -/
def execSer (s : State) : Host.Outcome State Fault Refusal :=
  conclude (Instr.op .ser) s (serializeOutcome s.serOperands false s)

/-- SERZ: serialize the FRF with the MIC region cleared (R115). -/
def execSerz (s : State) : Host.Outcome State Fault Refusal :=
  conclude (Instr.op .serz) s (serializeOutcome serzOperands true s)

/-- UPDLEN: the "update body length" helper (R116). -/
def execUpdlen (s : State) : Host.Outcome State Fault Refusal :=
  conclude (Instr.op .updlen) s (updlenOutcome s)

/-- PATCHMIC: write the held MIC into the MIC region of the output buffer (R117). -/
def execPatchmic (s : State) : Host.Outcome State Fault Refusal :=
  conclude (Instr.op .patchmic) s (patchmicOutcome s)

/-- DISCARD: end the frame's life (R118). -/
def execDiscard (s : State) : Host.Outcome State Fault Refusal :=
  conclude (Instr.op .discard) s (.success s.invalidateFrf)

end Sys2Proof.Machine
end

