-- ==== Sys2Proof/Machine/Dispatch.lean ====
section
/-! DEFINITION. The meaning of every command, one arm per constructor of Instr. -/

namespace Sys2Proof.Machine

/-- The effect of a command on a state. -/
def exec (i : Instr) (s : State) : Host.Outcome State Fault Refusal :=
  match i with
  | .parse => Sys2Proof.Machine.execParse s
  | .ser => Sys2Proof.Machine.execSer s
  | .serz => Sys2Proof.Machine.execSerz s
  | .updlen => Sys2Proof.Machine.execUpdlen s
  | .patchmic => Sys2Proof.Machine.execPatchmic s
  | .kdv => Sys2Proof.Machine.execKdv s
  | .rccmp => Sys2Proof.Machine.execRccmp s
  | .validate => Sys2Proof.Machine.execValidate s
  | .discard => Sys2Proof.Machine.execDiscard s

end Sys2Proof.Machine
end

