-- ==== Sys2Proof/Machine/HostBus.lean ====
section
/-! DEFINITION. The host's side of the EKC: the register map (R22, R35, R69), host reads and writes with
their access rules (R36, R37, R42, R43, R62, R65, R76), the CMD register (R23) and the reset input
(R220). -/

namespace Sys2Proof.Machine

/-- What an offset of the register space names (R22). -/
inductive HostReg
  | cmd
  | status
  | fault
  | cfg (r : CfgReg)
  | version
  | cls
  | cfgWdef
  | frf (r : FrfReg)
  | mic (k : Fin 16)
  | frfWdef0
  | frfWdef1
  | origin
  /-- The FM window word at FM address a (R62). -/
  | fm (a : Nat)
  | unmapped
deriving DecidableEq, Repr

/-- The rows of R22's table below 0x1000, the F_MIC words apart, with the FRF words of R35. -/
def fixedReg (off : Nat) : HostReg :=
  match off with
  | 0x000 => .cmd
  | 0x004 => .status
  | 0x008 => .fault
  | 0x00C => .cfg .micSize
  | 0x010 => .cfg .rxBase
  | 0x014 => .cfg .rxLen
  | 0x018 => .cfg .txBase
  | 0x01C => .cfg .txCap
  | 0x020 => .cfg .role
  | 0x024 => .cfg .prot
  | 0x028 => .cfg .lastRcHi
  | 0x02C => .cfg .lastRcLo
  | 0x030 => .version
  | 0x034 => .cls
  | 0x038 => .cfgWdef
  | 0x100 => .frf .proto
  | 0x104 => .frf .ptype
  | 0x108 => .frf .bodylen
  | 0x10C => .frf .desc
  | 0x110 => .frf .keyinfo
  | 0x114 => .frf .keylen
  | 0x118 => .frf .rcHi
  | 0x11C => .frf .rcLo
  | 0x120 => .frf (.nonce 0)
  | 0x124 => .frf (.nonce 1)
  | 0x128 => .frf (.nonce 2)
  | 0x12C => .frf (.nonce 3)
  | 0x130 => .frf (.nonce 4)
  | 0x134 => .frf (.nonce 5)
  | 0x138 => .frf (.nonce 6)
  | 0x13C => .frf (.nonce 7)
  | 0x140 => .frf (.iv 0)
  | 0x144 => .frf (.iv 1)
  | 0x148 => .frf (.iv 2)
  | 0x14C => .frf (.iv 3)
  | 0x150 => .frf .rscHi
  | 0x154 => .frf .rscLo
  | 0x158 => .frf .miclen
  | 0x15C => .frf .kdlen
  | 0x160 => .frf .kdaddr
  | 0x1C0 => .frfWdef0
  | 0x1C4 => .frfWdef1
  | 0x1C8 => .origin
  | _ => .unmapped

/-- The register an accepted access at offset `off` reaches (R22): the F_MIC words exist at
0x180 .. 0x180+MAX_MIC-4, the FM window at 0x1000 .. 0x1000+FM_BYTES-1. -/
def regAt (p : Params) (off : Nat) : HostReg :=
  if 0x1000 ≤ off then if off < 0x1000 + p.fmBytes then .fm (off - 0x1000) else .unmapped
  else if h : 0x180 ≤ off ∧ off < 0x1C0 then
    if off % 4 = 0 ∧ off < 0x180 + p.maxMic then .mic ⟨(off - 0x180) / 4, by omega⟩ else .unmapped
  else fixedReg off

/-! ## Host reads -/

/-- Byte i (0..3) of a window read at address a: FM[a+i], or a byte of the free word when it is
undefined (R62: "one unspecified byte for each undefined byte"). -/
def State.windowByte (s : State) (a i : Nat) (free : Word) : Byte :=
  match Memory.read s.fm (a + i) with
  | some b => b
  | none => byteAt (bytesOfWord free) i

/-- What a host read of a register returns (R22, R36, R42, R62); `free` is the unspecified value of an
undefined register (R27). Log 4, log 11. -/
def State.readReg (s : State) (free : Word) : HostReg → Word
  | .cmd => 0
  | .status => statusWord s.status
  | .fault => s.fault.setWidth 32
  | .cfg r => if s.cfgDefined r then cfgRead s.cfg r else free
  | .version => versionWord s.version s.vvalid
  | .cls => (classNumber s.cls).setWidth 32
  | .cfgWdef => s.cfgWdef.setWidth 32
  | .frf r => if s.frfDefined r then frfRead s.frf r else free
  | .mic k => if s.micDefined k then s.mic[k] else free
  | .frfWdef0 => s.frfWdef0.setWidth 32
  | .frfWdef1 => s.frfWdef1.setWidth 32
  | .origin => (originNumber s.origin).setWidth 32
  | .fm a => wordOfBytes (s.windowByte a 0 free) (s.windowByte a 1 free) (s.windowByte a 2 free) (s.windowByte a 3 free)
  | .unmapped => 0

/-- A host read (R97): it returns a value and has no side effect (R68). The value goes to `readData`, and
the next read draws afresh (R27). -/
def State.hostRead (s : State) (off : Nat) : State :=
  { s with
    readData := some (s.readReg (Config.freshWord s.draws) (regAt s.params off))
    draws := s.draws + 1 }

/-! ## Host writes -/

/-- R43: the CFG registers whose write sets CLASS to NONE. -/
def clearsClass : CfgReg → Bool
  | .role => true
  | .prot => true
  | .lastRcHi => true
  | .lastRcLo => true
  | .micSize | .rxBase | .rxLen | .txBase | .txCap => false

/-- A host write to a CFG register (R43): the field bits, the defined bit, and CLASS for the inputs of
the admission unit. -/
def State.writeCfg (s : State) (r : CfgReg) (d : Word) : State :=
  { s with
    cfg := cfgWrite s.cfg r d
    cfgWdef := setBit s.cfgWdef (cfgIndex r)
    cls := if clearsClass r then .none else s.cls }

/-- R37: what an accepted write to the FRF does to ORIGIN. -/
def originAfterWrite : Origin → Origin
  | .none => .tx
  | .rx => .rx
  | .tx => .tx

/-- An accepted host write to an FRF word (R37). -/
def State.acceptFrf (s : State) (r : FrfReg) (d : Word) : State :=
  { s with
    frf := frfWrite s.frf r d
    frfWdef0 := setBit s.frfWdef0 (frfIndex r)
    origin := originAfterWrite s.origin
    cls := .none }

/-- A host write to an FRF word (R37): ignored with FAULT.RX_WRITE on an Rx frame; ignored with
FAULT.MIC_CAPACITY when it would make F_MICLEN greater than MAX_MIC; accepted otherwise. The value
compared is the field, bits [15:0] (log 8); on an Rx frame RX_WRITE alone is recorded (log 9). -/
def State.writeFrf (s : State) (r : FrfReg) (d : Word) : State :=
  if s.origin = .rx then { s with fault := setBit s.fault rxWriteBit }
  else if r = .miclen ∧ s.params.maxMic < (d.setWidth 16).toNat then
    { s with fault := setBit s.fault micCapacityBit }
  else s.acceptFrf r d

/-- A host write to an F_MIC word: accepted whatever ORIGIN is (R37). -/
def State.writeMic (s : State) (k : Fin 16) (d : Word) : State :=
  { s with
    mic := s.mic.set k d
    frfWdef1 := setBit s.frfWdef1 k
    origin := originAfterWrite s.origin
    cls := .none }

/-- The BORROW event (R76): FAULT.BORROW, FRF word 24 undefined, CLASS NONE, ORIGIN unchanged. -/
def State.borrow (s : State) : State :=
  { s with
    fault := setBit s.fault borrowBit
    frfWdef0 := clearBit s.frfWdef0 (frfIndex .kdaddr)
    cls := .none }

/-- A host write to the FM window (R62): the four bytes in big-endian lanes, and the BORROW event when
they meet the borrowed range (R76). -/
def State.writeWindow (s : State) (a : Nat) (d : Word) : State :=
  let s' := { s with fm := Memory.writeBytes s.fm a (bytesOfWord d) }
  if s.borrowHit a then s'.borrow else s'

/-- A host write to a register other than CMD: read-only registers and unmapped offsets ignore it (R42).
A write to CMD is `commandWrite`. -/
def State.writeReg (s : State) (reg : HostReg) (d : Word) : State :=
  match reg with
  | .cfg r => s.writeCfg r d
  | .frf r => s.writeFrf r d
  | .mic k => s.writeMic k d
  | .fm a => s.writeWindow a d
  | .cmd | .status | .fault | .version | .cls | .cfgWdef | .frfWdef0 | .frfWdef1 | .origin | .unmapped => s

/-- A host write to CMD (R23): the command the word encodes is run; an illegal word raises
F_ILLEGAL_CMD and does nothing else (R94), with LASTOP = w[3:0] (R24). -/
def commandWrite (w : Word) (s : State) : Host.Outcome State Fault Refusal :=
  match decode w with
  | .ok i => exec i s
  | .error _ => .next (s.raiseFault (CommandWord.op w) .illegalCmd 0)

/-- The refusal of R65, if the access is not an aligned 32-bit access inside the register space. Log 14. -/
def accessRefusal (p : Params) (bits off : Nat) : Option Refusal :=
  if bits ≠ 32 then some (.accessNot32Bit bits)
  else if off % 4 ≠ 0 then some (.accessMisaligned off)
  else if 0x1000 + p.fmBytes ≤ off then some (.accessOutOfSpace off)
  else none

/-- One event from outside (R97, R220). -/
def hostEvent (e : HostEvent) (s : State) : Host.Outcome State Fault Refusal :=
  match e with
  | .rd bits off =>
    match accessRefusal s.params bits off with
    | some r => .refused r
    | none => .next (s.hostRead off)
  | .wr bits off d =>
    match accessRefusal s.params bits off with
    | some r => .refused r
    | none =>
      if regAt s.params off = .cmd then commandWrite d s
      else .next (s.writeReg (regAt s.params off) d)
  | .reset => .next s.resetInput

/-- The next host event performed; with none pending the block is idle (R45, R210). -/
def hostStep (s : State) : Host.Outcome State Fault Refusal :=
  match s.host with
  | [] => .next s
  | e :: rest => hostEvent e { s with host := rest }

/-- The state with a command write put before the host's pending events. -/
def State.pushCommand (s : State) (w : Word) : State := { s with host := .wr 32 0x000 w :: s.host }

end Sys2Proof.Machine
end

