-- ==== Sys2Proof/Machine/Step.lean ====
section
/-! DEFINITION. One step of the machine: the next host event, and nothing when none is pending. -/

namespace Sys2Proof.Machine

/-- One step (R71: host accesses take effect one by one, in the host's order). -/
def step (s : State) : Host.Outcome State Fault Refusal := hostStep s

/-- `s` with a command word, numbered as the opcode table numbers it, as the host's very next access: a
write of the word to CMD, which is how the EKC comes by a command (R21, R23). Log 2. -/
def State.withFetchWord (s : State) (nbits w : Nat) : State :=
  s.pushCommand (BitVec.ofNat 32 (w % 2 ^ nbits))

end Sys2Proof.Machine
end

