-- ==== Sys2Proof/Laws/PerInstr.lean ====
section
/-! SUPPORT. Facts about every command as syntax, one lemma per constructor: the word of R95 that encodes it
decodes back to it, also as a row of the opcode table. -/

namespace Sys2Proof.Laws.DecodeInvertsEncode

/-- The word a command is encoded as decodes to that command (R92 to R95). -/
def Statement (i : Instr) : Prop :=
  i.wf = true → decode (encode i) = .ok i ∧ decodeTableWord 32 (encode i).toNat = some i

theorem parse : Statement .parse := fun _ => ⟨rfl, rfl⟩
theorem ser : Statement .ser := fun _ => ⟨rfl, rfl⟩
theorem serz : Statement .serz := fun _ => ⟨rfl, rfl⟩
theorem updlen : Statement .updlen := fun _ => ⟨rfl, rfl⟩
theorem patchmic : Statement .patchmic := fun _ => ⟨rfl, rfl⟩
theorem kdv : Statement .kdv := fun _ => ⟨rfl, rfl⟩
theorem rccmp : Statement .rccmp := fun _ => ⟨rfl, rfl⟩
theorem validate : Statement .validate := fun _ => ⟨rfl, rfl⟩
theorem discard : Statement .discard := fun _ => ⟨rfl, rfl⟩

end Sys2Proof.Laws.DecodeInvertsEncode
end

