-- ==== Sys2Proof/Machine/Script.lean ====
section
/-! DEFINITION. The host-script notation of R98 and R99, as lists of host events: how the programs of
95_test_vectors.md are written down. Nothing in the machine depends on it. -/

namespace Sys2Proof.Machine

/-- The offset of a CFG register (R22). -/
def cfgOffset (r : CfgReg) : Nat := 0x00C + 4 * cfgIndex r

/-- The offset of an FRF word (R35): 0x100 + 4*i. -/
def frfOffset (r : FrfReg) : Nat := 0x100 + 4 * frfIndex r

/-- The offset of a register (R22); nothing for an unmapped one. -/
def regOffset : HostReg → Option Nat
  | .cmd => some 0x000
  | .status => some 0x004
  | .fault => some 0x008
  | .cfg r => some (cfgOffset r)
  | .version => some 0x030
  | .cls => some 0x034
  | .cfgWdef => some 0x038
  | .frf r => some (frfOffset r)
  | .mic k => some (0x180 + 4 * k.val)
  | .frfWdef0 => some 0x1C0
  | .frfWdef1 => some 0x1C4
  | .origin => some 0x1C8
  | .fm a => some (0x1000 + a)
  | .unmapped => none

/-- The pairs of `W64` (R99). -/
inductive WordPair
  | lastRc
  | frameRc
  | frameRsc
deriving DecidableEq, Repr

/-- The arrays of `WA` (R99). -/
inductive WordArray
  | nonce
  | iv
  | mic
deriving DecidableEq, Repr

/-- The statements and pseudo-statements of R98 and R99. -/
inductive Statement
  | w (reg : HostReg) (v : Word)
  | r (reg : HostReg)
  | c (i : Instr)
  | fm (a : Nat) (bytes : List Byte)
  | w64 (pair : WordPair) (v : Dword)
  | wa (array : WordArray) (bytes : List Byte)
deriving DecidableEq, Repr

/-- WR at an offset, 32 bits wide. -/
def writeAt (off : Nat) (d : Word) : HostEvent := .wr 32 off d

/-- The word writes of a byte list from an offset, zero padded in the last word (R99). -/
def packedWrites (off : Nat) (bytes : List Byte) : List HostEvent :=
  (List.range (wordsFor bytes.length)).map (fun k => writeAt (off + 4 * k) (packWord bytes k))

/-- The offset of the high word of a pair; the low word stands 4 above it (R64, R99). -/
def pairOffset : WordPair → Nat
  | .lastRc => 0x028
  | .frameRc => 0x118
  | .frameRsc => 0x150

/-- The offset of word 0 of an array (R99). -/
def arrayOffset : WordArray → Nat
  | .nonce => 0x120
  | .iv => 0x140
  | .mic => 0x180

/-- The host accesses a statement stands for (R98, R99). -/
def expand : Statement → List HostEvent
  | .w reg v =>
    match regOffset reg with
    | some off => [writeAt off v]
    | none => []
  | .r reg =>
    match regOffset reg with
    | some off => [.rd 32 off]
    | none => []
  | .c i => [writeAt 0x000 (encode i)]
  | .fm a bytes => packedWrites (0x1000 + a) bytes
  | .w64 pair v => [writeAt (pairOffset pair) (v.extractLsb' 32 32), writeAt (pairOffset pair + 4) (v.extractLsb' 0 32)]
  | .wa array bytes => packedWrites (arrayOffset array) bytes

/-- A program: its statements' accesses in order (R98). -/
def expandAll (p : List Statement) : List HostEvent := p.flatMap expand

end Sys2Proof.Machine
end

