-- ==== Sys2Proof/Safety.lean ====
section
/-! DEFINITION. The terms claims about the EKC use: what a command that went well, faulted or erred
leaves in STATUS, the invariants of the machine, the operands of each command, the failing admission
checks, and when two states differ only in what nobody has written. -/

namespace Sys2Proof.Machine

/-- The last command ended in SUCCESS (R190). -/
def State.succeeded (s : State) : Prop := s.status.done = true ∧ s.status.err = .none

/-- A step that goes on: neither the model-only UNDEF_READ nor a refused host access (R235). -/
def goesOn (o : Host.Outcome State Fault Refusal) : Prop := ∃ t, o = .next t

/-- The state after a command that raised FAULT(code, detail), written out from R196: `mask` is the FAULT
bit of R192, and nothing else differs. -/
def State.afterFault (s : State) (lastop : BitVec 4) (f : FaultCode) (mask : BitVec 9) (detail : Byte) : State :=
  { s with fault := s.fault ||| mask, status := ⟨true, false, .fault f, detail, lastop⟩ }

/-- Address a lies outside the len bytes from base. -/
def outside (a base len : Nat) : Prop := a < base ∨ base + len ≤ a

/-- FRF words 23 and 24 name no byte of [a, a+len): the view is empty or lies on one side (R114). -/
def State.viewApart (s : State) (a len : Nat) : Prop :=
  s.kdLen = 0 ∨ a + len ≤ s.kdAddr ∨ s.kdAddr + s.kdLen ≤ a

/-- FRF words 0..24 in the order of R35, as R197 lists them for SER and SERZ. -/
def everyFrfWord : List Operand :=
  [.frf .proto, .frf .ptype, .frf .bodylen, .frf .desc, .frf .keyinfo, .frf .keylen, .frf .rcHi, .frf .rcLo] ++
  (List.finRange 8).map (fun j => .frf (.nonce j)) ++ (List.finRange 4).map (fun j => .frf (.iv j)) ++
  [.frf .rscHi, .frf .rscLo, .frf .miclen, .frf .kdlen, .frf .kdaddr]

/-- F_MIC words 0..ceil(ms/4)-1 in ascending order (R40, R197). -/
def micWordsUpTo (ms : Nat) : List Operand := (List.range ((ms + 3) / 4)).map (fun k => .mic k)

/-- The operands each command needs defined, written out in the order of R197. UPDLEN tests ORIGIN first. -/
def needsOf (s : State) : Instr → List Operand
  | .parse => [.cfg .micSize, .cfg .rxBase, .cfg .rxLen]
  | .ser => [.cfg .txBase, .cfg .txCap] ++ everyFrfWord ++ micWordsUpTo s.frf.miclen.toNat
  | .serz => [.cfg .txBase, .cfg .txCap] ++ everyFrfWord
  | .updlen => [.frf .miclen, .frf .kdlen]
  | .patchmic => [.cfg .txBase, .cfg .txCap, .frf .miclen] ++ micWordsUpTo s.frf.miclen.toNat
  | .kdv => [.cfg .prot, .frf .desc]
  | .rccmp => [.cfg .role, .cfg .lastRcHi, .cfg .lastRcLo, .frf .rcHi, .frf .rcLo]
  | .validate => [.cfg .role, .cfg .prot, .cfg .lastRcHi, .cfg .lastRcLo,
      .frf .desc, .frf .keyinfo, .frf .keylen, .frf .rcHi, .frf .rcLo]
  | .discard => []

/-- Every operand a command needs is defined (R222). -/
def State.ready (s : State) (i : Instr) : Prop := ∀ x ∈ needsOf s i, s.isDefined x = true

/-- What VALIDATE judges, written out from R164: the sender is the opposite of ROLE (R15), LAST_RC and the
frame's counter are their two words, the more significant first (R32, R40). -/
def State.judgedFrame (s : State) : Admission where
  sender := match s.cfg.role with
    | .authenticator => .supplicant
    | .supplicant => .authenticator
  prot := s.cfg.prot
  last := s.cfg.lastRcHi ++ s.cfg.lastRcLo
  desc := s.frf.desc
  ki := s.frf.keyinfo
  klen := s.frf.keylen
  rc := s.frf.rcHi ++ s.frf.rcLo

/-- The checks of R164 a frame fails, each with its ERR code and number, in the order of R166: 1, 2, 3, 4,
5 (error bit, then request bit), 6, 7 (TK unknown, then length), 8, 9. Each is tested on its own, whatever
the others say, on the bits of PROT (R30) and KeyInformation (R84). -/
def failingChecks (p : Params) (a : Admission) : List (ErrorCode × Byte) :=
  (if a.desc = p.descRc4 then [(.admDescRc4, 1)] else []) ++
  (if a.desc = p.descWpa1 ∧ a.prot.getLsbD 5 = false then [(.admDescWpa1NotNegotiated, 1)] else []) ++
  (if a.desc ≠ p.desc80211 ∧ a.desc ≠ p.descWpa1 ∧ a.desc ≠ p.descRc4 then [(.admDescUnsupported, 1)] else []) ++
  (if (a.ki.extractLsb' 0 3).toNat ≠ (kdv p a.desc a.prot).toNat then [(.admVersion, 2)] else []) ++
  (if a.ki.getLsbD 3 = false ∧ a.ki.getLsbD 6 = true then [(.admGroupInstall, 3)] else []) ++
  (if a.sender = .supplicant ∧ a.ki.getLsbD 7 = true then [(.admAckFromSupplicant, 4)] else []) ++
  (if a.sender = .authenticator ∧ a.ki.getLsbD 10 = true then [(.admErrorFromAuthenticator, 5)] else []) ++
  (if a.sender = .authenticator ∧ a.ki.getLsbD 11 = true then [(.admRequestFromAuthenticator, 5)] else []) ++
  (if a.ki.getLsbD 13 = true then [(.admSmk, 6)] else []) ++
  (if a.ki.getLsbD 3 = true ∧ a.prot.getLsbD 6 = false then [(.admTkUnknown, 7)] else []) ++
  (if a.ki.getLsbD 3 = true ∧ a.klen ≠ a.prot.extractLsb' 16 16 ∧ ¬(a.sender = .supplicant ∧ a.klen = 0)
    then [(.admKeyLen, 7)] else []) ++
  (if a.last ≠ 0 ∧ (a.rc.toNat < a.last.toNat ∨ a.sender = .authenticator ∧ a.rc = a.last)
    then [(.admReplay, 8)] else []) ++
  (if a.ki.getLsbD 12 = true ∧ a.ki.getLsbD 8 = false then [(.admEncWithoutMic, 9)] else [])

/-- The invariant of the machine's state: what R7, R24, R33, R37, R39, R60, R76 and R196 say of every state
a run reaches. -/
structure State.Inv (s : State) : Prop where
  /-- The parameters are legal (R7). -/
  legal : s.params.Legal
  /-- FM is in canonical form. -/
  fmCanonical : Memory.wf s.fm
  /-- FM holds no byte outside 0 .. FM_BYTES-1 (R60). -/
  fmBounded : ∀ c ∈ s.fm, c.1 < s.params.fmBytes
  /-- F_MICLEN is a size the MIC register can hold (R37, D50). -/
  micLenFits : s.micLen ≤ s.params.maxMic
  /-- The bits of FRF_WDEF1 at or beyond MAX_MIC/4 are 0 (R39). -/
  micBitsFit : ∀ k, s.params.maxMic / 4 ≤ k → s.micDefined k = false
  /-- With ORIGIN = NONE nothing of the FRF is defined and nothing is classified (R37, R39). -/
  emptyWhenNone : s.origin = .none → s.frfWdef0 = 0 ∧ s.frfWdef1 = 0 ∧ s.cls = .none
  /-- On an Rx frame every FRF word but F_KDADDR is defined, and so is the frame's MIC (R39). -/
  rxDefined : s.origin = .rx →
    (∀ r, r ≠ .kdaddr → s.frfDefined r = true) ∧ (∀ k, k < wordsFor s.micLen → s.micDefined k = true)
  /-- The borrowed range lies in FM and all of it is defined (R76). -/
  rxBorrowed : s.origin = .rx → s.frfDefined .kdaddr = true →
    s.kdAddr + s.kdLen ≤ s.params.fmBytes ∧
    ∀ a, s.kdAddr ≤ a → a < s.kdAddr + s.kdLen → (Memory.read s.fm a).isSome = true
  /-- STATUS is zero before the first command, and OK is 1 exactly when ERR is 0 after it (R24, R44). -/
  statusForm : (s.status.done = false → s.status = ⟨false, false, .none, 0, 0⟩) ∧
    (s.status.done = true → (s.status.ok = true ↔ s.status.err = .none))
  /-- A fault in STATUS has its sticky FAULT bit set (R196). -/
  faultRecorded : ∀ f, s.status.err = .fault f → s.fault.getLsbD (faultBit f) = true
  /-- VERSION is 0 until a KDV succeeds, and a KDV result otherwise (R33, R152). -/
  versionForm : (s.vvalid = false → s.version = 0) ∧ s.version.toNat ≤ 3

/-- "a non-NONE CLASS always describes the current FRF and inputs" (R228, R34): whenever CLASS is not
NONE, the operands of VALIDATE are defined, no check fails on them as they now stand, and CLASS is what
the key_mic bit says (R165). -/
def State.ClassCurrent (s : State) : Prop :=
  s.cls ≠ .none →
    s.ready .validate ∧ failingChecks s.params s.judgedFrame = [] ∧
    s.cls = (if s.frf.keyinfo.getLsbD 8 then .withUnverifiedMic else .withoutMic)

/-- Two states that differ at most in the values behind clear defined bits (R27): the values nobody
supplied. -/
def State.agree (s t : State) : Prop :=
  t = { s with cfg := t.cfg, frf := t.frf, mic := t.mic } ∧
  (∀ r, s.cfgDefined r = true → cfgRead s.cfg r = cfgRead t.cfg r) ∧
  (∀ r, s.frfDefined r = true → frfRead s.frf r = frfRead t.frf r) ∧
  (∀ k : Fin 16, s.micDefined k = true → s.mic[k] = t.mic[k])

/-- Two outcomes that agree: the same kind of outcome, the same reason, or agreeing next states. -/
def outcomesAgree : Host.Outcome State Fault Refusal → Host.Outcome State Fault Refusal → Prop
  | .next s, .next t => s.agree t
  | .fault f, .fault g => f = g
  | .refused r, .refused q => r = q
  | .next _, .fault _ => False
  | .next _, .refused _ => False
  | .fault _, .next _ => False
  | .fault _, .refused _ => False
  | .refused _, .next _ => False
  | .refused _, .fault _ => False

/-- What a step leaves that performed a host read, the pending event, the answer v: nothing but the model's own
fields changes (R68). -/
def State.afterRead (s : State) (rest : List HostEvent) (v : Word) : State :=
  { s with host := rest, readData := some v, draws := s.draws + 1 }

/-- A host-writable register as a host reads it: its offset, its defined bit (R27), and the word it holds,
reserved bits 0. -/
structure RegisterRow where
  off : Nat
  defined : Bool
  held : Word
deriving DecidableEq, Repr

/-- The CFG registers, written out from R22 with the CFG_WDEF bits of R26 and the fields of R28 to R32. -/
def State.cfgRows (s : State) : List RegisterRow :=
  [⟨0x00C, s.cfgWdef.getLsbD 0, s.cfg.micSize.setWidth 32⟩,
   ⟨0x010, s.cfgWdef.getLsbD 1, s.cfg.rxBase⟩,
   ⟨0x014, s.cfgWdef.getLsbD 2, s.cfg.rxLen⟩,
   ⟨0x018, s.cfgWdef.getLsbD 3, s.cfg.txBase⟩,
   ⟨0x01C, s.cfgWdef.getLsbD 4, s.cfg.txCap⟩,
   ⟨0x020, s.cfgWdef.getLsbD 5, match s.cfg.role with | .authenticator => 0 | .supplicant => 1⟩,
   ⟨0x024, s.cfgWdef.getLsbD 6, s.cfg.prot &&& 0xFFFFFF7F⟩,
   ⟨0x028, s.cfgWdef.getLsbD 7, s.cfg.lastRcHi⟩,
   ⟨0x02C, s.cfgWdef.getLsbD 8, s.cfg.lastRcLo⟩]

/-- The FRF words, written out from R35 with the FRF_WDEF0 bits of R39. -/
def State.frfRows (s : State) : List RegisterRow :=
  [⟨0x100, s.frfWdef0.getLsbD 0, s.frf.proto.setWidth 32⟩,
   ⟨0x104, s.frfWdef0.getLsbD 1, s.frf.ptype.setWidth 32⟩,
   ⟨0x108, s.frfWdef0.getLsbD 2, s.frf.bodylen.setWidth 32⟩,
   ⟨0x10C, s.frfWdef0.getLsbD 3, s.frf.desc.setWidth 32⟩,
   ⟨0x110, s.frfWdef0.getLsbD 4, s.frf.keyinfo.setWidth 32⟩,
   ⟨0x114, s.frfWdef0.getLsbD 5, s.frf.keylen.setWidth 32⟩,
   ⟨0x118, s.frfWdef0.getLsbD 6, s.frf.rcHi⟩,
   ⟨0x11C, s.frfWdef0.getLsbD 7, s.frf.rcLo⟩] ++
  (List.finRange 8).map (fun j => ⟨0x120 + 4 * j.val, s.frfWdef0.getLsbD (8 + j.val), s.frf.nonce[j]⟩) ++
  (List.finRange 4).map (fun j => ⟨0x140 + 4 * j.val, s.frfWdef0.getLsbD (16 + j.val), s.frf.iv[j]⟩) ++
  [⟨0x150, s.frfWdef0.getLsbD 20, s.frf.rscHi⟩,
   ⟨0x154, s.frfWdef0.getLsbD 21, s.frf.rscLo⟩,
   ⟨0x158, s.frfWdef0.getLsbD 22, s.frf.miclen.setWidth 32⟩,
   ⟨0x15C, s.frfWdef0.getLsbD 23, s.frf.kdlen.setWidth 32⟩,
   ⟨0x160, s.frfWdef0.getLsbD 24, s.frf.kdaddr⟩]

/-- The F_MIC words that exist (R38), with the FRF_WDEF1 bits of R39. -/
def State.micRows (s : State) : List RegisterRow :=
  ((List.finRange 16).filter (fun k => 4 * k.val < s.params.maxMic)).map
    (fun k => ⟨0x180 + 4 * k.val, s.frfWdef1.getLsbD k.val, s.mic[k]⟩)

/-- Every host-writable register below the FM window (R22). -/
def State.registerRows (s : State) : List RegisterRow := s.cfgRows ++ s.frfRows ++ s.micRows

/-- The bits of a CFG register a write reaches (R28 to R32): its field mask. -/
def cfgMask : CfgReg → Word
  | .micSize => 0x0000FFFF
  | .rxBase => 0xFFFFFFFF
  | .rxLen => 0xFFFFFFFF
  | .txBase => 0xFFFFFFFF
  | .txCap => 0xFFFFFFFF
  | .role => 0x00000001
  | .prot => 0xFFFFFF7F
  | .lastRcHi => 0xFFFFFFFF
  | .lastRcLo => 0xFFFFFFFF

/-- The bits of an FRF word a write reaches (R35): its field mask. -/
def frfMask : FrfReg → Word
  | .proto => 0x000000FF
  | .ptype => 0x000000FF
  | .bodylen => 0x0000FFFF
  | .desc => 0x000000FF
  | .keyinfo => 0x0000FFFF
  | .keylen => 0x0000FFFF
  | .rcHi => 0xFFFFFFFF
  | .rcLo => 0xFFFFFFFF
  | .nonce _ => 0xFFFFFFFF
  | .iv _ => 0xFFFFFFFF
  | .rscHi => 0xFFFFFFFF
  | .rscLo => 0xFFFFFFFF
  | .miclen => 0x0000FFFF
  | .kdlen => 0x0000FFFF
  | .kdaddr => 0xFFFFFFFF

/-- The machine run from a state on the host's events, up to a number of steps (R235). -/
def runSteps (n : Nat) (s : State) : Host.Outcome State Fault Refusal := Host.Core.run Sys2Proof.core n s

end Sys2Proof.Machine
end

