-- ==== Sys2Proof/Certificates/Slice0/Obligations.lean ====
section
/-! DEFINITION. The statements about the EKC, taken from the numbered rules of spec/. Each docstring names
the rule it formalises. `s.ready i` says that every operand command i needs is defined (R222); `outside a b n`
that address a is not among the n bytes from b. -/

open Sys2Proof Sys2Proof.Machine

/-! ## Encoding (R92 to R95) -/

/-- Every command's word decodes to it, and so does its opcode-table row. -/
def Obligations.EveryCommandDecodesFromItsWord : Prop :=
  ∀ i : Instr, Sys2Proof.Laws.DecodeInvertsEncode.Statement i

/-- No two words decode to one command: a word decodes to i only if it is i's word, so no bit of a command
word is dropped (R95). -/
def Obligations.WordDecodesOnlyToItsOwnCommand : Prop :=
  ∀ (w : Word) (i : Instr), decode w = .ok i ↔ w = encode i

/-- The words of R95, written out. -/
def Obligations.CommandWordsOfR95 : Prop :=
  decode 0x00000001 = .ok .parse ∧ decode 0x00000002 = .ok .ser ∧ decode 0x00000012 = .ok .serz ∧
  decode 0x00000003 = .ok .updlen ∧ decode 0x00000004 = .ok .patchmic ∧ decode 0x00000005 = .ok .kdv ∧
  decode 0x00000006 = .ok .rccmp ∧ decode 0x00000007 = .ok .validate ∧ decode 0x00000008 = .ok .discard

/-- R94: a word is illegal in exactly its three cases, and writing an illegal word to CMD raises
F_ILLEGAL_CMD (FAULT bit 0, ERR 0x20, DETAIL 0, LASTOP = w[3:0], OK 0, DONE 1) and does nothing else: STATUS, as the
host reads it, is {LASTOP, DETAIL, ERR, OK, DONE} with zeros in between. -/
def Obligations.IllegalWordFaultsAndDoesNothingElse : Prop :=
  ∀ w : Word,
    ((∀ i, decode w ≠ .ok i) ↔
      (w.extractLsb' 0 4 = 0x0 ∨ 0x9 ≤ (w.extractLsb' 0 4).toNat) ∨ w.extractLsb' 5 27 ≠ 0 ∨
      (w.getLsbD 4 = true ∧ w.extractLsb' 0 4 ≠ 2)) ∧
    ((∀ i, decode w ≠ .ok i) → ∀ (s : State) (rest : List HostEvent), s.host = .wr 32 0 w :: rest →
      ∃ t, step s = .next t ∧
        statusWord t.status = (0 : BitVec 4) ++ w.extractLsb' 0 4 ++ (0x002001 : BitVec 24) ∧
        t = { s with
          host := rest
          fault := s.fault ||| 0x001
          status := ⟨true, false, .fault .illegalCmd, 0, w.extractLsb' 0 4⟩ })

/-! ## Steps and reset -/

/-- R23: a host write of a word to CMD executes the command the word encodes. -/
def Obligations.StepRunsTheCommandWritten : Prop :=
  ∀ (s : State) (w : Word) (i : Instr) (rest : List HostEvent),
    s.host = .wr 32 0 w :: rest → decode w = .ok i → step s = exec i { s with host := rest }

/-- R45, R210: with no host event pending the block is idle. -/
def Obligations.NoEventMeansNoChange : Prop := ∀ s : State, s.host = [] → step s = .next s

/-- R44: the reset state. Every host-writable register is undefined (its defined bit is 0, it reads as the
unspecified word), every FM byte is undefined, STATUS, FAULT, VERSION, CLASS and CMD read 0 and ORIGIN is NONE. -/
def Obligations.ResetStateOfR44 : Prop :=
  statusWord State.reset.status = 0 ∧ State.reset.fault = 0 ∧
  versionWord State.reset.version State.reset.vvalid = 0 ∧ State.reset.cls = .none ∧
  State.reset.origin = .none ∧ State.reset.cfgWdef = 0 ∧ State.reset.frfWdef0 = 0 ∧ State.reset.frfWdef1 = 0 ∧
  (∀ a, Memory.read State.reset.fm a = none) ∧
  (∀ r, State.reset.cfgDefined r = false) ∧ (∀ r, State.reset.frfDefined r = false) ∧
  (∀ k, State.reset.micDefined k = false) ∧
  (∀ free, State.reset.readReg free .cmd = 0 ∧
    (∀ r, State.reset.readReg free (.cfg r) = free) ∧ (∀ r, State.reset.readReg free (.frf r) = free) ∧
    (∀ k, State.reset.readReg free (.mic k) = free) ∧ (∀ a, State.reset.readReg free (.fm a) = free))

/-- R220: the reset input puts every piece of state at its reset value, whatever the state was. That the
host's pending events, its last read and the draw counter stay is the model's choice (log 10), and so is the 0 behind each
cleared defined bit (log 5). -/
def Obligations.ResetInputLeavesTheResetState : Prop :=
  ∀ (s : State) (rest : List HostEvent), s.host = .reset :: rest →
    step s = .next { State.resetWith s.params with host := rest, readData := s.readData, draws := s.draws }

/-! ## PARSE (R110, R113, R119) -/

/-- R113: a PARSE of a good frame completes, loads every field from its offset (R80, R82, R83), and changes
nothing but the FRF, F_MIC, their defined bits, ORIGIN, CLASS and STATUS. -/
def Obligations.ParseLoadsTheFrame : Prop :=
  ∀ (s : State) (b : List Byte) (ms : Nat),
    s.params.Legal → s.ready .parse → ms = s.cfg.micSize.toNat → ms ≤ s.params.maxMic →
    s.rxBase + s.rxLen ≤ s.params.fmBytes → Memory.readBytes s.fm s.rxBase s.rxLen = some b →
    byteAt b 1 = 3 → 83 + ms ≤ b.length → b.length = 83 + ms + be (slice b (81 + ms) 2) →
    ∃ t, exec .parse s = .next t ∧
      t.frf.proto = byteAt b 0 ∧ t.frf.ptype = byteAt b 1 ∧ t.frf.bodylen.toNat = be (slice b 2 2) ∧
      t.frf.desc = byteAt b 4 ∧ t.frf.keyinfo.toNat = be (slice b 5 2) ∧ t.frf.keylen.toNat = be (slice b 7 2) ∧
      t.replayCounter.toNat = be (slice b 9 8) ∧
      bytesOfWords t.frf.nonce.toList = slice b 17 32 ∧ bytesOfWords t.frf.iv.toList = slice b 49 16 ∧
      (t.frf.rscHi ++ t.frf.rscLo : Dword).toNat = be (slice b 65 8) ∧
      t.micLen = ms ∧ t.keyMic = slice b 81 ms ∧ (∀ j, ms ≤ j → j < 4 * wordsFor ms → byteAt t.micBytes j = 0) ∧
      t.kdLen = be (slice b (81 + ms) 2) ∧ t.kdAddr = s.rxBase + 83 + ms ∧
      t.frfWdef0 = 0x01FFFFFF ∧ (∀ k, t.micDefined k = decide (k < wordsFor ms)) ∧
      t = { s with
        frf := t.frf, mic := t.mic, frfWdef0 := t.frfWdef0, frfWdef1 := t.frfWdef1
        origin := .rx, cls := .none, status := ⟨true, true, .none, 0, 0x1⟩ }

/-- R110, R113: when one of decode's checks fails, the first that fails gives the DETAIL (SHORT 1,
PACKET_TYPE 2, TRAILING 3), and the FRF is invalidated, ORIGIN and CLASS become NONE, nothing else but STATUS
changes. R113 makes the FRF and F_MIC words undefined; that the values behind the cleared defined bits stay is the
model's choice (log 5). -/
def Obligations.ParseRejectsAMalformedFrame : Prop :=
  ∀ (s : State) (b : List Byte) (ms kdl : Nat) (detail : Byte),
    s.ready .parse → ms = s.cfg.micSize.toNat → ms ≤ s.params.maxMic →
    s.rxBase + s.rxLen ≤ s.params.fmBytes → Memory.readBytes s.fm s.rxBase s.rxLen = some b →
    kdl = be (slice b (81 + ms) 2) →
    ((b.length < 2 ∧ detail = 1) ∨
      (2 ≤ b.length ∧ byteAt b 1 ≠ 3 ∧ detail = 2) ∨
      (2 ≤ b.length ∧ byteAt b 1 = 3 ∧ b.length < 83 + ms ∧ detail = 1) ∨
      (83 + ms ≤ b.length ∧ byteAt b 1 = 3 ∧ b.length < 83 + ms + kdl ∧ detail = 1) ∨
      (byteAt b 1 = 3 ∧ 83 + ms + kdl < b.length ∧ detail = 3)) →
    exec .parse s = .next { s with
      frfWdef0 := 0, frfWdef1 := 0, origin := .none, cls := .none
      status := ⟨true, false, .error .format, detail, 0x1⟩ }

/-- R113, R197: with its operands defined, PARSE faults F_MIC_CAPACITY on MIC_SIZE > MAX_MIC, else
F_BUFFER/1 on a buffer that leaves FM, and changes only STATUS and the FAULT bit. -/
def Obligations.ParseFaultsOnMicSizeThenBuffer : Prop :=
  ∀ s : State, s.ready .parse →
    (s.params.maxMic < s.cfg.micSize.toNat → exec .parse s = .next (s.afterFault 0x1 .micCapacity 0x008 0)) ∧
    (s.cfg.micSize.toNat ≤ s.params.maxMic → s.params.fmBytes < s.rxBase + s.rxLen →
      exec .parse s = .next (s.afterFault 0x1 .buffer 0x004 1))

/-- R194: after PARSE's fault checks an undefined byte in the buffer ends the run in UNDEF_READ. -/
def Obligations.ParseOfAnUndefinedByteEndsTheRun : Prop :=
  ∀ (s : State) (a : Nat), s.ready .parse → s.cfg.micSize.toNat ≤ s.params.maxMic →
    s.rxBase + s.rxLen ≤ s.params.fmBytes → s.rxBase ≤ a → a < s.rxBase + s.rxLen → Memory.read s.fm a = none →
    exec .parse s = .fault .undefRead

/-- R119: every buffer shorter than 83 + ms is a Format error: SHORT with byte 1 = 3 or fewer than two bytes,
PACKET_TYPE otherwise. -/
def Obligations.EveryShortBufferIsAFormatError : Prop :=
  ∀ (b : List Byte) (ms : Nat), b.length < 83 + ms →
    (byteAt b 1 = 3 ∨ b.length < 2 → decodeFrame b ms = .error .short) ∧
    (byteAt b 1 ≠ 3 → 2 ≤ b.length → decodeFrame b ms = .error .packetType)

/-! ## SER and SERZ (R111, R114, R115) -/

/-- R114: a SER whose checks pass completes and writes the image with the held MIC at TX_BASE; FM and STATUS
alone change. -/
def Obligations.SerWritesTheImage : Prop :=
  ∀ (s : State) (kd : List Byte), s.ready .ser →
    83 + s.micLen + s.kdLen ≤ s.txCap → s.txBase + (83 + s.micLen + s.kdLen) ≤ s.params.fmBytes →
    s.kdAddr + s.kdLen ≤ s.params.fmBytes → s.viewApart s.txBase (83 + s.micLen + s.kdLen) →
    Memory.readBytes s.fm s.kdAddr s.kdLen = some kd →
    exec .ser s = .next { s with
      fm := Memory.writeBytes s.fm s.txBase (frameImage s.frf (s.micBytes.take s.micLen) kd)
      status := ⟨true, true, .none, 0, 0x2⟩ }

/-- R115: a SERZ whose checks pass completes and writes the image with the MIC region cleared, needing no
F_MIC word; FM and STATUS alone change. -/
def Obligations.SerzWritesTheImageWithAClearedMic : Prop :=
  ∀ (s : State) (kd : List Byte), s.ready .serz →
    83 + s.micLen + s.kdLen ≤ s.txCap → s.txBase + (83 + s.micLen + s.kdLen) ≤ s.params.fmBytes →
    s.kdAddr + s.kdLen ≤ s.params.fmBytes → s.viewApart s.txBase (83 + s.micLen + s.kdLen) →
    Memory.readBytes s.fm s.kdAddr s.kdLen = some kd →
    exec .serz s = .next { s with
      fm := Memory.writeBytes s.fm s.txBase (frameImage s.frf (List.replicate s.micLen 0) kd)
      status := ⟨true, true, .none, 0, 0x2⟩ }

/-- R111: the image has 83 + ms + kdl bytes and every field at the offset of R80, integers big-endian,
key_info AND 0x3FCF, the reserved octets zero, packet_body_len as held. -/
def Obligations.ImageHasTheWireLayout : Prop :=
  ∀ (f : Frf) (mic kd img : List Byte), kd.length = f.kdlen.toNat → img = frameImage f mic kd →
    img.length = 83 + mic.length + kd.length ∧
    byteAt img 0 = f.proto ∧ byteAt img 1 = f.ptype ∧ be (slice img 2 2) = f.bodylen.toNat ∧
    byteAt img 4 = f.desc ∧ be (slice img 5 2) = (f.keyinfo &&& 0x3FCF).toNat ∧
    be (slice img 7 2) = f.keylen.toNat ∧ be (slice img 9 8) = (f.rcHi ++ f.rcLo : Dword).toNat ∧
    (∀ j : Fin 8, slice img (17 + 4 * j.val) 4 = bytesOfWord f.nonce[j]) ∧
    (∀ j : Fin 4, slice img (49 + 4 * j.val) 4 = bytesOfWord f.iv[j]) ∧
    be (slice img 65 8) = (f.rscHi ++ f.rscLo : Dword).toNat ∧
    slice img 73 8 = [0, 0, 0, 0, 0, 0, 0, 0] ∧ slice img 81 mic.length = mic ∧
    be (slice img (81 + mic.length) 2) = f.kdlen.toNat ∧ slice img (83 + mic.length) kd.length = kd

/-- The frame of SER and SERZ (R63, R114, R115): whatever the outcome, nothing but FM, STATUS and FAULT
changes, and no FM byte outside [TX_BASE, TX_BASE + 83 + F_MICLEN + F_KDLEN) does. -/
def Obligations.SerializeChangesOnlyTheOutputRange : Prop :=
  ∀ (i : Instr) (s t : State), i = .ser ∨ i = .serz → exec i s = .next t →
    t = { s with fm := t.fm, status := t.status, fault := t.fault } ∧
    ∀ a, outside a s.txBase (83 + s.micLen + s.kdLen) → Memory.read t.fm a = Memory.read s.fm a

/-- R114, R115, R66: with their operands defined, SER and SERZ fault F_BUFFER/2 on an output that does not fit
TX_CAP or leaves FM, else F_BUFFER/3 on a view that leaves FM, else F_OVERLAP/0 on a view that meets the output.
Each is precise. -/
def Obligations.SerializeFaultsInOrder : Prop :=
  ∀ (i : Instr) (s : State) (n : Nat), i = .ser ∨ i = .serz → s.ready i → n = 83 + s.micLen + s.kdLen →
    ((s.txCap < n ∨ s.params.fmBytes < s.txBase + n) → exec i s = .next (s.afterFault 0x2 .buffer 0x004 2)) ∧
    (n ≤ s.txCap → s.txBase + n ≤ s.params.fmBytes → s.params.fmBytes < s.kdAddr + s.kdLen →
      exec i s = .next (s.afterFault 0x2 .buffer 0x004 3)) ∧
    (n ≤ s.txCap → s.txBase + n ≤ s.params.fmBytes → s.kdAddr + s.kdLen ≤ s.params.fmBytes →
      0 < s.kdLen → s.kdAddr < s.txBase + n → s.txBase < s.kdAddr + s.kdLen →
      exec i s = .next (s.afterFault 0x2 .overlap 0x010 0))

/-- R112, the source's round trip, on the machine: after a PARSE that succeeds and a SER (or SERZ) of that frame
that succeeds, the output holds the received bytes with octets 73..80 and the reserved KeyInformation bits zero
(and, for SERZ, the MIC zero), and a PARSE of the output succeeds with every field equal but key_info's reserved
bits, key_mic when it was cleared, and the key-data address. -/
def Obligations.SerializeThenParseReproducesTheFrame : Prop :=
  ∀ (clear : Bool) (s t u v : State) (tb cap : Word),
    s.params.Legal → exec .parse s = .next t → t.succeeded →
    u = { t with cfg := { t.cfg with txBase := tb, txCap := cap }, cfgWdef := t.cfgWdef ||| 0x018 } →
    exec (if clear then .serz else .ser) u = .next v → v.succeeded →
    (∀ i, i < s.rxLen → Memory.read v.fm (tb.toNat + i) =
      (Memory.read s.fm (s.rxBase + i)).map (fun x =>
        if 73 ≤ i ∧ i ≤ 80 then 0
        else if i = 5 then x &&& 0x3F
        else if i = 6 then x &&& 0xCF
        else if clear = true ∧ 81 ≤ i ∧ i < 81 + t.micLen then 0
        else x)) ∧
    ∃ x, exec .parse { v with cfg := { v.cfg with rxBase := tb } } = .next x ∧ x.succeeded ∧
      x.frf = { t.frf with
        keyinfo := t.frf.keyinfo &&& 0x3FCF
        kdaddr := BitVec.ofNat 32 (tb.toNat + 83 + t.micLen) } ∧
      x.keyMic = (if clear then List.replicate t.micLen 0 else t.keyMic)

/-! ## UPDLEN (R116) -/

/-- R116: on a Tx frame with F_MICLEN and F_KDLEN defined, UPDLEN sets F_BODYLEN to 79 + F_MICLEN + F_KDLEN when
that fits 16 bits, or to it modulo 65536 when it does not and BODYLEN_OVERFLOW is WRAP; F_BODYLEN becomes defined,
CLASS NONE, and nothing else but STATUS changes. -/
def Obligations.UpdlenWritesTheBodyLength : Prop :=
  ∀ (s : State) (n : Nat), s.origin = .tx → s.ready .updlen → n = 79 + s.micLen + s.kdLen →
    n ≤ 65535 ∨ s.params.bodyLenOverflow = .wrap →
    ∃ t, exec .updlen s = .next t ∧ t.frf.bodylen.toNat = n % 65536 ∧
      t = { s with
        frf := { s.frf with bodylen := t.frf.bodylen }
        frfWdef0 := s.frfWdef0 ||| 0x0000004
        cls := .none
        status := ⟨true, true, .none, 0, 0x3⟩ }

/-- R116: UPDLEN faults F_NOT_TX on a frame that is not Tx, and F_BODYLEN_OVF on an overflow under the FAULT
setting. -/
def Obligations.UpdlenFaultsOffTxAndOnOverflow : Prop :=
  ∀ s : State,
    (s.origin ≠ .tx → exec .updlen s = .next (s.afterFault 0x3 .notTx 0x040 0)) ∧
    (s.origin = .tx → s.ready .updlen → 65535 < 79 + s.micLen + s.kdLen → s.params.bodyLenOverflow = .fault →
      exec .updlen s = .next (s.afterFault 0x3 .bodylenOvf 0x020 0))

/-! ## PATCHMIC (R117) -/

/-- R117: a PATCHMIC whose checks pass completes and writes the F_MICLEN bytes of the held MIC at TX_BASE+81; FM
and STATUS alone change. -/
def Obligations.PatchmicWritesTheHeldMic : Prop :=
  ∀ s : State, s.ready .patchmic →
    81 + s.micLen ≤ s.txCap → s.txBase + 81 + s.micLen ≤ s.params.fmBytes →
    s.frfDefined .kdlen = false ∨ s.frfDefined .kdaddr = false ∨ s.viewApart (s.txBase + 81) s.micLen →
    exec .patchmic s = .next { s with
      fm := Memory.writeBytes s.fm (s.txBase + 81) (s.micBytes.take s.micLen)
      status := ⟨true, true, .none, 0, 0x4⟩ }

/-- R117: with its operands defined, PATCHMIC faults F_BUFFER/4 on a MIC region that does not fit, else F_OVERLAP/1
on a defined view that meets it. -/
def Obligations.PatchmicFaultsInOrder : Prop :=
  ∀ s : State, s.ready .patchmic →
    ((s.txCap < 81 + s.micLen ∨ s.params.fmBytes < s.txBase + 81 + s.micLen) →
      exec .patchmic s = .next (s.afterFault 0x4 .buffer 0x004 4)) ∧
    (81 + s.micLen ≤ s.txCap → s.txBase + 81 + s.micLen ≤ s.params.fmBytes →
      s.frfDefined .kdlen = true → s.frfDefined .kdaddr = true → 0 < s.kdLen →
      s.kdAddr < s.txBase + 81 + s.micLen → s.txBase + 81 < s.kdAddr + s.kdLen →
      exec .patchmic s = .next (s.afterFault 0x4 .overlap 0x010 1))

/-- The frame of PATCHMIC (R63, R117): no FM byte outside [TX_BASE+81, TX_BASE+81+F_MICLEN) changes, and nothing
but FM, STATUS and FAULT does. -/
def Obligations.PatchmicChangesOnlyTheMicRegion : Prop :=
  ∀ s t : State, exec .patchmic s = .next t →
    t = { s with fm := t.fm, status := t.status, fault := t.fault } ∧
    ∀ a, outside a (s.txBase + 81) s.micLen → Memory.read t.fm a = Memory.read s.fm a

/-- R117's derived corner: SERZ, then a MIC put into F_MIC, then PATCHMIC leaves the output buffer equal to what SER
would have written with that MIC. -/
def Obligations.SerzThenPatchmicEqualsSer : Prop :=
  ∀ (s t u v : State) (mic : Vector Word 16) (d : BitVec 16),
    exec .serz s = .next t → t.succeeded →
    exec .patchmic { t with mic := mic, frfWdef1 := d } = .next u → u.succeeded →
    exec .ser { s with mic := mic, frfWdef1 := d } = .next v → v.succeeded →
    ∀ a, Memory.read u.fm a = Memory.read v.fm a

/-! ## DISCARD (R118) -/

/-- The word 0x00000008 is DISCARD, and it always completes; every FRF word and F_MIC word becomes undefined, ORIGIN
and CLASS NONE, and nothing else but STATUS changes (R118). R118 makes the words undefined; that the values behind the
cleared defined bits stay is the model's choice (log 5). -/
def Obligations.DiscardEndsTheFrame : Prop :=
  decode 0x00000008 = .ok .discard ∧ ∀ s : State, ∃ t, exec .discard s = .next t ∧
    (∀ r, t.frfDefined r = false) ∧ (∀ k, t.micDefined k = false) ∧
    t = { s with
      frfWdef0 := 0, frfWdef1 := 0, origin := .none, cls := .none, status := ⟨true, true, .none, 0, 0x8⟩ }

/-! ## KDV (R150 to R152) -/

/-- R150, R152: the whole lookup table, row by row (E is PW_ENH or GD_ENH). -/
def Obligations.KdvIsTheTableOfR152 : Prop :=
  ∀ (p : Params) (d : Byte) (prot : Word), p.Legal →
    let known := prot.getLsbD 0 = true ∧ prot.getLsbD 1 = true
    let akm := (prot.extractLsb' 8 8).toNat
    let tkip := prot.getLsbD 2 = true
    let enh := prot.getLsbD 3 = true ∨ prot.getLsbD 4 = true
    (¬known → kdv p d prot = 0) ∧
    (known → (akm = 1 ∨ akm = 2) → (d = p.descRc4 ∨ d = p.descWpa1) → tkip → kdv p d prot = 1) ∧
    (known → (akm = 1 ∨ akm = 2) → (d = p.descRc4 ∨ d = p.descWpa1) → ¬tkip → kdv p d prot = 0) ∧
    (known → (akm = 1 ∨ akm = 2) → d = p.desc80211 → enh → kdv p d prot = 2) ∧
    (known → (akm = 1 ∨ akm = 2) → d = p.desc80211 → ¬enh → kdv p d prot = 0) ∧
    (known → (akm = 1 ∨ akm = 2) → d ≠ p.descRc4 → d ≠ p.descWpa1 → d ≠ p.desc80211 → kdv p d prot = 0) ∧
    (known → 3 ≤ akm → akm ≤ 6 → kdv p d prot = 3) ∧
    (known → (akm = 0 ∨ 7 ≤ akm) → kdv p d prot = 0) ∧
    (kdv p d prot).toNat ≤ 3

/-- R151: with PROT and F_DESC defined, KDV completes, VERSION holds the table's value and VVALID is 1; nothing else
but STATUS changes. -/
def Obligations.KdvWritesVersion : Prop :=
  ∀ s : State, s.ready .kdv →
    exec .kdv s = .next { s with
      version := kdv s.params s.frf.desc s.cfg.prot, vvalid := true, status := ⟨true, true, .none, 0, 0x5⟩ }

/-! ## RCCMP and VALIDATE (R160 to R169) -/

/-- R162: the comparator. Nothing is enforced when LAST_RC is 0; a Supplicant's counter must be at least LAST_RC, an
Authenticator's greater, unsigned over 64 bits. -/
def Obligations.ReplayComparatorOfR162 : Prop :=
  ∀ rc last : Dword,
    rcOk rc 0 .supplicant = true ∧ rcOk rc 0 .authenticator = true ∧
    (last ≠ 0 → (rcOk rc last .supplicant = true ↔ last.toNat ≤ rc.toNat)) ∧
    (last ≠ 0 → (rcOk rc last .authenticator = true ↔ last.toNat < rc.toNat)) ∧
    rcOk rc 0xFFFFFFFFFFFFFFFF .authenticator = false ∧
    (rcOk rc 0xFFFFFFFFFFFFFFFF .supplicant = true ↔ rc = 0xFFFFFFFFFFFFFFFF)

/-- R163: with its operands defined, RCCMP completes: SUCCESS when the counter passes check 8 for the sender, the
opposite of ROLE, and ERROR(ADM_REPLAY, 8) when it does not; nothing but STATUS changes either way. -/
def Obligations.RccmpAnswersCheckEight : Prop :=
  ∀ s : State, s.ready .rccmp →
    ((s.lastRc = 0 ∨ (s.cfg.role = .authenticator ∧ s.lastRc.toNat ≤ s.replayCounter.toNat) ∨
        (s.cfg.role = .supplicant ∧ s.lastRc.toNat < s.replayCounter.toNat)) →
      exec .rccmp s = .next { s with status := ⟨true, true, .none, 0, 0x6⟩ }) ∧
    (s.lastRc ≠ 0 → ((s.cfg.role = .authenticator ∧ s.replayCounter.toNat < s.lastRc.toNat) ∨
        (s.cfg.role = .supplicant ∧ s.replayCounter.toNat ≤ s.lastRc.toNat)) →
      exec .rccmp s = .next { s with status := ⟨true, false, .error .admReplay, 8, 0x6⟩ })

/-- R164, R165: with its operands defined, VALIDATE of a frame that fails none of the checks completes: CLASS says
whether a MIC is still to be verified, and nothing else but STATUS changes. -/
def Obligations.ValidateAdmitsAndClassifies : Prop :=
  ∀ s : State, s.params.Legal → s.ready .validate → failingChecks s.params s.judgedFrame = [] →
    exec .validate s = .next { s with
      cls := if s.frf.keyinfo.getLsbD 8 then .withUnverifiedMic else .withoutMic
      status := ⟨true, true, .none, 0, 0x7⟩ }

/-- R164, R166: VALIDATE of a frame that fails checks reports the first in the order of R166, with the check's number
as DETAIL, and sets CLASS to NONE; nothing else but STATUS changes. -/
def Obligations.ValidateReportsTheFirstFailingCheck : Prop :=
  ∀ (s : State) (c : ErrorCode) (n : Byte) (more : List (ErrorCode × Byte)),
    s.params.Legal → s.ready .validate → failingChecks s.params s.judgedFrame = (c, n) :: more →
    exec .validate s = .next { s with cls := .none, status := ⟨true, false, .error c, n, 0x7⟩ }

/-- R169: VALIDATE never admits (c) a frame with encrypted key data and no MIC, (d) a frame with smk_message set, (a) with
LAST_RC > 0 an Authenticator's frame (ROLE = SUPPLICANT) whose counter is not above LAST_RC, (b) a Supplicant's (ROLE =
AUTHENTICATOR) whose counter is below it. OK is then 0, and CLASS is NONE unless the command faulted. -/
def Obligations.ForgedOrReplayedFramesAreNeverAdmitted : Prop :=
  ∀ s t : State, exec .validate s = .next t →
    (s.frf.keyinfo.getLsbD 12 = true ∧ s.frf.keyinfo.getLsbD 8 = false) ∨ s.frf.keyinfo.getLsbD 13 = true ∨
      (s.lastRc ≠ 0 ∧ s.cfg.role = .supplicant ∧ s.replayCounter.toNat ≤ s.lastRc.toNat) ∨
      (s.lastRc ≠ 0 ∧ s.cfg.role = .authenticator ∧ s.replayCounter.toNat < s.lastRc.toNat) →
    t.status.ok = false ∧ (t.cls = .none ∨ t.cls = s.cls ∧ ∃ f, t.status.err = .fault f)

/-! ## Outcomes, over every command (R190 to R197) -/

/-- R190, R24: every command of every state ends in a next state whose STATUS it wrote whole (DONE 1, OK exactly when
ERR is NONE, LASTOP its OP), or, for PARSE, SER and SERZ alone, in UNDEF_READ. No command is refused. -/
def Obligations.EveryCommandEndsInAnOutcomeOfR190 : Prop :=
  ∀ (i : Instr) (s : State),
    (∃ t, exec i s = .next t ∧ t.status.done = true ∧ (t.status.ok = true ↔ t.status.err = .none) ∧
      t.status.lastop = (encode i).extractLsb' 0 4) ∨
    (exec i s = .fault .undefRead ∧ (i = .parse ∨ i = .ser ∨ i = .serz))

/-- R196: a FAULT is precise. The state after it is the state before, apart from the FAULT bit of its code (R192) and
STATUS, which holds LASTOP = the command's OP, its detail and code, OK = 0 and DONE = 1. -/
def Obligations.FaultsArePrecise : Prop :=
  ∀ (i : Instr) (s t : State) (f : FaultCode), exec i s = .next t → t.status.err = .fault f →
    t = { s with
      fault := s.fault ||| (match f with
        | .illegalCmd => 0x001
        | .undefField => 0x002
        | .buffer => 0x004
        | .micCapacity => 0x008
        | .overlap => 0x010
        | .bodylenOvf => 0x020
        | .notTx => 0x040)
      status := ⟨true, false, .fault f, t.status.detail, (encode i).extractLsb' 0 4⟩ }

/-- R195, R192: an ERROR sets no FAULT bit and commits only what its rule names: PARSE clears the defined bits of the FRF,
ORIGIN and CLASS, VALIDATE sets CLASS to NONE, RCCMP commits nothing; no other command raises one. STATUS holds LASTOP =
the command's OP, its detail and code, OK = 0 and DONE = 1. In the PARSE clause R113 makes the FRF and F_MIC words
undefined; that the values behind the cleared defined bits stay is the model's choice (log 5). -/
def Obligations.ErrorsCommitOnlyWhatTheirRuleNames : Prop :=
  ∀ (i : Instr) (s t : State) (e : ErrorCode), exec i s = .next t → t.status.err = .error e →
    t.status = ⟨true, false, .error e, t.status.detail, (encode i).extractLsb' 0 4⟩ ∧
    ((i = .parse ∧ e = .format ∧
      t = { s with frfWdef0 := 0, frfWdef1 := 0, origin := .none, cls := .none, status := t.status }) ∨
    (i = .validate ∧ e ≠ .format ∧ t = { s with cls := .none, status := t.status }) ∨
    (i = .rccmp ∧ e = .admReplay ∧ t = { s with status := t.status }))

/-- R27, R197: a command whose operands (in the order of R197) are all defined up to x, and whose x is undefined, faults
F_UNDEF_FIELD with idx(x): the CFG_WDEF bit number, 0x40 + the FRF word index, or 0x80 + the F_MIC word number. UPDLEN
first tests ORIGIN. -/
def Obligations.FirstUndefinedOperandFaults : Prop :=
  ∀ (i : Instr) (s : State) (pre post : List Operand) (x : Operand),
    needsOf s i = pre ++ x :: post → (∀ y ∈ pre, s.isDefined y = true) → s.isDefined x = false →
    (i = .updlen → s.origin = .tx) →
    exec i s = .next (s.afterFault i.op .undefField 0x002
      (match x with
        | .cfg r => BitVec.ofNat 8 (cfgIndex r)
        | .frf r => BitVec.ofNat 8 (0x40 + frfIndex r)
        | .mic k => BitVec.ofNat 8 (0x80 + k)))

/-- R32, R195: no command writes a CFG register, LAST_RC among them, or a CFG_WDEF bit, or anything outside the EKC. -/
def Obligations.NoCommandWritesAHostInput : Prop :=
  ∀ (i : Instr) (s t : State), exec i s = .next t →
    t.cfg = s.cfg ∧ t.cfgWdef = s.cfgWdef ∧ t.params = s.params ∧ t.host = s.host ∧
    t.readData = s.readData ∧ t.draws = s.draws

/-! ## The host's accesses -/

/-- R68, R22, R36: a host read has no side effect, and a read at the offset of a defined CFG register, FRF word or F_MIC
word answers the word it holds. The pending events and the draw counter are the model's own bookkeeping (log 2, log 4). -/
def Obligations.ReadsHaveNoSideEffect : Prop :=
  ∀ (s : State) (off : Nat) (rest : List HostEvent), s.host = .rd 32 off :: rest →
    off % 4 = 0 → off < 0x1000 + s.params.fmBytes →
    ∃ v, step s = .next (s.afterRead rest v) ∧
      ∀ row ∈ s.registerRows, row.off = off → row.defined = true → v = row.held

/-- R22, R23, R24, R25, R26, R33, R34, R39, R191: what a host read answers at the offset of CMD and of each read-only
register, bit field by bit field, the ERR codes of R191 written out. -/
def Obligations.StatusRegistersReadAsTheirFields : Prop :=
  ∀ (s : State) (rest : List HostEvent),
    (s.host = .rd 32 0x000 :: rest → step s = .next (s.afterRead rest 0)) ∧
    (s.host = .rd 32 0x004 :: rest → ∃ w, step s = .next (s.afterRead rest w) ∧
      w.getLsbD 0 = s.status.done ∧ w.getLsbD 1 = s.status.ok ∧ w.extractLsb' 2 6 = 0 ∧
      w.extractLsb' 8 8 = (match s.status.err with
        | .none => 0x00
        | .error .format => 0x01
        | .error .admDescUnsupported => 0x10
        | .error .admDescRc4 => 0x11
        | .error .admDescWpa1NotNegotiated => 0x12
        | .error .admVersion => 0x13
        | .error .admGroupInstall => 0x14
        | .error .admAckFromSupplicant => 0x15
        | .error .admErrorFromAuthenticator => 0x16
        | .error .admRequestFromAuthenticator => 0x17
        | .error .admSmk => 0x18
        | .error .admTkUnknown => 0x19
        | .error .admKeyLen => 0x1A
        | .error .admReplay => 0x1B
        | .error .admEncWithoutMic => 0x1C
        | .fault .illegalCmd => 0x20
        | .fault .undefField => 0x21
        | .fault .buffer => 0x22
        | .fault .micCapacity => 0x23
        | .fault .overlap => 0x24
        | .fault .bodylenOvf => 0x25
        | .fault .notTx => 0x26) ∧
      w.extractLsb' 16 8 = s.status.detail ∧ w.extractLsb' 24 4 = s.status.lastop ∧ w.extractLsb' 28 4 = 0) ∧
    (s.host = .rd 32 0x008 :: rest → ∃ w, step s = .next (s.afterRead rest w) ∧
      w.extractLsb' 0 9 = s.fault ∧ w.extractLsb' 9 23 = 0) ∧
    (s.host = .rd 32 0x030 :: rest → ∃ w, step s = .next (s.afterRead rest w) ∧
      w.extractLsb' 0 16 = s.version ∧ w.getLsbD 16 = s.vvalid ∧ w.extractLsb' 17 15 = 0) ∧
    (s.host = .rd 32 0x034 :: rest → step s = .next (s.afterRead rest
      (match s.cls with | .none => 0 | .withoutMic => 1 | .withUnverifiedMic => 2))) ∧
    (s.host = .rd 32 0x038 :: rest → ∃ w, step s = .next (s.afterRead rest w) ∧
      w.extractLsb' 0 9 = s.cfgWdef ∧ w.extractLsb' 9 23 = 0) ∧
    (s.host = .rd 32 0x1C0 :: rest → ∃ w, step s = .next (s.afterRead rest w) ∧
      w.extractLsb' 0 25 = s.frfWdef0 ∧ w.extractLsb' 25 7 = 0) ∧
    (s.host = .rd 32 0x1C4 :: rest → ∃ w, step s = .next (s.afterRead rest w) ∧
      w.extractLsb' 0 16 = s.frfWdef1 ∧ w.extractLsb' 16 16 = 0) ∧
    (s.host = .rd 32 0x1C8 :: rest → step s = .next (s.afterRead rest
      (match s.origin with | .none => 0 | .rx => 1 | .tx => 2)))

/-- R27: a host read of an undefined CFG register, FRF word or F_MIC word returns the unspecified word the read draws. -/
def Obligations.UndefinedRegistersReadAsAFreshDraw : Prop :=
  ∀ (s : State) (row : RegisterRow) (rest : List HostEvent), s.host = .rd 32 row.off :: rest →
    row ∈ s.registerRows → row.defined = false → step s = .next (s.afterRead rest (Config.freshWord s.draws))

/-- R43: a host write to a CFG register stores the field bits, sets its CFG_WDEF bit, and sets CLASS to NONE for ROLE,
PROT and the LAST_RC halves; a read of it then returns the written word's field bits, the reserved bits as 0 (R42). ROLE is
SUPPLICANT when the written bit 0 is 1 and AUTHENTICATOR when it is 0 (R31). -/
def Obligations.CfgWriteStoresDefinesAndClearsClass : Prop :=
  ∀ (s : State) (r : CfgReg) (d : Word) (rest : List HostEvent),
    s.host = .wr 32 (cfgOffset r) d :: rest →
    ∃ t, step s = .next t ∧ t.cfgDefined r = true ∧ (∀ q, q ≠ r → t.cfgDefined q = s.cfgDefined q) ∧
      cfgRead t.cfg r = d &&& cfgMask r ∧ (∀ q, q ≠ r → cfgRead t.cfg q = cfgRead s.cfg q) ∧
      (∀ free, t.readReg free (.cfg r) = d &&& cfgMask r) ∧
      (r = .role → t.cfg.role = if d.getLsbD 0 then .supplicant else .authenticator) ∧
      t.cls = (if r = .role ∨ r = .prot ∨ r = .lastRcHi ∨ r = .lastRcLo then .none else s.cls) ∧
      t = { s with host := rest, cfg := t.cfg, cfgWdef := t.cfgWdef, cls := t.cls }

/-- R37: a host write to an FRF word of a frame that is not Rx, but one that would make F_MICLEN exceed MAX_MIC, is
accepted: the field bits are stored, the word is defined, ORIGIN is TX, CLASS NONE; nothing else changes. -/
def Obligations.FrfWriteIsAcceptedOffRx : Prop :=
  ∀ (s : State) (r : FrfReg) (d : Word) (rest : List HostEvent),
    s.host = .wr 32 (frfOffset r) d :: rest → s.origin ≠ .rx →
    ¬(r = .miclen ∧ s.params.maxMic < (d.extractLsb' 0 16).toNat) →
    ∃ t, step s = .next t ∧ t.frfDefined r = true ∧ (∀ q, q ≠ r → t.frfDefined q = s.frfDefined q) ∧
      frfRead t.frf r = d &&& frfMask r ∧ (∀ q, q ≠ r → frfRead t.frf q = frfRead s.frf q) ∧
      (∀ free, t.readReg free (.frf r) = d &&& frfMask r) ∧
      t = { s with host := rest, frf := t.frf, frfWdef0 := t.frfWdef0, origin := .tx, cls := .none }

/-- R37, R198: a host write to an FRF word of an Rx frame is ignored and sets FAULT.RX_WRITE; a write that would make
F_MICLEN exceed MAX_MIC on any other frame is ignored and sets FAULT.MIC_CAPACITY. STATUS is not changed. -/
def Obligations.FrfWriteIgnoredWithItsFaultBit : Prop :=
  ∀ (s : State) (r : FrfReg) (d : Word) (rest : List HostEvent),
    s.host = .wr 32 (frfOffset r) d :: rest →
    (s.origin = .rx → step s = .next { s with host := rest, fault := s.fault ||| 0x080 }) ∧
    (s.origin ≠ .rx → r = .miclen → s.params.maxMic < (d.extractLsb' 0 16).toNat →
      step s = .next { s with host := rest, fault := s.fault ||| 0x008 })

/-- R37: a host write to an F_MIC word is accepted whatever ORIGIN is; NONE becomes TX, RX stays RX. -/
def Obligations.MicWriteIsAlwaysAccepted : Prop :=
  ∀ (s : State) (k : Fin 16) (d : Word) (rest : List HostEvent),
    s.host = .wr 32 (0x180 + 4 * k.val) d :: rest → 4 * k.val < s.params.maxMic →
    ∃ t, step s = .next t ∧ t.micDefined k = true ∧ (∀ j, j ≠ k.val → t.micDefined j = s.micDefined j) ∧
      t.mic[k] = d ∧ (∀ j : Fin 16, j ≠ k → t.mic[j] = s.mic[j]) ∧
      t = { s with
        host := rest, mic := t.mic, frfWdef1 := t.frfWdef1, cls := .none
        origin := if s.origin = .rx then .rx else .tx }

/-- R62, R76: a host write to the FM window writes its four bytes, most significant first, and no other byte. When one of
the four lies in the borrowed range of an Rx frame it also sets FAULT.BORROW, undefines FRF word 24 and sets CLASS to NONE,
leaving ORIGIN and every other FRF word; otherwise nothing else changes. -/
def Obligations.WindowWriteStoresLanesAndRaisesBorrow : Prop :=
  ∀ (s : State) (a : Nat) (d : Word) (rest : List HostEvent),
    s.host = .wr 32 (0x1000 + a) d :: rest → a % 4 = 0 → a < s.params.fmBytes →
    ∃ t, step s = .next t ∧
      Memory.read t.fm a = some (d.extractLsb' 24 8) ∧ Memory.read t.fm (a + 1) = some (d.extractLsb' 16 8) ∧
      Memory.read t.fm (a + 2) = some (d.extractLsb' 8 8) ∧ Memory.read t.fm (a + 3) = some (d.extractLsb' 0 8) ∧
      (∀ x, outside x a 4 → Memory.read t.fm x = Memory.read s.fm x) ∧
      ((s.origin = .rx ∧ s.frfDefined .kdaddr = true ∧
          ∃ x, a ≤ x ∧ x < a + 4 ∧ s.kdAddr ≤ x ∧ x < s.kdAddr + s.kdLen) →
        t = { s with
          host := rest, fm := t.fm, fault := s.fault ||| 0x100, frfWdef0 := s.frfWdef0 &&& 0x0FFFFFF, cls := .none
          frf := { s.frf with kdaddr := t.frf.kdaddr } }) ∧
      (¬(s.origin = .rx ∧ s.frfDefined .kdaddr = true ∧
          ∃ x, a ≤ x ∧ x < a + 4 ∧ s.kdAddr ≤ x ∧ x < s.kdAddr + s.kdLen) →
        t = { s with host := rest, fm := t.fm })

/-- R62, R71: a window read answers the four bytes, most significant lane first: a defined byte as held, an undefined one
as the byte of that lane of the read's unspecified draw (log 4). So a window read after a window write of the same word
returns what was written. -/
def Obligations.WindowReadReturnsWhatWasWritten : Prop :=
  ∀ (s : State) (a : Nat) (rest : List HostEvent), a % 4 = 0 → a < s.params.fmBytes →
    (s.host = .rd 32 (0x1000 + a) :: rest → ∃ w, step s = .next (s.afterRead rest w) ∧
      ∀ i, i < 4 → w.extractLsb' (24 - 8 * i) 8 = (match Memory.read s.fm (a + i) with
        | some b => b
        | none => (Config.freshWord s.draws).extractLsb' (24 - 8 * i) 8)) ∧
    (∀ d, s.host = .wr 32 (0x1000 + a) d :: .rd 32 (0x1000 + a) :: rest →
      ∃ t u, step s = .next t ∧ step t = .next u ∧ u.readData = some d ∧ u.host = rest)

/-- R42: a host write to a read-only register, and to an offset of the map's gaps, is ignored and has no effect; a read of a
gap returns 0. -/
def Obligations.ReadOnlyAndUnmappedAccessesDoNothing : Prop :=
  ∀ (s : State) (off : Nat) (d : Word) (rest : List HostEvent), s.params.Legal → off % 4 = 0 →
    let readOnly := off = 0x004 ∨ off = 0x008 ∨ off = 0x030 ∨ off = 0x034 ∨ off = 0x038 ∨
      off = 0x1C0 ∨ off = 0x1C4 ∨ off = 0x1C8
    let gap := (0x03C ≤ off ∧ off < 0x100) ∨ (0x164 ≤ off ∧ off < 0x180) ∨
      (0x180 + s.params.maxMic ≤ off ∧ off < 0x1C0) ∨ (0x1CC ≤ off ∧ off < 0x1000)
    (s.host = .wr 32 off d :: rest → readOnly ∨ gap → step s = .next { s with host := rest }) ∧
    (s.host = .rd 32 off :: rest → gap →
      step s = .next (s.afterRead rest 0))

/-- R65: a host access that is not a 32-bit access at a multiple of 4 below 0x1000+FM_BYTES is refused, and no other one is:
a read goes on, so does a write outside CMD, and a write to CMD is the command's or the illegal word's step. -/
def Obligations.OnlyAlignedWordAccessesAreCarried : Prop :=
  ∀ (s : State) (bits off : Nat) (d : Word) (rest : List HostEvent),
    s.host = .rd bits off :: rest ∨ s.host = .wr bits off d :: rest →
    (¬(bits = 32 ∧ off % 4 = 0 ∧ off < 0x1000 + s.params.fmBytes) → ∃ r, step s = .refused r) ∧
    (bits = 32 → off % 4 = 0 → off < 0x1000 + s.params.fmBytes →
      (∀ r, step s ≠ .refused r) ∧ (s.host = .rd bits off :: rest ∨ off ≠ 0 → ∃ t, step s = .next t))

/-! ## Rules of the whole machine -/

/-- R25, R201: a FAULT bit once set stays set until reset. -/
def Obligations.FaultBitsAreSticky : Prop :=
  ∀ (s t : State) (k : Nat), step s = .next t → (∀ rest, s.host ≠ .reset :: rest) →
    s.fault.getLsbD k = true → t.fault.getLsbD k = true

/-- R24: a host access other than a CMD write never changes STATUS; reset alone does besides. -/
def Obligations.OnlyCommandsWriteStatus : Prop :=
  ∀ s t : State, step s = .next t → t.status ≠ s.status →
    ∃ rest, s.host = .reset :: rest ∨ ∃ w, s.host = .wr 32 0 w :: rest

/-- R34: CLASS becomes something other than NONE only by a VALIDATE, and that VALIDATE succeeded. -/
def Obligations.OnlyValidateClassifies : Prop :=
  ∀ s t : State, step s = .next t → t.cls ≠ .none → t.cls ≠ s.cls →
    t.succeeded ∧ ∃ rest, s.host = .wr 32 0 0x00000007 :: rest

/-- R33: VERSION changes only by a KDV that succeeded, or by reset. -/
def Obligations.OnlyKdvWritesVersion : Prop :=
  ∀ s t : State, step s = .next t → t.version ≠ s.version ∨ t.vvalid ≠ s.vvalid →
    ∃ rest, s.host = .reset :: rest ∨ (s.host = .wr 32 0 0x00000005 :: rest ∧ t.succeeded)

/-- R37, "immutable once parsed (Rx) except MIC": while ORIGIN = RX, only a PARSE or reset changes an FRF word's value, and
F_MIC changes only by those or by a write to an F_MIC word. DISCARD and BORROW make words undefined; that their values stay
behind the cleared defined bits is the model's choice (log 5). -/
def Obligations.RxFrameIsImmutableButForItsMic : Prop :=
  ∀ s t : State, step s = .next t → s.origin = .rx →
    (t.frf ≠ s.frf → ∃ rest, s.host = .reset :: rest ∨ s.host = .wr 32 0 0x00000001 :: rest) ∧
    (t.mic ≠ s.mic → ∃ rest, s.host = .reset :: rest ∨ s.host = .wr 32 0 0x00000001 :: rest ∨
      ∃ off d, 0x180 ≤ off ∧ off < 0x180 + s.params.maxMic ∧ s.host = .wr 32 off d :: rest)

/-- R61: no event makes a defined FM byte undefined again except reset. -/
def Obligations.DefinedBytesStayDefined : Prop :=
  ∀ (s t : State) (a : Nat), step s = .next t → (∀ rest, s.host ≠ .reset :: rest) →
    (Memory.read s.fm a).isSome = true → (Memory.read t.fm a).isSome = true

/-! ## Invariants -/

/-- The reset state has the invariant, and its CLASS is current (there is none). -/
def Obligations.InvariantHoldsAtReset : Prop := State.reset.Inv ∧ State.reset.ClassCurrent

/-- The invariant of the machine's state is kept by every step that goes on. -/
def Obligations.EveryStepKeepsTheInvariant : Prop :=
  ∀ s t : State, s.Inv → step s = .next t → t.Inv

/-- R228, R34: every step that goes on keeps CLASS current: a non-NONE CLASS always describes the current FRF and inputs. -/
def Obligations.EveryStepKeepsClassCurrent : Prop :=
  ∀ s t : State, s.params.Legal → s.ClassCurrent → step s = .next t → t.ClassCurrent

/-- R27: no step of the machine depends on the value behind a clear defined bit. Two states that differ only in such values
answer every step alike, and differ only in such values after it. That those values exist at all, and are 0 at reset, is the
model's choice (log 5); this says that nothing rests on it. -/
def Obligations.NoStepDependsOnAnUndefinedValue : Prop :=
  ∀ s t : State, s.Inv → s.agree t → outcomesAgree (step s) (step t)

/-! ## UNDEF_READ of SER and SERZ (R194) -/

/-- R194: after SER's and SERZ's fault checks an undefined byte of the key-data view ends the run in UNDEF_READ (log 7). -/
def Obligations.SerializeOfAnUndefinedViewByteEndsTheRun : Prop :=
  ∀ (i : Instr) (s : State) (a n : Nat), i = .ser ∨ i = .serz → s.ready i → n = 83 + s.micLen + s.kdLen →
    n ≤ s.txCap → s.txBase + n ≤ s.params.fmBytes → s.kdAddr + s.kdLen ≤ s.params.fmBytes → s.viewApart s.txBase n →
    s.kdAddr ≤ a → a < s.kdAddr + s.kdLen → Memory.read s.fm a = none →
    exec i s = .fault .undefRead
end

