-- ==== Sys2Proof/Laws/Bytes.lean ====
section
/-! SUPPORT. The laws of byte sequences: big-endian values and their bytes (R11), slices (R80), and the
packing of bytes into words (R38, R62). -/

namespace Sys2Proof.Machine

/-! ### Bytes of a list -/

@[simp] theorem byteAt_nil (i : Nat) : byteAt [] i = 0 := rfl

@[simp] theorem byteAt_cons_zero (b : Byte) (bs : List Byte) : byteAt (b :: bs) 0 = b := rfl

@[simp] theorem byteAt_cons_succ (b : Byte) (bs : List Byte) (i : Nat) : byteAt (b :: bs) (i + 1) = byteAt bs i := by
  simp [byteAt]

theorem byteAt_of_le {b : List Byte} {i : Nat} (h : b.length ≤ i) : byteAt b i = 0 := by
  simp [byteAt, h]

theorem byteAt_append (a b : List Byte) (i : Nat) :
    byteAt (a ++ b) i = if i < a.length then byteAt a i else byteAt b (i - a.length) := by
  unfold byteAt
  split
  · rename_i h
    simp [List.getD_eq_getElem?_getD, List.getElem?_append_left h]
  · rename_i h
    simp [List.getD_eq_getElem?_getD, List.getElem?_append_right (Nat.le_of_not_lt h)]

theorem byteAt_replicate_zero (n i : Nat) : byteAt (List.replicate n 0) i = 0 := by
  simp only [byteAt, List.getD_eq_getElem?_getD, List.getElem?_replicate]
  split <;> rfl

theorem byteAt_take (b : List Byte) (n i : Nat) : byteAt (b.take n) i = if i < n then byteAt b i else 0 := by
  simp only [byteAt, List.getD_eq_getElem?_getD, List.getElem?_take]
  split <;> rfl

theorem byteAt_drop (b : List Byte) (n i : Nat) : byteAt (b.drop n) i = byteAt b (n + i) := by
  simp [byteAt, List.getD_eq_getElem?_getD, List.getElem?_drop]

/-- Two byte lists of one length are equal when their bytes are. -/
theorem list_eq_of_byteAt {a b : List Byte} (hl : a.length = b.length)
    (h : ∀ i, i < a.length → byteAt a i = byteAt b i) : a = b := by
  refine List.ext_getElem hl (fun i h1 h2 => ?_)
  have := h i h1
  simpa [byteAt, List.getD_eq_getElem?_getD, h1, h2] using this

/-! ### Slices -/

theorem length_slice (b : List Byte) (start len : Nat) : (slice b start len).length = min len (b.length - start) := by
  simp [slice]

theorem byteAt_slice (b : List Byte) (start len i : Nat) :
    byteAt (slice b start len) i = if i < len then byteAt b (start + i) else 0 := by
  rw [slice, byteAt_take]
  split
  · rw [byteAt_drop]
  · rfl

/-! ### Big-endian values -/

@[simp] theorem length_beBytes (n v : Nat) : (beBytes n v).length = n := by
  induction n with
  | zero => rfl
  | succ n ih => simp [beBytes, ih]

theorem be_lt (bs : List Byte) : be bs < 256 ^ bs.length := by
  induction bs with
  | nil => simp [be]
  | cons b bs ih =>
    have hb : b.toNat < 256 := b.isLt
    simp only [be, List.length_cons, Nat.pow_succ]
    have hp : 0 < 256 ^ bs.length := Nat.pow_pos (by decide)
    calc b.toNat * 256 ^ bs.length + be bs < b.toNat * 256 ^ bs.length + 256 ^ bs.length := by omega
      _ = (b.toNat + 1) * 256 ^ bs.length := by ring
      _ ≤ 256 * 256 ^ bs.length := Nat.mul_le_mul_right _ hb
      _ = 256 ^ bs.length * 256 := Nat.mul_comm _ _

/-- be_bytes_N(v) has the value v mod 256^N (R11). -/
theorem be_beBytes (n v : Nat) : be (beBytes n v) = v % 256 ^ n := by
  induction n with
  | zero => simp [beBytes, be, Nat.mod_one]
  | succ n ih =>
    simp only [beBytes, be, length_beBytes, ih, BitVec.toNat_ofNat]
    rw [show (2 : Nat) ^ 8 = 256 by decide, Nat.pow_succ, Nat.mod_mul, Nat.add_comm, Nat.mul_comm]

/-- The bytes of a byte list's value are the list (R11). -/
theorem beBytes_be (bs : List Byte) : beBytes bs.length (be bs) = bs := by
  induction bs with
  | nil => rfl
  | cons b bs ih =>
    have hlt := be_lt bs
    have hpos : 0 < 256 ^ bs.length := Nat.pow_pos (by decide)
    simp only [List.length_cons, beBytes, be]
    have h1 : (b.toNat * 256 ^ bs.length + be bs) / 256 ^ bs.length = b.toNat := by
      rw [Nat.add_comm, Nat.add_mul_div_right _ _ hpos, Nat.div_eq_of_lt hlt, Nat.zero_add]
    have hmod : ∀ n k v : Nat, beBytes n (k * 256 ^ n + v) = beBytes n v := by
      intro n
      induction n with
      | zero => intros; rfl
      | succ n ihn =>
        intro k v
        simp only [beBytes, List.cons.injEq]
        have hp : 0 < 256 ^ n := Nat.pow_pos (by decide)
        have e : k * 256 ^ (n + 1) + v = k * 256 * 256 ^ n + v := by rw [Nat.pow_succ]; ring
        constructor
        · rw [e, Nat.add_comm, Nat.add_mul_div_right _ _ hp]
          apply BitVec.eq_of_toNat_eq
          simp [BitVec.toNat_ofNat, Nat.add_mod]
        · rw [e]
          exact ihn (k * 256) v
    rw [h1, hmod, ih]
    simp

/-! ### Words and bytes -/

@[simp] theorem length_bytesOfWord (w : Word) : (bytesOfWord w).length = 4 := rfl

@[simp] theorem bytesOfWords_nil : bytesOfWords [] = [] := rfl

@[simp] theorem bytesOfWords_cons (w : Word) (ws : List Word) :
    bytesOfWords (w :: ws) = bytesOfWord w ++ bytesOfWords ws := by simp [bytesOfWords]

theorem length_bytesOfWords (ws : List Word) : (bytesOfWords ws).length = 4 * ws.length := by
  induction ws with
  | nil => rfl
  | cons w ws ih => simp [ih]; omega

/-- Bytes packed into a word and unpacked again are the bytes (R62). -/
theorem bytesOfWord_wordOfBytes (b0 b1 b2 b3 : Byte) : bytesOfWord (wordOfBytes b0 b1 b2 b3) = [b0, b1, b2, b3] := by
  simp only [bytesOfWord, wordOfBytes, List.cons.injEq, and_true]
  refine ⟨?_, ?_, ?_, ?_⟩ <;>
  · apply BitVec.eq_of_getLsbD_eq
    intro i hi
    simp only [BitVec.getLsbD_extractLsb', BitVec.getLsbD_append]
    simp only [hi, decide_true, Bool.true_and]
    repeat' split
    all_goals first | (exfalso; omega) | (congr 1; omega)

/-- A word unpacked into its bytes and packed again is the word (R62). -/
theorem wordOfBytes_bytesOfWord (w : Word) :
    wordOfBytes (byteAt (bytesOfWord w) 0) (byteAt (bytesOfWord w) 1) (byteAt (bytesOfWord w) 2) (byteAt (bytesOfWord w) 3) = w := by
  apply BitVec.eq_of_getLsbD_eq
  intro i hi
  simp only [bytesOfWord, byteAt, wordOfBytes, List.getD_cons_zero, List.getD_cons_succ,
    BitVec.getLsbD_append, BitVec.getLsbD_extractLsb']
  repeat' split
  all_goals
    rw [show ∀ (p : Bool) (x : Bool), p = true → (p && x) = x by decide]
    · congr 1; omega
    · simp; omega

/-- The bytes of packed words, one by one (R38). -/
theorem byteAt_bytesOfWords_packWord (bs : List Byte) (n i : Nat) :
    byteAt (bytesOfWords ((List.range n).map (packWord bs))) i = if i < 4 * n then byteAt bs i else 0 := by
  induction n with
  | zero => simp
  | succ n ih =>
    have hl : (bytesOfWords ((List.range n).map (packWord bs))).length = 4 * n := by
      simp [length_bytesOfWords]
    rw [List.range_succ, List.map_append, bytesOfWords, List.flatMap_append]
    change byteAt (bytesOfWords _ ++ _) i = _
    rw [byteAt_append, hl, ih]
    split
    · rw [if_pos (by omega)]
    · rename_i h
      simp only [List.map_cons, List.map_nil, List.flatMap_cons, List.flatMap_nil, List.append_nil, packWord,
        bytesOfWord_wordOfBytes]
      by_cases h2 : i < 4 * (n + 1)
      · rw [if_pos h2]
        obtain h3 | h3 | h3 | h3 : i = 4 * n ∨ i = 4 * n + 1 ∨ i = 4 * n + 2 ∨ i = 4 * n + 3 := by omega
        all_goals subst h3; simp [byteAt]
      · rw [if_neg h2, byteAt_of_le]
        simp only [List.length_cons, List.length_nil]
        omega

/-- The halves of a 64-bit register pair put together again are the counter (R32, R40). -/
theorem append_extract_halves (v : Dword) : v.extractLsb' 32 32 ++ v.extractLsb' 0 32 = v := by
  apply BitVec.eq_of_getLsbD_eq
  intro i hi
  simp only [BitVec.getLsbD_append, BitVec.getLsbD_extractLsb']
  split
  · rename_i h
    simp [h]
  · rename_i h
    have : i - 32 < 32 := by omega
    simp [this]
    congr 1
    omega

end Sys2Proof.Machine
end

