-- ==== Sys2Proof/Laws/Memory.lean ====
section
/-! SUPPORT. The laws of the frame memory: read after write, and the canonical form kept by every
operation. -/

namespace Sys2Proof.Machine

@[simp] theorem Memory.read_nil (a : Nat) : Memory.read [] a = none := rfl

/-- A byte just written reads back (R61, R71). -/
@[simp] theorem Memory.read_write_same (m : Memory) (a : Nat) (v : Byte) :
    Memory.read (Memory.write m a v) a = some v := by
  induction m with
  | nil => simp [Memory.write, Memory.read]
  | cons c m ih =>
    obtain ⟨k, b⟩ := c
    simp only [Memory.write]
    split
    · simp [Memory.read]
    · split
      · simp [Memory.read]
      · rename_i _ h
        simp [Memory.read, Ne.symm h, ih]

/-- A write leaves every other byte as it was. -/
theorem Memory.read_write_of_ne (m : Memory) {a x : Nat} (v : Byte) (h : x ≠ a) :
    Memory.read (Memory.write m a v) x = Memory.read m x := by
  induction m with
  | nil => simp [Memory.write, Memory.read, Ne.symm h]
  | cons c m ih =>
    obtain ⟨k, b⟩ := c
    simp only [Memory.write]
    split
    · simp [Memory.read, Ne.symm h]
    · split
      · rename_i _ hk
        subst hk
        simp [Memory.read, Ne.symm h]
      · simp [Memory.read, ih]

theorem Memory.read_write (m : Memory) (a x : Nat) (v : Byte) :
    Memory.read (Memory.write m a v) x = if x = a then some v else Memory.read m x := by
  split
  · rename_i h
    simp [h]
  · exact Memory.read_write_of_ne m v ‹_›

/-- What every byte reads as after a list of bytes was written. -/
theorem Memory.read_writeBytes (m : Memory) (a : Nat) (bs : List Byte) (x : Nat) :
    Memory.read (Memory.writeBytes m a bs) x =
      if a ≤ x ∧ x < a + bs.length then some (byteAt bs (x - a)) else Memory.read m x := by
  induction bs generalizing m a with
  | nil => simp [Memory.writeBytes]
  | cons b bs ih =>
    simp only [Memory.writeBytes, ih, List.length_cons]
    by_cases h1 : x = a
    · subst h1
      simp [byteAt]
    · by_cases h2 : a + 1 ≤ x ∧ x < a + 1 + bs.length
      · have h3 : a ≤ x ∧ x < a + (bs.length + 1) := by omega
        have h4 : x - a = (x - (a + 1)) + 1 := by omega
        simp only [h2, h3, and_self, if_true, h4, byteAt, List.getD_cons_succ]
      · have h3 : ¬(a ≤ x ∧ x < a + (bs.length + 1)) := by omega
        simp only [h2, h3, if_false]
        exact Memory.read_write_of_ne m b h1

/-- A write of a list leaves every byte outside its range as it was. -/
theorem Memory.read_writeBytes_outside (m : Memory) {a x : Nat} (bs : List Byte) (h : outside x a bs.length) :
    Memory.read (Memory.writeBytes m a bs) x = Memory.read m x := by
  rw [Memory.read_writeBytes, if_neg]
  unfold outside at h
  omega

/-- Reading a range answers exactly when every byte of it is defined. -/
theorem Memory.readBytes_isSome_iff (m : Memory) (a n : Nat) :
    (Memory.readBytes m a n).isSome = true ↔ ∀ i, i < n → (Memory.read m (a + i)).isSome = true := by
  induction n generalizing a with
  | zero => simp [Memory.readBytes]
  | succ n ih =>
    simp only [Memory.readBytes]
    constructor
    · intro h i hi
      cases hb : Memory.read m a with
      | none => simp [hb] at h
      | some b =>
        cases hbs : Memory.readBytes m (a + 1) n with
        | none => simp [hb, hbs] at h
        | some bs =>
          cases i with
          | zero => simp [hb]
          | succ i =>
            have := (ih (a + 1)).mp (by simp [hbs]) i (by omega)
            rwa [show a + (i + 1) = a + 1 + i by omega]
    · intro h
      have h0 := h 0 (by omega)
      have ht := (ih (a + 1)).mpr (fun i hi => by
        have := h (i + 1) (by omega)
        rwa [show a + (i + 1) = a + 1 + i by omega] at this)
      cases hb : Memory.read m a with
      | none => simp [hb] at h0
      | some b =>
        cases hbs : Memory.readBytes m (a + 1) n with
        | none => simp [hbs] at ht
        | some bs => simp

/-- What a range read returns, byte by byte (R13). -/
theorem Memory.readBytes_eq_some_iff (m : Memory) (a n : Nat) (bs : List Byte) :
    Memory.readBytes m a n = some bs ↔
      bs.length = n ∧ ∀ i, i < n → Memory.read m (a + i) = some (byteAt bs i) := by
  induction n generalizing a bs with
  | zero =>
    simp only [Memory.readBytes, Option.some.injEq, Nat.not_lt_zero, false_implies, implies_true, and_true]
    exact ⟨fun h => by simp [← h], fun h => (List.length_eq_zero_iff.mp h).symm⟩
  | succ n ih =>
    constructor
    · intro h
      simp only [Memory.readBytes] at h
      cases hb : Memory.read m a with
      | none => simp [hb] at h
      | some b =>
        cases hbs : Memory.readBytes m (a + 1) n with
        | none => simp [hb, hbs] at h
        | some bs' =>
          simp only [hb, hbs, Option.some.injEq] at h
          subst h
          obtain ⟨hl, hr⟩ := (ih (a + 1) bs').mp hbs
          refine ⟨by simp [hl], fun i hi => ?_⟩
          cases i with
          | zero => simp [hb, byteAt]
          | succ i =>
            have := hr i (by omega)
            rw [show a + (i + 1) = a + 1 + i by omega, this]
            simp [byteAt]
    · rintro ⟨hl, hr⟩
      cases bs with
      | nil => simp at hl
      | cons b bs =>
        have h0 := hr 0 (by omega)
        have ht := (ih (a + 1) bs).mpr ⟨by simpa using hl, fun i hi => by
          have := hr (i + 1) (by omega)
          rw [show a + (i + 1) = a + 1 + i by omega] at this
          rw [this]
          simp [byteAt]⟩
        simp only [Nat.add_zero] at h0
        simp [Memory.readBytes, h0, ht, byteAt]

theorem Memory.length_of_readBytes {m : Memory} {a n : Nat} {bs : List Byte}
    (h : Memory.readBytes m a n = some bs) : bs.length = n :=
  ((Memory.readBytes_eq_some_iff m a n bs).mp h).1

/-- Reading back the range a list was written to gives the list. -/
theorem Memory.readBytes_writeBytes_same (m : Memory) (a : Nat) (bs : List Byte) :
    Memory.readBytes (Memory.writeBytes m a bs) a bs.length = some bs := by
  refine (Memory.readBytes_eq_some_iff _ _ _ _).mpr ⟨rfl, fun i hi => ?_⟩
  rw [Memory.read_writeBytes, if_pos (by omega)]
  congr 2
  omega

/-- Every address a write leaves listed was listed, or is the one written. -/
theorem Memory.mem_write {m : Memory} {a : Nat} {v : Byte} {c : Host.Cell} (h : c ∈ Memory.write m a v) :
    c.1 = a ∨ c ∈ m := by
  induction m with
  | nil =>
    simp only [Memory.write, List.mem_singleton] at h
    exact .inl (by rw [h])
  | cons d m ih =>
    obtain ⟨k, b⟩ := d
    simp only [Memory.write] at h
    split at h
    · rcases List.mem_cons.mp h with h | h
      · exact .inl (by rw [h])
      · exact .inr h
    · split at h
      · rcases List.mem_cons.mp h with h | h
        · exact .inl (by rw [h])
        · exact .inr (List.mem_cons_of_mem _ h)
      · rcases List.mem_cons.mp h with h | h
        · exact .inr (by simp [h])
        · rcases ih h with h | h
          · exact .inl h
          · exact .inr (List.mem_cons_of_mem _ h)

/-- A byte write keeps the canonical form. -/
theorem Memory.wf_write {m : Memory} (h : Memory.wf m) (a : Nat) (v : Byte) : Memory.wf (Memory.write m a v) := by
  induction m with
  | nil => simp [Memory.write, Memory.wf]
  | cons c m ih =>
    obtain ⟨k, b⟩ := c
    obtain ⟨hk, hm⟩ := List.pairwise_cons.mp h
    simp only [Memory.write]
    split
    · rename_i hlt
      refine List.pairwise_cons.mpr ⟨fun x hx => ?_, h⟩
      rcases List.mem_cons.mp hx with hx | hx
      · simpa [hx] using hlt
      · have := hk x hx
        simp only at this ⊢
        omega
    · split
      · rename_i _ heq
        subst heq
        exact List.pairwise_cons.mpr ⟨hk, hm⟩
      · refine List.pairwise_cons.mpr ⟨fun x hx => ?_, ih hm⟩
        rcases Memory.mem_write hx with hx | hx
        · simp only
          omega
        · exact hk x hx

/-- A write of a list keeps the canonical form. -/
theorem Memory.wf_writeBytes {m : Memory} (h : Memory.wf m) (a : Nat) (bs : List Byte) :
    Memory.wf (Memory.writeBytes m a bs) := by
  induction bs generalizing m a with
  | nil => exact h
  | cons b bs ih => exact ih (Memory.wf_write h a b) (a + 1)

/-- A write of a list inside a bound keeps every listed address inside it. -/
theorem Memory.bounded_writeBytes {m : Memory} {n a : Nat} {bs : List Byte}
    (h : ∀ c ∈ m, c.1 < n) (hb : bs = [] ∨ a + bs.length ≤ n) : ∀ c ∈ Memory.writeBytes m a bs, c.1 < n := by
  induction bs generalizing m a with
  | nil => exact h
  | cons b bs ih =>
    rcases hb with hb | hb
    · simp at hb
    · simp only [List.length_cons] at hb
      refine ih (fun c hc => ?_) (.inr (by omega))
      rcases Memory.mem_write hc with hc | hc
      · omega
      · exact h c hc

/-- A write of a list leaves no defined byte undefined (R61). -/
theorem Memory.isSome_read_writeBytes {m : Memory} {x : Nat} (h : (Memory.read m x).isSome = true) (a : Nat)
    (bs : List Byte) : (Memory.read (Memory.writeBytes m a bs) x).isSome = true := by
  rw [Memory.read_writeBytes]
  split
  · rfl
  · exact h

/-- Reset's memory has the canonical form. -/
theorem Memory.wf_reset : Memory.wf State.reset.fm := List.Pairwise.nil

end Sys2Proof.Machine
end

