-- ==== Sys2Proof/Laws/State.lean ====
section
/-! SUPPORT. What each update of State leaves in each field: one lemma per field per update, true by rfl.
No later proof unfolds a record update. -/

namespace Sys2Proof.Machine

/-! ### State.finishOk -/

@[simp] theorem State.finishOk_params (s : State) (l : BitVec 4) : (s.finishOk l).params = s.params := rfl
@[simp] theorem State.finishOk_status (s : State) (l : BitVec 4) : (s.finishOk l).status = statusOk l := rfl
@[simp] theorem State.finishOk_fault (s : State) (l : BitVec 4) : (s.finishOk l).fault = s.fault := rfl
@[simp] theorem State.finishOk_cfg (s : State) (l : BitVec 4) : (s.finishOk l).cfg = s.cfg := rfl
@[simp] theorem State.finishOk_cfgWdef (s : State) (l : BitVec 4) : (s.finishOk l).cfgWdef = s.cfgWdef := rfl
@[simp] theorem State.finishOk_version (s : State) (l : BitVec 4) : (s.finishOk l).version = s.version := rfl
@[simp] theorem State.finishOk_vvalid (s : State) (l : BitVec 4) : (s.finishOk l).vvalid = s.vvalid := rfl
@[simp] theorem State.finishOk_cls (s : State) (l : BitVec 4) : (s.finishOk l).cls = s.cls := rfl
@[simp] theorem State.finishOk_frf (s : State) (l : BitVec 4) : (s.finishOk l).frf = s.frf := rfl
@[simp] theorem State.finishOk_mic (s : State) (l : BitVec 4) : (s.finishOk l).mic = s.mic := rfl
@[simp] theorem State.finishOk_frfWdef0 (s : State) (l : BitVec 4) : (s.finishOk l).frfWdef0 = s.frfWdef0 := rfl
@[simp] theorem State.finishOk_frfWdef1 (s : State) (l : BitVec 4) : (s.finishOk l).frfWdef1 = s.frfWdef1 := rfl
@[simp] theorem State.finishOk_origin (s : State) (l : BitVec 4) : (s.finishOk l).origin = s.origin := rfl
@[simp] theorem State.finishOk_fm (s : State) (l : BitVec 4) : (s.finishOk l).fm = s.fm := rfl
@[simp] theorem State.finishOk_host (s : State) (l : BitVec 4) : (s.finishOk l).host = s.host := rfl
@[simp] theorem State.finishOk_readData (s : State) (l : BitVec 4) : (s.finishOk l).readData = s.readData := rfl
@[simp] theorem State.finishOk_draws (s : State) (l : BitVec 4) : (s.finishOk l).draws = s.draws := rfl

/-! ### State.raiseError -/

@[simp] theorem State.raiseError_params (s : State) (l : BitVec 4) (e : ErrorCode) (d : Byte) : (s.raiseError l e d).params = s.params := rfl
@[simp] theorem State.raiseError_status (s : State) (l : BitVec 4) (e : ErrorCode) (d : Byte) : (s.raiseError l e d).status = statusBad l (.error e) d := rfl
@[simp] theorem State.raiseError_fault (s : State) (l : BitVec 4) (e : ErrorCode) (d : Byte) : (s.raiseError l e d).fault = s.fault := rfl
@[simp] theorem State.raiseError_cfg (s : State) (l : BitVec 4) (e : ErrorCode) (d : Byte) : (s.raiseError l e d).cfg = s.cfg := rfl
@[simp] theorem State.raiseError_cfgWdef (s : State) (l : BitVec 4) (e : ErrorCode) (d : Byte) : (s.raiseError l e d).cfgWdef = s.cfgWdef := rfl
@[simp] theorem State.raiseError_version (s : State) (l : BitVec 4) (e : ErrorCode) (d : Byte) : (s.raiseError l e d).version = s.version := rfl
@[simp] theorem State.raiseError_vvalid (s : State) (l : BitVec 4) (e : ErrorCode) (d : Byte) : (s.raiseError l e d).vvalid = s.vvalid := rfl
@[simp] theorem State.raiseError_cls (s : State) (l : BitVec 4) (e : ErrorCode) (d : Byte) : (s.raiseError l e d).cls = s.cls := rfl
@[simp] theorem State.raiseError_frf (s : State) (l : BitVec 4) (e : ErrorCode) (d : Byte) : (s.raiseError l e d).frf = s.frf := rfl
@[simp] theorem State.raiseError_mic (s : State) (l : BitVec 4) (e : ErrorCode) (d : Byte) : (s.raiseError l e d).mic = s.mic := rfl
@[simp] theorem State.raiseError_frfWdef0 (s : State) (l : BitVec 4) (e : ErrorCode) (d : Byte) : (s.raiseError l e d).frfWdef0 = s.frfWdef0 := rfl
@[simp] theorem State.raiseError_frfWdef1 (s : State) (l : BitVec 4) (e : ErrorCode) (d : Byte) : (s.raiseError l e d).frfWdef1 = s.frfWdef1 := rfl
@[simp] theorem State.raiseError_origin (s : State) (l : BitVec 4) (e : ErrorCode) (d : Byte) : (s.raiseError l e d).origin = s.origin := rfl
@[simp] theorem State.raiseError_fm (s : State) (l : BitVec 4) (e : ErrorCode) (d : Byte) : (s.raiseError l e d).fm = s.fm := rfl
@[simp] theorem State.raiseError_host (s : State) (l : BitVec 4) (e : ErrorCode) (d : Byte) : (s.raiseError l e d).host = s.host := rfl
@[simp] theorem State.raiseError_readData (s : State) (l : BitVec 4) (e : ErrorCode) (d : Byte) : (s.raiseError l e d).readData = s.readData := rfl
@[simp] theorem State.raiseError_draws (s : State) (l : BitVec 4) (e : ErrorCode) (d : Byte) : (s.raiseError l e d).draws = s.draws := rfl

/-! ### State.raiseFault -/

@[simp] theorem State.raiseFault_params (s : State) (l : BitVec 4) (f : FaultCode) (d : Byte) : (s.raiseFault l f d).params = s.params := rfl
@[simp] theorem State.raiseFault_status (s : State) (l : BitVec 4) (f : FaultCode) (d : Byte) : (s.raiseFault l f d).status = statusBad l (.fault f) d := rfl
@[simp] theorem State.raiseFault_fault (s : State) (l : BitVec 4) (f : FaultCode) (d : Byte) : (s.raiseFault l f d).fault = setBit s.fault (faultBit f) := rfl
@[simp] theorem State.raiseFault_cfg (s : State) (l : BitVec 4) (f : FaultCode) (d : Byte) : (s.raiseFault l f d).cfg = s.cfg := rfl
@[simp] theorem State.raiseFault_cfgWdef (s : State) (l : BitVec 4) (f : FaultCode) (d : Byte) : (s.raiseFault l f d).cfgWdef = s.cfgWdef := rfl
@[simp] theorem State.raiseFault_version (s : State) (l : BitVec 4) (f : FaultCode) (d : Byte) : (s.raiseFault l f d).version = s.version := rfl
@[simp] theorem State.raiseFault_vvalid (s : State) (l : BitVec 4) (f : FaultCode) (d : Byte) : (s.raiseFault l f d).vvalid = s.vvalid := rfl
@[simp] theorem State.raiseFault_cls (s : State) (l : BitVec 4) (f : FaultCode) (d : Byte) : (s.raiseFault l f d).cls = s.cls := rfl
@[simp] theorem State.raiseFault_frf (s : State) (l : BitVec 4) (f : FaultCode) (d : Byte) : (s.raiseFault l f d).frf = s.frf := rfl
@[simp] theorem State.raiseFault_mic (s : State) (l : BitVec 4) (f : FaultCode) (d : Byte) : (s.raiseFault l f d).mic = s.mic := rfl
@[simp] theorem State.raiseFault_frfWdef0 (s : State) (l : BitVec 4) (f : FaultCode) (d : Byte) : (s.raiseFault l f d).frfWdef0 = s.frfWdef0 := rfl
@[simp] theorem State.raiseFault_frfWdef1 (s : State) (l : BitVec 4) (f : FaultCode) (d : Byte) : (s.raiseFault l f d).frfWdef1 = s.frfWdef1 := rfl
@[simp] theorem State.raiseFault_origin (s : State) (l : BitVec 4) (f : FaultCode) (d : Byte) : (s.raiseFault l f d).origin = s.origin := rfl
@[simp] theorem State.raiseFault_fm (s : State) (l : BitVec 4) (f : FaultCode) (d : Byte) : (s.raiseFault l f d).fm = s.fm := rfl
@[simp] theorem State.raiseFault_host (s : State) (l : BitVec 4) (f : FaultCode) (d : Byte) : (s.raiseFault l f d).host = s.host := rfl
@[simp] theorem State.raiseFault_readData (s : State) (l : BitVec 4) (f : FaultCode) (d : Byte) : (s.raiseFault l f d).readData = s.readData := rfl
@[simp] theorem State.raiseFault_draws (s : State) (l : BitVec 4) (f : FaultCode) (d : Byte) : (s.raiseFault l f d).draws = s.draws := rfl

/-! ### State.invalidateFrf -/

@[simp] theorem State.invalidateFrf_params (s : State) : s.invalidateFrf.params = s.params := rfl
@[simp] theorem State.invalidateFrf_status (s : State) : s.invalidateFrf.status = s.status := rfl
@[simp] theorem State.invalidateFrf_fault (s : State) : s.invalidateFrf.fault = s.fault := rfl
@[simp] theorem State.invalidateFrf_cfg (s : State) : s.invalidateFrf.cfg = s.cfg := rfl
@[simp] theorem State.invalidateFrf_cfgWdef (s : State) : s.invalidateFrf.cfgWdef = s.cfgWdef := rfl
@[simp] theorem State.invalidateFrf_version (s : State) : s.invalidateFrf.version = s.version := rfl
@[simp] theorem State.invalidateFrf_vvalid (s : State) : s.invalidateFrf.vvalid = s.vvalid := rfl
@[simp] theorem State.invalidateFrf_cls (s : State) : s.invalidateFrf.cls = .none := rfl
@[simp] theorem State.invalidateFrf_frf (s : State) : s.invalidateFrf.frf = s.frf := rfl
@[simp] theorem State.invalidateFrf_mic (s : State) : s.invalidateFrf.mic = s.mic := rfl
@[simp] theorem State.invalidateFrf_frfWdef0 (s : State) : s.invalidateFrf.frfWdef0 = 0 := rfl
@[simp] theorem State.invalidateFrf_frfWdef1 (s : State) : s.invalidateFrf.frfWdef1 = 0 := rfl
@[simp] theorem State.invalidateFrf_origin (s : State) : s.invalidateFrf.origin = .none := rfl
@[simp] theorem State.invalidateFrf_fm (s : State) : s.invalidateFrf.fm = s.fm := rfl
@[simp] theorem State.invalidateFrf_host (s : State) : s.invalidateFrf.host = s.host := rfl
@[simp] theorem State.invalidateFrf_readData (s : State) : s.invalidateFrf.readData = s.readData := rfl
@[simp] theorem State.invalidateFrf_draws (s : State) : s.invalidateFrf.draws = s.draws := rfl

/-! ### State.loadFrame -/

@[simp] theorem State.loadFrame_params (s : State) (r : KeyFrame) (ms base : Nat) : (s.loadFrame r ms base).params = s.params := rfl
@[simp] theorem State.loadFrame_status (s : State) (r : KeyFrame) (ms base : Nat) : (s.loadFrame r ms base).status = s.status := rfl
@[simp] theorem State.loadFrame_fault (s : State) (r : KeyFrame) (ms base : Nat) : (s.loadFrame r ms base).fault = s.fault := rfl
@[simp] theorem State.loadFrame_cfg (s : State) (r : KeyFrame) (ms base : Nat) : (s.loadFrame r ms base).cfg = s.cfg := rfl
@[simp] theorem State.loadFrame_cfgWdef (s : State) (r : KeyFrame) (ms base : Nat) : (s.loadFrame r ms base).cfgWdef = s.cfgWdef := rfl
@[simp] theorem State.loadFrame_version (s : State) (r : KeyFrame) (ms base : Nat) : (s.loadFrame r ms base).version = s.version := rfl
@[simp] theorem State.loadFrame_vvalid (s : State) (r : KeyFrame) (ms base : Nat) : (s.loadFrame r ms base).vvalid = s.vvalid := rfl
@[simp] theorem State.loadFrame_cls (s : State) (r : KeyFrame) (ms base : Nat) : (s.loadFrame r ms base).cls = .none := rfl
@[simp] theorem State.loadFrame_frf (s : State) (r : KeyFrame) (ms base : Nat) : (s.loadFrame r ms base).frf = frfOfFrame r ms base := rfl
@[simp] theorem State.loadFrame_mic (s : State) (r : KeyFrame) (ms base : Nat) : (s.loadFrame r ms base).mic = micOfFrame s.mic r.keyMic ms := rfl
@[simp] theorem State.loadFrame_frfWdef0 (s : State) (r : KeyFrame) (ms base : Nat) : (s.loadFrame r ms base).frfWdef0 = 0x01FFFFFF := rfl
@[simp] theorem State.loadFrame_frfWdef1 (s : State) (r : KeyFrame) (ms base : Nat) : (s.loadFrame r ms base).frfWdef1 = BitVec.ofNat 16 (2 ^ wordsFor ms - 1) := rfl
@[simp] theorem State.loadFrame_origin (s : State) (r : KeyFrame) (ms base : Nat) : (s.loadFrame r ms base).origin = .rx := rfl
@[simp] theorem State.loadFrame_fm (s : State) (r : KeyFrame) (ms base : Nat) : (s.loadFrame r ms base).fm = s.fm := rfl
@[simp] theorem State.loadFrame_host (s : State) (r : KeyFrame) (ms base : Nat) : (s.loadFrame r ms base).host = s.host := rfl
@[simp] theorem State.loadFrame_readData (s : State) (r : KeyFrame) (ms base : Nat) : (s.loadFrame r ms base).readData = s.readData := rfl
@[simp] theorem State.loadFrame_draws (s : State) (r : KeyFrame) (ms base : Nat) : (s.loadFrame r ms base).draws = s.draws := rfl

/-! ### State.hostRead -/

@[simp] theorem State.hostRead_params (s : State) (off : Nat) : (s.hostRead off).params = s.params := rfl
@[simp] theorem State.hostRead_status (s : State) (off : Nat) : (s.hostRead off).status = s.status := rfl
@[simp] theorem State.hostRead_fault (s : State) (off : Nat) : (s.hostRead off).fault = s.fault := rfl
@[simp] theorem State.hostRead_cfg (s : State) (off : Nat) : (s.hostRead off).cfg = s.cfg := rfl
@[simp] theorem State.hostRead_cfgWdef (s : State) (off : Nat) : (s.hostRead off).cfgWdef = s.cfgWdef := rfl
@[simp] theorem State.hostRead_version (s : State) (off : Nat) : (s.hostRead off).version = s.version := rfl
@[simp] theorem State.hostRead_vvalid (s : State) (off : Nat) : (s.hostRead off).vvalid = s.vvalid := rfl
@[simp] theorem State.hostRead_cls (s : State) (off : Nat) : (s.hostRead off).cls = s.cls := rfl
@[simp] theorem State.hostRead_frf (s : State) (off : Nat) : (s.hostRead off).frf = s.frf := rfl
@[simp] theorem State.hostRead_mic (s : State) (off : Nat) : (s.hostRead off).mic = s.mic := rfl
@[simp] theorem State.hostRead_frfWdef0 (s : State) (off : Nat) : (s.hostRead off).frfWdef0 = s.frfWdef0 := rfl
@[simp] theorem State.hostRead_frfWdef1 (s : State) (off : Nat) : (s.hostRead off).frfWdef1 = s.frfWdef1 := rfl
@[simp] theorem State.hostRead_origin (s : State) (off : Nat) : (s.hostRead off).origin = s.origin := rfl
@[simp] theorem State.hostRead_fm (s : State) (off : Nat) : (s.hostRead off).fm = s.fm := rfl
@[simp] theorem State.hostRead_host (s : State) (off : Nat) : (s.hostRead off).host = s.host := rfl
@[simp] theorem State.hostRead_readData (s : State) (off : Nat) : (s.hostRead off).readData = some (s.readReg (Config.freshWord s.draws) (regAt s.params off)) := rfl
@[simp] theorem State.hostRead_draws (s : State) (off : Nat) : (s.hostRead off).draws = s.draws + 1 := rfl

/-! ### State.writeCfg -/

@[simp] theorem State.writeCfg_params (s : State) (r : CfgReg) (d : Word) : (s.writeCfg r d).params = s.params := rfl
@[simp] theorem State.writeCfg_status (s : State) (r : CfgReg) (d : Word) : (s.writeCfg r d).status = s.status := rfl
@[simp] theorem State.writeCfg_fault (s : State) (r : CfgReg) (d : Word) : (s.writeCfg r d).fault = s.fault := rfl
@[simp] theorem State.writeCfg_cfg (s : State) (r : CfgReg) (d : Word) : (s.writeCfg r d).cfg = cfgWrite s.cfg r d := rfl
@[simp] theorem State.writeCfg_cfgWdef (s : State) (r : CfgReg) (d : Word) : (s.writeCfg r d).cfgWdef = setBit s.cfgWdef (cfgIndex r) := rfl
@[simp] theorem State.writeCfg_version (s : State) (r : CfgReg) (d : Word) : (s.writeCfg r d).version = s.version := rfl
@[simp] theorem State.writeCfg_vvalid (s : State) (r : CfgReg) (d : Word) : (s.writeCfg r d).vvalid = s.vvalid := rfl
@[simp] theorem State.writeCfg_cls (s : State) (r : CfgReg) (d : Word) : (s.writeCfg r d).cls = if clearsClass r then .none else s.cls := rfl
@[simp] theorem State.writeCfg_frf (s : State) (r : CfgReg) (d : Word) : (s.writeCfg r d).frf = s.frf := rfl
@[simp] theorem State.writeCfg_mic (s : State) (r : CfgReg) (d : Word) : (s.writeCfg r d).mic = s.mic := rfl
@[simp] theorem State.writeCfg_frfWdef0 (s : State) (r : CfgReg) (d : Word) : (s.writeCfg r d).frfWdef0 = s.frfWdef0 := rfl
@[simp] theorem State.writeCfg_frfWdef1 (s : State) (r : CfgReg) (d : Word) : (s.writeCfg r d).frfWdef1 = s.frfWdef1 := rfl
@[simp] theorem State.writeCfg_origin (s : State) (r : CfgReg) (d : Word) : (s.writeCfg r d).origin = s.origin := rfl
@[simp] theorem State.writeCfg_fm (s : State) (r : CfgReg) (d : Word) : (s.writeCfg r d).fm = s.fm := rfl
@[simp] theorem State.writeCfg_host (s : State) (r : CfgReg) (d : Word) : (s.writeCfg r d).host = s.host := rfl
@[simp] theorem State.writeCfg_readData (s : State) (r : CfgReg) (d : Word) : (s.writeCfg r d).readData = s.readData := rfl
@[simp] theorem State.writeCfg_draws (s : State) (r : CfgReg) (d : Word) : (s.writeCfg r d).draws = s.draws := rfl

/-! ### State.acceptFrf -/

@[simp] theorem State.acceptFrf_params (s : State) (r : FrfReg) (d : Word) : (s.acceptFrf r d).params = s.params := rfl
@[simp] theorem State.acceptFrf_status (s : State) (r : FrfReg) (d : Word) : (s.acceptFrf r d).status = s.status := rfl
@[simp] theorem State.acceptFrf_fault (s : State) (r : FrfReg) (d : Word) : (s.acceptFrf r d).fault = s.fault := rfl
@[simp] theorem State.acceptFrf_cfg (s : State) (r : FrfReg) (d : Word) : (s.acceptFrf r d).cfg = s.cfg := rfl
@[simp] theorem State.acceptFrf_cfgWdef (s : State) (r : FrfReg) (d : Word) : (s.acceptFrf r d).cfgWdef = s.cfgWdef := rfl
@[simp] theorem State.acceptFrf_version (s : State) (r : FrfReg) (d : Word) : (s.acceptFrf r d).version = s.version := rfl
@[simp] theorem State.acceptFrf_vvalid (s : State) (r : FrfReg) (d : Word) : (s.acceptFrf r d).vvalid = s.vvalid := rfl
@[simp] theorem State.acceptFrf_cls (s : State) (r : FrfReg) (d : Word) : (s.acceptFrf r d).cls = .none := rfl
@[simp] theorem State.acceptFrf_frf (s : State) (r : FrfReg) (d : Word) : (s.acceptFrf r d).frf = frfWrite s.frf r d := rfl
@[simp] theorem State.acceptFrf_mic (s : State) (r : FrfReg) (d : Word) : (s.acceptFrf r d).mic = s.mic := rfl
@[simp] theorem State.acceptFrf_frfWdef0 (s : State) (r : FrfReg) (d : Word) : (s.acceptFrf r d).frfWdef0 = setBit s.frfWdef0 (frfIndex r) := rfl
@[simp] theorem State.acceptFrf_frfWdef1 (s : State) (r : FrfReg) (d : Word) : (s.acceptFrf r d).frfWdef1 = s.frfWdef1 := rfl
@[simp] theorem State.acceptFrf_origin (s : State) (r : FrfReg) (d : Word) : (s.acceptFrf r d).origin = originAfterWrite s.origin := rfl
@[simp] theorem State.acceptFrf_fm (s : State) (r : FrfReg) (d : Word) : (s.acceptFrf r d).fm = s.fm := rfl
@[simp] theorem State.acceptFrf_host (s : State) (r : FrfReg) (d : Word) : (s.acceptFrf r d).host = s.host := rfl
@[simp] theorem State.acceptFrf_readData (s : State) (r : FrfReg) (d : Word) : (s.acceptFrf r d).readData = s.readData := rfl
@[simp] theorem State.acceptFrf_draws (s : State) (r : FrfReg) (d : Word) : (s.acceptFrf r d).draws = s.draws := rfl

/-! ### State.writeMic -/

@[simp] theorem State.writeMic_params (s : State) (k : Fin 16) (d : Word) : (s.writeMic k d).params = s.params := rfl
@[simp] theorem State.writeMic_status (s : State) (k : Fin 16) (d : Word) : (s.writeMic k d).status = s.status := rfl
@[simp] theorem State.writeMic_fault (s : State) (k : Fin 16) (d : Word) : (s.writeMic k d).fault = s.fault := rfl
@[simp] theorem State.writeMic_cfg (s : State) (k : Fin 16) (d : Word) : (s.writeMic k d).cfg = s.cfg := rfl
@[simp] theorem State.writeMic_cfgWdef (s : State) (k : Fin 16) (d : Word) : (s.writeMic k d).cfgWdef = s.cfgWdef := rfl
@[simp] theorem State.writeMic_version (s : State) (k : Fin 16) (d : Word) : (s.writeMic k d).version = s.version := rfl
@[simp] theorem State.writeMic_vvalid (s : State) (k : Fin 16) (d : Word) : (s.writeMic k d).vvalid = s.vvalid := rfl
@[simp] theorem State.writeMic_cls (s : State) (k : Fin 16) (d : Word) : (s.writeMic k d).cls = .none := rfl
@[simp] theorem State.writeMic_frf (s : State) (k : Fin 16) (d : Word) : (s.writeMic k d).frf = s.frf := rfl
@[simp] theorem State.writeMic_mic (s : State) (k : Fin 16) (d : Word) : (s.writeMic k d).mic = s.mic.set k d := rfl
@[simp] theorem State.writeMic_frfWdef0 (s : State) (k : Fin 16) (d : Word) : (s.writeMic k d).frfWdef0 = s.frfWdef0 := rfl
@[simp] theorem State.writeMic_frfWdef1 (s : State) (k : Fin 16) (d : Word) : (s.writeMic k d).frfWdef1 = setBit s.frfWdef1 k := rfl
@[simp] theorem State.writeMic_origin (s : State) (k : Fin 16) (d : Word) : (s.writeMic k d).origin = originAfterWrite s.origin := rfl
@[simp] theorem State.writeMic_fm (s : State) (k : Fin 16) (d : Word) : (s.writeMic k d).fm = s.fm := rfl
@[simp] theorem State.writeMic_host (s : State) (k : Fin 16) (d : Word) : (s.writeMic k d).host = s.host := rfl
@[simp] theorem State.writeMic_readData (s : State) (k : Fin 16) (d : Word) : (s.writeMic k d).readData = s.readData := rfl
@[simp] theorem State.writeMic_draws (s : State) (k : Fin 16) (d : Word) : (s.writeMic k d).draws = s.draws := rfl

/-! ### State.borrow -/

@[simp] theorem State.borrow_params (s : State) : s.borrow.params = s.params := rfl
@[simp] theorem State.borrow_status (s : State) : s.borrow.status = s.status := rfl
@[simp] theorem State.borrow_fault (s : State) : s.borrow.fault = setBit s.fault borrowBit := rfl
@[simp] theorem State.borrow_cfg (s : State) : s.borrow.cfg = s.cfg := rfl
@[simp] theorem State.borrow_cfgWdef (s : State) : s.borrow.cfgWdef = s.cfgWdef := rfl
@[simp] theorem State.borrow_version (s : State) : s.borrow.version = s.version := rfl
@[simp] theorem State.borrow_vvalid (s : State) : s.borrow.vvalid = s.vvalid := rfl
@[simp] theorem State.borrow_cls (s : State) : s.borrow.cls = .none := rfl
@[simp] theorem State.borrow_frf (s : State) : s.borrow.frf = s.frf := rfl
@[simp] theorem State.borrow_mic (s : State) : s.borrow.mic = s.mic := rfl
@[simp] theorem State.borrow_frfWdef0 (s : State) : s.borrow.frfWdef0 = clearBit s.frfWdef0 (frfIndex .kdaddr) := rfl
@[simp] theorem State.borrow_frfWdef1 (s : State) : s.borrow.frfWdef1 = s.frfWdef1 := rfl
@[simp] theorem State.borrow_origin (s : State) : s.borrow.origin = s.origin := rfl
@[simp] theorem State.borrow_fm (s : State) : s.borrow.fm = s.fm := rfl
@[simp] theorem State.borrow_host (s : State) : s.borrow.host = s.host := rfl
@[simp] theorem State.borrow_readData (s : State) : s.borrow.readData = s.readData := rfl
@[simp] theorem State.borrow_draws (s : State) : s.borrow.draws = s.draws := rfl

/-! ### State.pushCommand -/

@[simp] theorem State.pushCommand_params (s : State) (w : Word) : (s.pushCommand w).params = s.params := rfl
@[simp] theorem State.pushCommand_status (s : State) (w : Word) : (s.pushCommand w).status = s.status := rfl
@[simp] theorem State.pushCommand_fault (s : State) (w : Word) : (s.pushCommand w).fault = s.fault := rfl
@[simp] theorem State.pushCommand_cfg (s : State) (w : Word) : (s.pushCommand w).cfg = s.cfg := rfl
@[simp] theorem State.pushCommand_cfgWdef (s : State) (w : Word) : (s.pushCommand w).cfgWdef = s.cfgWdef := rfl
@[simp] theorem State.pushCommand_version (s : State) (w : Word) : (s.pushCommand w).version = s.version := rfl
@[simp] theorem State.pushCommand_vvalid (s : State) (w : Word) : (s.pushCommand w).vvalid = s.vvalid := rfl
@[simp] theorem State.pushCommand_cls (s : State) (w : Word) : (s.pushCommand w).cls = s.cls := rfl
@[simp] theorem State.pushCommand_frf (s : State) (w : Word) : (s.pushCommand w).frf = s.frf := rfl
@[simp] theorem State.pushCommand_mic (s : State) (w : Word) : (s.pushCommand w).mic = s.mic := rfl
@[simp] theorem State.pushCommand_frfWdef0 (s : State) (w : Word) : (s.pushCommand w).frfWdef0 = s.frfWdef0 := rfl
@[simp] theorem State.pushCommand_frfWdef1 (s : State) (w : Word) : (s.pushCommand w).frfWdef1 = s.frfWdef1 := rfl
@[simp] theorem State.pushCommand_origin (s : State) (w : Word) : (s.pushCommand w).origin = s.origin := rfl
@[simp] theorem State.pushCommand_fm (s : State) (w : Word) : (s.pushCommand w).fm = s.fm := rfl
@[simp] theorem State.pushCommand_host (s : State) (w : Word) : (s.pushCommand w).host = .wr 32 0x000 w :: s.host := rfl
@[simp] theorem State.pushCommand_readData (s : State) (w : Word) : (s.pushCommand w).readData = s.readData := rfl
@[simp] theorem State.pushCommand_draws (s : State) (w : Word) : (s.pushCommand w).draws = s.draws := rfl

/-! ### State.resetInput -/

@[simp] theorem State.resetInput_params (s : State) : s.resetInput.params = s.params := rfl
@[simp] theorem State.resetInput_status (s : State) : s.resetInput.status = ⟨false, false, .none, 0, 0⟩ := rfl
@[simp] theorem State.resetInput_fault (s : State) : s.resetInput.fault = 0 := rfl
@[simp] theorem State.resetInput_cfg (s : State) : s.resetInput.cfg = (State.resetWith s.params).cfg := rfl
@[simp] theorem State.resetInput_cfgWdef (s : State) : s.resetInput.cfgWdef = 0 := rfl
@[simp] theorem State.resetInput_version (s : State) : s.resetInput.version = 0 := rfl
@[simp] theorem State.resetInput_vvalid (s : State) : s.resetInput.vvalid = false := rfl
@[simp] theorem State.resetInput_cls (s : State) : s.resetInput.cls = .none := rfl
@[simp] theorem State.resetInput_frf (s : State) : s.resetInput.frf = (State.resetWith s.params).frf := rfl
@[simp] theorem State.resetInput_mic (s : State) : s.resetInput.mic = (State.resetWith s.params).mic := rfl
@[simp] theorem State.resetInput_frfWdef0 (s : State) : s.resetInput.frfWdef0 = 0 := rfl
@[simp] theorem State.resetInput_frfWdef1 (s : State) : s.resetInput.frfWdef1 = 0 := rfl
@[simp] theorem State.resetInput_origin (s : State) : s.resetInput.origin = .none := rfl
@[simp] theorem State.resetInput_fm (s : State) : s.resetInput.fm = [] := rfl
@[simp] theorem State.resetInput_host (s : State) : s.resetInput.host = s.host := rfl
@[simp] theorem State.resetInput_readData (s : State) : s.resetInput.readData = s.readData := rfl
@[simp] theorem State.resetInput_draws (s : State) : s.resetInput.draws = s.draws := rfl

end Sys2Proof.Machine
end

