-- ==== Sys2Proof/Laws/Ops.lean ====
section
/-! SUPPORT. What each shared operation can do, said once: the need checks, the bits, the conclusion of a
command, and the outcome of each command. Proofs cite these and do not unfold the operations. -/

namespace Sys2Proof.Machine

/-! ### Bits -/

theorem getLsbD_setBit {n : Nat} (v : BitVec n) (i j : Nat) :
    (setBit v i).getLsbD j = (v.getLsbD j || (decide (i < n) && decide (i = j))) := by
  simp [setBit, BitVec.getLsbD_twoPow]

theorem getLsbD_clearBit {n : Nat} (v : BitVec n) (i j : Nat) :
    (clearBit v i).getLsbD j = (v.getLsbD j && !(decide (i = j))) := by
  simp only [clearBit, BitVec.getLsbD_and, BitVec.getLsbD_not, BitVec.getLsbD_twoPow]
  by_cases h : j < n
  · by_cases hij : i = j
    · subst hij; simp [h]
    · simp [h, hij]
  · simp [BitVec.getLsbD_of_ge v j (by omega)]

/-- A set bit stays set when another is set. -/
theorem getLsbD_setBit_of_true {n : Nat} {v : BitVec n} {j : Nat} (i : Nat) (h : v.getLsbD j = true) :
    (setBit v i).getLsbD j = true := by simp [getLsbD_setBit, h]

/-! ### The need checks (R27) -/

@[simp] theorem State.isDefined_cfg (s : State) (r : CfgReg) : s.isDefined (.cfg r) = s.cfgDefined r := rfl
@[simp] theorem State.isDefined_frf (s : State) (r : FrfReg) : s.isDefined (.frf r) = s.frfDefined r := rfl
@[simp] theorem State.isDefined_mic (s : State) (k : Nat) : s.isDefined (.mic k) = s.micDefined k := rfl

/-- The need checks pass exactly when every operand is defined. -/
theorem State.firstUndefined_eq_none_iff (s : State) (xs : List Operand) :
    s.firstUndefined xs = none ↔ ∀ x ∈ xs, s.isDefined x = true := by
  induction xs with
  | nil => simp [State.firstUndefined]
  | cons x xs ih =>
    simp only [State.firstUndefined, List.mem_cons, forall_eq_or_imp, ← ih]
    split
    · rename_i h; simp [h]
    · rename_i h; simp [h]

/-- The need checks report the first undefined operand. -/
theorem State.firstUndefined_append_cons (s : State) {pre post : List Operand} {x : Operand}
    (hp : ∀ y ∈ pre, s.isDefined y = true) (hx : s.isDefined x = false) :
    s.firstUndefined (pre ++ x :: post) = some (operandIndex x) := by
  induction pre with
  | nil => simp [State.firstUndefined, hx]
  | cons y pre ih =>
    simp only [List.mem_cons, forall_eq_or_imp] at hp
    simp [State.firstUndefined, hp.1, ih hp.2]

/-- A failed need check names an operand of the list that is undefined, all before it being defined. -/
theorem State.firstUndefined_eq_some (s : State) {xs : List Operand} {idx : Byte}
    (h : s.firstUndefined xs = some idx) :
    ∃ pre x post, xs = pre ++ x :: post ∧ (∀ y ∈ pre, s.isDefined y = true) ∧ s.isDefined x = false ∧
      idx = operandIndex x := by
  induction xs with
  | nil => simp [State.firstUndefined] at h
  | cons x xs ih =>
    simp only [State.firstUndefined] at h
    split at h
    · rename_i hx
      obtain ⟨pre, y, post, rfl, hp, hy, hi⟩ := ih h
      exact ⟨x :: pre, y, post, rfl, by simpa [hx] using hp, hy, hi⟩
    · rename_i hx
      exact ⟨[], x, xs, rfl, by simp, by simpa using hx, by simpa using h.symm⟩

/-- The range check of R66. -/
@[simp] theorem State.leavesFm_iff (s : State) (base len : Nat) :
    s.leavesFm base len = true ↔ s.params.fmBytes < base + len := by simp [State.leavesFm]

theorem State.leavesFm_eq_false_iff (s : State) (base len : Nat) :
    s.leavesFm base len = false ↔ base + len ≤ s.params.fmBytes := by simp [State.leavesFm]

/-- The overlap test of R114, R117 and R76. -/
@[simp] theorem State.viewMeets_iff (s : State) (a len : Nat) :
    s.viewMeets a len = true ↔ 0 < s.kdLen ∧ s.kdAddr < a + len ∧ a < s.kdAddr + s.kdLen := by
  simp [State.viewMeets, and_assoc]

theorem State.viewMeets_eq_false_iff (s : State) (a len : Nat) :
    s.viewMeets a len = false ↔ s.viewApart a len := by
  rw [← Bool.not_eq_true, State.viewMeets_iff, State.viewApart]
  omega

/-! ### The conclusion of a command (R190) -/

@[simp] theorem conclude_success (l : BitVec 4) (s s' : State) :
    conclude l s (.success s') = .next (s'.finishOk l) := rfl
@[simp] theorem conclude_error (l : BitVec 4) (s s' : State) (e : ErrorCode) (d : Byte) :
    conclude l s (.error e d s') = .next (s'.raiseError l e d) := rfl
@[simp] theorem conclude_fault (l : BitVec 4) (s : State) (f : FaultCode) (d : Byte) :
    conclude l s (.fault f d) = .next (s.raiseFault l f d) := rfl
@[simp] theorem conclude_undefRead (l : BitVec 4) (s : State) : conclude l s .undefRead = .fault .undefRead := rfl

/-- A command that answers a next state ended in SUCCESS, ERROR or FAULT. -/
theorem conclude_eq_next {l : BitVec 4} {s t : State} {o : CmdOutcome} (h : conclude l s o = .next t) :
    (∃ s', o = .success s' ∧ t = s'.finishOk l) ∨
    (∃ e d s', o = .error e d s' ∧ t = s'.raiseError l e d) ∨
    (∃ f d, o = .fault f d ∧ t = s.raiseFault l f d) := by
  cases o with
  | success s' => exact .inl ⟨s', rfl, by simpa using h.symm⟩
  | error e d s' => exact .inr (.inl ⟨e, d, s', rfl, by simpa using h.symm⟩)
  | fault f d => exact .inr (.inr ⟨f, d, rfl, by simpa using h.symm⟩)
  | undefRead => simp at h

/-- The outcome of each command, before it is recorded in STATUS. -/
def outcomeOf (s : State) : Instr → CmdOutcome
  | .parse => parseOutcome s
  | .ser => serializeOutcome s.serOperands false s
  | .serz => serializeOutcome serzOperands true s
  | .updlen => updlenOutcome s
  | .patchmic => patchmicOutcome s
  | .kdv => kdvOutcome s
  | .rccmp => rccmpOutcome s
  | .validate => validateOutcome s
  | .discard => .success s.invalidateFrf

/-- Every command computes its outcome and records it under its own OP. -/
theorem exec_eq_conclude (i : Instr) (s : State) : exec i s = conclude i.op s (outcomeOf s i) := by
  cases i <;> rfl

/-! ### What each command can do -/

/-- PARSE (R113), case by case. -/
theorem parseOutcome_cases (s : State) :
    (∃ idx, s.firstUndefined parseOperands = some idx ∧ parseOutcome s = .fault .undefField idx) ∨
    s.firstUndefined parseOperands = none ∧
      (s.params.maxMic < s.cfg.micSize.toNat ∧ parseOutcome s = .fault .micCapacity 0 ∨
      s.cfg.micSize.toNat ≤ s.params.maxMic ∧
        (s.params.fmBytes < s.rxBase + s.rxLen ∧ parseOutcome s = .fault .buffer 1 ∨
        s.rxBase + s.rxLen ≤ s.params.fmBytes ∧
          (Memory.readBytes s.fm s.rxBase s.rxLen = none ∧ parseOutcome s = .undefRead ∨
          (∃ b d, Memory.readBytes s.fm s.rxBase s.rxLen = some b ∧ decodeFrame b s.cfg.micSize.toNat = .error d ∧
            parseOutcome s = .error .format (formatDetail d) s.invalidateFrf) ∨
          (∃ b r, Memory.readBytes s.fm s.rxBase s.rxLen = some b ∧ decodeFrame b s.cfg.micSize.toNat = .ok r ∧
            parseOutcome s = .success (s.loadFrame r s.cfg.micSize.toNat s.rxBase))))) := by
  unfold parseOutcome
  cases h1 : s.firstUndefined parseOperands with
  | some idx => exact .inl ⟨idx, rfl, rfl⟩
  | none =>
    refine .inr ⟨rfl, ?_⟩
    by_cases h2 : s.params.maxMic < s.cfg.micSize.toNat
    · exact .inl ⟨h2, by simp [h2]⟩
    · refine .inr ⟨by omega, ?_⟩
      by_cases h3 : s.params.fmBytes < s.rxBase + s.rxLen
      · exact .inl ⟨h3, by simp [h2, h3]⟩
      · refine .inr ⟨by omega, ?_⟩
        cases h4 : Memory.readBytes s.fm s.rxBase s.rxLen with
        | none => exact .inl ⟨rfl, by simp [h2, h3]⟩
        | some b =>
          cases h5 : decodeFrame b s.cfg.micSize.toNat with
          | error d => exact .inr (.inl ⟨b, d, rfl, h5, by simp [h2, h3, h5]⟩)
          | ok r => exact .inr (.inr ⟨b, r, rfl, h5, by simp [h2, h3, h5]⟩)

/-- SER and SERZ (R114, R115), case by case. -/
theorem serializeOutcome_cases (needs : List Operand) (clear : Bool) (s : State) :
    (∃ idx, s.firstUndefined needs = some idx ∧ serializeOutcome needs clear s = .fault .undefField idx) ∨
    s.firstUndefined needs = none ∧
      ((s.txCap < s.imageLen ∨ s.params.fmBytes < s.txBase + s.imageLen) ∧
          serializeOutcome needs clear s = .fault .buffer 2 ∨
      s.imageLen ≤ s.txCap ∧ s.txBase + s.imageLen ≤ s.params.fmBytes ∧
        (s.params.fmBytes < s.kdAddr + s.kdLen ∧ serializeOutcome needs clear s = .fault .buffer 3 ∨
        s.kdAddr + s.kdLen ≤ s.params.fmBytes ∧
          (¬s.viewApart s.txBase s.imageLen ∧ serializeOutcome needs clear s = .fault .overlap 0 ∨
          s.viewApart s.txBase s.imageLen ∧
            (s.keyData = none ∧ serializeOutcome needs clear s = .undefRead ∨
            (∃ kd, s.keyData = some kd ∧ serializeOutcome needs clear s =
              .success { s with fm := Memory.writeBytes s.fm s.txBase (s.image clear kd) }))))) := by
  unfold serializeOutcome
  cases h1 : s.firstUndefined needs with
  | some idx => exact .inl ⟨idx, rfl, rfl⟩
  | none =>
    refine .inr ⟨rfl, ?_⟩
    by_cases h2 : s.txCap < s.imageLen ∨ s.params.fmBytes < s.txBase + s.imageLen
    · exact .inl ⟨h2, by simp [h2]⟩
    · refine .inr ⟨by omega, by omega, ?_⟩
      by_cases h3 : s.params.fmBytes < s.kdAddr + s.kdLen
      · exact .inl ⟨h3, by simp [h2, h3]⟩
      · refine .inr ⟨by omega, ?_⟩
        cases h4 : s.viewMeets s.txBase s.imageLen with
        | true =>
          refine .inl ⟨fun h => ?_, by simp [h2, h3]⟩
          rw [(State.viewMeets_eq_false_iff _ _ _).mpr h] at h4
          cases h4
        | false =>
          refine .inr ⟨(State.viewMeets_eq_false_iff _ _ _).mp h4, ?_⟩
          cases h5 : s.keyData with
          | none => exact .inl ⟨rfl, by simp [h2, h3]⟩
          | some kd => exact .inr ⟨kd, rfl, by simp [h2, h3]⟩

/-- UPDLEN (R116), case by case. -/
theorem updlenOutcome_cases (s : State) :
    (s.origin ≠ .tx ∧ updlenOutcome s = .fault .notTx 0) ∨
    s.origin = .tx ∧
      ((∃ idx, s.firstUndefined updlenOperands = some idx ∧ updlenOutcome s = .fault .undefField idx) ∨
      s.firstUndefined updlenOperands = none ∧
        ((65535 < 79 + s.micLen + s.kdLen ∧ s.params.bodyLenOverflow = .fault) ∧
            updlenOutcome s = .fault .bodylenOvf 0 ∨
        ¬(65535 < 79 + s.micLen + s.kdLen ∧ s.params.bodyLenOverflow = .fault) ∧
          updlenOutcome s = .success { s with
            frf := { s.frf with bodylen := BitVec.ofNat 16 (79 + s.micLen + s.kdLen) }
            frfWdef0 := setBit s.frfWdef0 (frfIndex .bodylen)
            cls := .none })) := by
  unfold updlenOutcome
  by_cases h0 : s.origin = .tx
  · refine .inr ⟨h0, ?_⟩
    cases h1 : s.firstUndefined updlenOperands with
    | some idx => exact .inl ⟨idx, rfl, by simp [h0]⟩
    | none =>
      refine .inr ⟨rfl, ?_⟩
      by_cases h2 : 65535 < 79 + s.micLen + s.kdLen ∧ s.params.bodyLenOverflow = .fault
      · exact .inl ⟨h2, by simp [h0, h2]⟩
      · refine .inr ⟨h2, ?_⟩
        simp only [h0, ne_eq, not_true_eq_false, if_false, Bool.and_eq_true, decide_eq_true_eq, beq_iff_eq, gt_iff_lt]
        rw [if_neg h2]
  · exact .inl ⟨h0, by simp [h0]⟩

/-- PATCHMIC (R117), case by case. -/
theorem patchmicOutcome_cases (s : State) :
    (∃ idx, s.firstUndefined s.patchmicNeeds = some idx ∧ patchmicOutcome s = .fault .undefField idx) ∨
    s.firstUndefined s.patchmicNeeds = none ∧
      ((s.txCap < 81 + s.micLen ∨ s.params.fmBytes < s.txBase + (81 + s.micLen)) ∧
          patchmicOutcome s = .fault .buffer 4 ∨
      81 + s.micLen ≤ s.txCap ∧ s.txBase + (81 + s.micLen) ≤ s.params.fmBytes ∧
        ((s.frfDefined .kdlen = true ∧ s.frfDefined .kdaddr = true ∧ ¬s.viewApart (s.txBase + 81) s.micLen) ∧
            patchmicOutcome s = .fault .overlap 1 ∨
        ¬(s.frfDefined .kdlen = true ∧ s.frfDefined .kdaddr = true ∧ ¬s.viewApart (s.txBase + 81) s.micLen) ∧
          patchmicOutcome s = .success { s with fm := Memory.writeBytes s.fm (s.txBase + 81) s.keyMic })) := by
  unfold patchmicOutcome
  cases h1 : s.firstUndefined s.patchmicNeeds with
  | some idx => exact .inl ⟨idx, rfl, rfl⟩
  | none =>
    refine .inr ⟨rfl, ?_⟩
    by_cases h2 : s.txCap < 81 + s.micLen ∨ s.params.fmBytes < s.txBase + (81 + s.micLen)
    · exact .inl ⟨h2, by simp [h2]⟩
    · refine .inr ⟨by omega, by omega, ?_⟩
      have hv : ¬s.viewApart (s.txBase + 81) s.micLen ↔ s.viewMeets (s.txBase + 81) s.micLen = true := by
        rw [← State.viewMeets_eq_false_iff]; simp
      rw [hv]
      by_cases h3 : s.frfDefined .kdlen = true ∧ s.frfDefined .kdaddr = true ∧ s.viewMeets (s.txBase + 81) s.micLen = true
      · refine .inl ⟨h3, ?_⟩
        have h4 : (s.frfDefined .kdlen && s.frfDefined .kdaddr && s.viewMeets (s.txBase + 81) s.micLen) = true := by
          simp only [h3.1, h3.2.1, h3.2.2, Bool.and_self]
        have h5 : (decide (81 + s.micLen > s.txCap) || s.leavesFm s.txBase (81 + s.micLen)) = false := by
          rw [Bool.or_eq_false_iff, decide_eq_false_iff_not, State.leavesFm_eq_false_iff]
          omega
        simp only [h4, h5, if_true, Bool.false_eq_true, if_false]
      · refine .inr ⟨h3, ?_⟩
        have h4 : (s.frfDefined .kdlen && s.frfDefined .kdaddr && s.viewMeets (s.txBase + 81) s.micLen) = false := by
          rw [← Bool.not_eq_true]
          intro h
          simp only [Bool.and_eq_true] at h
          exact h3 ⟨h.1.1, h.1.2, h.2⟩
        have h5 : (decide (81 + s.micLen > s.txCap) || s.leavesFm s.txBase (81 + s.micLen)) = false := by
          rw [Bool.or_eq_false_iff, decide_eq_false_iff_not, State.leavesFm_eq_false_iff]
          omega
        simp only [h4, h5, Bool.false_eq_true, if_false]

/-- KDV (R151), case by case. -/
theorem kdvOutcome_cases (s : State) :
    (∃ idx, s.firstUndefined kdvOperands = some idx ∧ kdvOutcome s = .fault .undefField idx) ∨
    s.firstUndefined kdvOperands = none ∧
      kdvOutcome s = .success { s with version := kdv s.params s.frf.desc s.cfg.prot, vvalid := true } := by
  unfold kdvOutcome
  cases h1 : s.firstUndefined kdvOperands with
  | some idx => exact .inl ⟨idx, rfl, rfl⟩
  | none => exact .inr ⟨rfl, rfl⟩

/-- RCCMP (R163), case by case. -/
theorem rccmpOutcome_cases (s : State) :
    (∃ idx, s.firstUndefined rccmpOperands = some idx ∧ rccmpOutcome s = .fault .undefField idx) ∨
    s.firstUndefined rccmpOperands = none ∧
      (rcOk s.replayCounter s.lastRc (opposite s.cfg.role) = true ∧ rccmpOutcome s = .success s ∨
      rcOk s.replayCounter s.lastRc (opposite s.cfg.role) = false ∧ rccmpOutcome s = .error .admReplay 8 s) := by
  unfold rccmpOutcome
  cases h1 : s.firstUndefined rccmpOperands with
  | some idx => exact .inl ⟨idx, rfl, rfl⟩
  | none =>
    cases h2 : rcOk s.replayCounter s.lastRc (opposite s.cfg.role) with
    | true => exact .inr ⟨rfl, .inl ⟨rfl, rfl⟩⟩
    | false => exact .inr ⟨rfl, .inr ⟨rfl, rfl⟩⟩

/-- VALIDATE (R164), case by case. -/
theorem validateOutcome_cases (s : State) :
    (∃ idx, s.firstUndefined validateOperands = some idx ∧ validateOutcome s = .fault .undefField idx) ∨
    s.firstUndefined validateOperands = none ∧
      ((∃ c n, admissionVerdict s.params s.admission = .error (c, n) ∧
          validateOutcome s = .error c n { s with cls := .none }) ∨
      (∃ c, admissionVerdict s.params s.admission = .ok c ∧ validateOutcome s = .success { s with cls := c })) := by
  unfold validateOutcome
  cases h1 : s.firstUndefined validateOperands with
  | some idx => exact .inl ⟨idx, rfl, rfl⟩
  | none =>
    cases h2 : admissionVerdict s.params s.admission with
    | error x => exact .inr ⟨rfl, .inl ⟨x.1, x.2, rfl, rfl⟩⟩
    | ok c => exact .inr ⟨rfl, .inr ⟨c, rfl, rfl⟩⟩

/-- The table has no row above 3 (R152). -/
theorem kdv_le_three (p : Params) (d : Byte) (prot : Word) : (kdv p d prot).toNat ≤ 3 := by
  unfold kdv
  repeat' split
  all_goals decide

end Sys2Proof.Machine
end

