-- ==== Sys2Proof/Laws/Bus.lean ====
section
/-! SUPPORT. The host's side, said once: where each offset of the register map leads (R22, R35), and what
one step of the machine can be. -/

namespace Sys2Proof.Machine

/-! ### The register map -/

theorem fixedReg_eq_cmd {off : Nat} (h : fixedReg off = .cmd) : off = 0 := by
  unfold fixedReg at h
  split at h <;> first | rfl | cases h

theorem fixedReg_ne_fm (off a : Nat) : fixedReg off ≠ .fm a := by
  unfold fixedReg
  split <;> simp

theorem fixedReg_ne_mic (off : Nat) (k : Fin 16) : fixedReg off ≠ .mic k := by
  unfold fixedReg
  split <;> simp

/-- CMD stands at offset 0 and nowhere else (R22). -/
theorem regAt_eq_cmd_iff (p : Params) (off : Nat) : regAt p off = .cmd ↔ off = 0 := by
  constructor
  · intro h
    unfold regAt at h
    split at h
    · split at h <;> cases h
    · split at h
      · split at h <;> cases h
      · exact fixedReg_eq_cmd h
  · rintro rfl
    rfl

/-- An FM window word at FM address a is at offset 0x1000+a, inside FM (R62). -/
theorem regAt_eq_fm {p : Params} {off a : Nat} (h : regAt p off = .fm a) :
    off = 0x1000 + a ∧ a < p.fmBytes := by
  unfold regAt at h
  split at h
  · split at h
    · simp only [HostReg.fm.injEq] at h
      omega
    · cases h
  · split at h
    · split at h <;> cases h
    · exact absurd h (fixedReg_ne_fm off a)

/-- F_MIC word k is at offset 0x180+4*k, and exists for 4*k < MAX_MIC (R22, R38). -/
theorem regAt_eq_mic {p : Params} {off : Nat} {k : Fin 16} (h : regAt p off = .mic k) :
    off = 0x180 + 4 * k.val ∧ 4 * k.val < p.maxMic := by
  unfold regAt at h
  split at h
  · split at h <;> cases h
  · split at h
    · split at h
      · rename_i h1 h2
        simp only [HostReg.mic.injEq] at h
        subst h
        simp only
        omega
      · cases h
    · exact absurd h (fixedReg_ne_mic off k)

/-- Every CFG register is reached at its offset (R22). -/
theorem regAt_cfgOffset (p : Params) (r : CfgReg) : regAt p (cfgOffset r) = .cfg r := by
  cases r <;> rfl

/-- Every FRF word is reached at its offset (R35). -/
theorem regAt_frfOffset (p : Params) (r : FrfReg) : regAt p (frfOffset r) = .frf r := by
  cases r with
  | nonce j => fin_cases j <;> rfl
  | iv j => fin_cases j <;> rfl
  | _ => rfl

/-- Every F_MIC word that exists is reached at its offset (R38). -/
theorem regAt_mic {p : Params} {k : Fin 16} (h : 4 * k.val < p.maxMic) : regAt p (0x180 + 4 * k.val) = .mic k := by
  unfold regAt
  have hk := k.isLt
  rw [if_neg (by omega), dif_pos (by omega), if_pos (by omega)]
  simp only [HostReg.mic.injEq]
  ext
  simp only
  omega

/-- Every FM window word is reached at its offset (R62). -/
theorem regAt_fm {p : Params} {a : Nat} (h : a < p.fmBytes) : regAt p (0x1000 + a) = .fm a := by
  unfold regAt
  rw [if_pos (by omega), if_pos (by omega)]
  simp

/-! ### One step -/

theorem accessRefusal_eq_none_iff (p : Params) (bits off : Nat) :
    accessRefusal p bits off = none ↔ bits = 32 ∧ off % 4 = 0 ∧ off < 0x1000 + p.fmBytes := by
  unfold accessRefusal
  split
  · rename_i h; simp [h]
  · split
    · rename_i h; simp [h]
    · split
      · rename_i h; simp; omega
      · rename_i h1 h2 h3
        simp only [not_not] at h1 h2
        simp [h1, h2]
        omega

/-- A step that goes on: the block is idle, or it performed the host's next event, and then these are all
the things it can have done. -/
theorem step_eq_next {s t : State} (h : step s = .next t) :
    (s.host = [] ∧ t = s) ∨
    ∃ e rest, s.host = e :: rest ∧
      ((e = .reset ∧ t = State.resetInput { s with host := rest }) ∨
      (∃ off, e = .rd 32 off ∧ off % 4 = 0 ∧ off < 0x1000 + s.params.fmBytes ∧
        t = State.hostRead { s with host := rest } off) ∨
      (∃ w i, e = .wr 32 0 w ∧ decode w = .ok i ∧ exec i { s with host := rest } = .next t) ∨
      (∃ w d, e = .wr 32 0 w ∧ decode w = .error d ∧
        t = State.raiseFault { s with host := rest } (CommandWord.op w) .illegalCmd 0) ∨
      (∃ off d, e = .wr 32 off d ∧ off % 4 = 0 ∧ off < 0x1000 + s.params.fmBytes ∧ off ≠ 0 ∧
        t = State.writeReg { s with host := rest } (regAt s.params off) d)) := by
  unfold step hostStep at h
  cases hh : s.host with
  | nil =>
    rw [hh] at h
    simp only [Host.Outcome.next.injEq] at h
    exact .inl ⟨rfl, h.symm⟩
  | cons e rest =>
    rw [hh] at h
    refine .inr ⟨e, rest, rfl, ?_⟩
    cases e with
    | reset =>
      simp only [hostEvent, Host.Outcome.next.injEq] at h
      exact .inl ⟨rfl, h.symm⟩
    | rd bits off =>
      simp only [hostEvent] at h
      split at h
      · cases h
      · rename_i ha
        obtain ⟨rfl, h4, hb⟩ := (accessRefusal_eq_none_iff _ _ _).mp ha
        simp only [Host.Outcome.next.injEq] at h
        exact .inr (.inl ⟨off, rfl, h4, hb, h.symm⟩)
    | wr bits off d =>
      simp only [hostEvent] at h
      split at h
      · cases h
      · rename_i ha
        obtain ⟨rfl, h4, hb⟩ := (accessRefusal_eq_none_iff _ _ _).mp ha
        split at h
        · rename_i hc
          have h0 := (regAt_eq_cmd_iff _ _).mp hc
          subst h0
          unfold commandWrite at h
          split at h
          · rename_i i hd
            exact .inr (.inr (.inl ⟨d, i, rfl, hd, h⟩))
          · rename_i x hd
            simp only [Host.Outcome.next.injEq] at h
            exact .inr (.inr (.inr (.inl ⟨d, x, rfl, hd, h.symm⟩)))
        · rename_i hc
          simp only [Host.Outcome.next.injEq] at h
          refine .inr (.inr (.inr (.inr ⟨off, d, rfl, h4, hb, ?_, h.symm⟩)))
          exact fun h0 => hc ((regAt_eq_cmd_iff _ _).mpr h0)

/-- What an accepted write outside CMD can do (R42): nothing, or the write of a CFG register, an FRF word, an
F_MIC word or an FM window word. -/
theorem writeReg_cases (s : State) (reg : HostReg) (d : Word) :
    s.writeReg reg d = s ∨ (∃ r, reg = .cfg r ∧ s.writeReg reg d = s.writeCfg r d) ∨
    (∃ r, reg = .frf r ∧ s.writeReg reg d = s.writeFrf r d) ∨
    (∃ k, reg = .mic k ∧ s.writeReg reg d = s.writeMic k d) ∨
    (∃ a, reg = .fm a ∧ s.writeReg reg d = s.writeWindow a d) := by
  cases reg with
  | cfg r => exact .inr (.inl ⟨r, rfl, rfl⟩)
  | frf r => exact .inr (.inr (.inl ⟨r, rfl, rfl⟩))
  | mic k => exact .inr (.inr (.inr (.inl ⟨k, rfl, rfl⟩)))
  | fm a => exact .inr (.inr (.inr (.inr ⟨a, rfl, rfl⟩)))
  | _ => exact .inl rfl

/-- What a write to an FRF word can do (R37). -/
theorem writeFrf_cases (s : State) (r : FrfReg) (d : Word) :
    (s.origin = .rx ∧ s.writeFrf r d = { s with fault := setBit s.fault rxWriteBit }) ∨
    s.origin ≠ .rx ∧
      ((r = .miclen ∧ s.params.maxMic < (d.setWidth 16).toNat ∧
          s.writeFrf r d = { s with fault := setBit s.fault micCapacityBit }) ∨
      (¬(r = .miclen ∧ s.params.maxMic < (d.setWidth 16).toNat) ∧ s.writeFrf r d = s.acceptFrf r d)) := by
  unfold State.writeFrf
  by_cases h1 : s.origin = .rx
  · exact .inl ⟨h1, if_pos h1⟩
  · refine .inr ⟨h1, ?_⟩
    rw [if_neg h1]
    by_cases h2 : r = .miclen ∧ s.params.maxMic < (d.setWidth 16).toNat
    · exact .inl ⟨h2.1, h2.2, if_pos h2⟩
    · exact .inr ⟨h2, if_neg h2⟩

/-- When a window write is a BORROW event (R76). -/
theorem State.borrowHit_iff (s : State) (a : Nat) :
    s.borrowHit a = true ↔ s.origin = .rx ∧ s.frfDefined .kdaddr = true ∧
      0 < s.kdLen ∧ s.kdAddr < a + 4 ∧ a < s.kdAddr + s.kdLen := by
  simp [State.borrowHit, and_assoc]

/-- What a window write can do (R62, R76). -/
theorem writeWindow_cases (s : State) (a : Nat) (d : Word) :
    (s.borrowHit a = false ∧ s.writeWindow a d = { s with fm := Memory.writeBytes s.fm a (bytesOfWord d) }) ∨
    (s.borrowHit a = true ∧
      s.writeWindow a d = State.borrow { s with fm := Memory.writeBytes s.fm a (bytesOfWord d) }) := by
  unfold State.writeWindow
  cases h : s.borrowHit a with
  | true => exact .inr ⟨rfl, by simp⟩
  | false => exact .inl ⟨rfl, by simp⟩

end Sys2Proof.Machine
end

