-- ==== Sys2Proof/Laws/Claims.lean ====
section
/-! SUPPORT. The bridges from the terms the statements use (Safety.lean, written out from the spec) to the
machine's own: the operand lists, what VALIDATE judges, and the register map's rows. -/

namespace Sys2Proof.Machine

/-- The operands R197 lists for SER are the ones SER checks. -/
theorem needsOf_ser (s : State) : needsOf s .ser = s.serOperands := rfl

/-- The operands R197 lists for SERZ are the ones SERZ checks. -/
theorem needsOf_serz (s : State) : needsOf s .serz = serzOperands := rfl

/-- The operands R197 lists for PATCHMIC are the ones PATCHMIC checks. -/
theorem needsOf_patchmic (s : State) : needsOf s .patchmic = s.patchmicNeeds := rfl

/-- What R164 judges is what VALIDATE presents to its checks. -/
theorem judgedFrame_eq_admission (s : State) : s.judgedFrame = s.admission := by
  unfold State.judgedFrame State.admission opposite State.lastRc State.replayCounter
  cases s.cfg.role <;> rfl

/-- A host read that is carried: it answers the register at its offset and changes nothing else (R68). -/
theorem step_of_read {s : State} {off : Nat} {rest : List HostEvent} (h : s.host = .rd 32 off :: rest)
    (h4 : off % 4 = 0) (hb : off < 0x1000 + s.params.fmBytes) :
    step s = .next (s.afterRead rest (s.readReg (Config.freshWord s.draws) (regAt s.params off))) := by
  unfold step hostStep
  rw [h]
  simp only [hostEvent, (accessRefusal_eq_none_iff s.params 32 off).mpr ⟨rfl, h4, hb⟩]
  rfl

/-- A host write outside CMD that is carried (R42). -/
theorem step_of_write {s : State} {off : Nat} {d : Word} {rest : List HostEvent} (h : s.host = .wr 32 off d :: rest)
    (h4 : off % 4 = 0) (hb : off < 0x1000 + s.params.fmBytes) (h0 : off ≠ 0) :
    step s = .next (State.writeReg { s with host := rest } (regAt s.params off) d) := by
  unfold step hostStep
  rw [h]
  simp only [hostEvent, (accessRefusal_eq_none_iff s.params 32 off).mpr ⟨rfl, h4, hb⟩]
  rw [if_neg (fun hc => h0 ((regAt_eq_cmd_iff _ _).mp hc))]

/-- The rows of R22 are the CFG registers, the FRF words and the F_MIC words that exist. -/
theorem registerRows_cases {s : State} {row : RegisterRow} (h : row ∈ s.registerRows) :
    (∃ r, row = ⟨cfgOffset r, s.cfgDefined r, cfgRead s.cfg r⟩) ∨
    (∃ r, row = ⟨frfOffset r, s.frfDefined r, frfRead s.frf r⟩) ∨
    (∃ k : Fin 16, 4 * k.val < s.params.maxMic ∧ row = ⟨0x180 + 4 * k.val, s.micDefined k, s.mic[k]⟩) := by
  unfold State.registerRows State.cfgRows State.frfRows State.micRows at h
  simp only [List.mem_append, List.mem_map, List.mem_filter, List.mem_finRange, true_and, decide_eq_true_eq,
    List.mem_cons, List.not_mem_nil, or_false] at h
  rcases h with (h | ((h | ⟨j, rfl⟩) | ⟨j, rfl⟩) | h) | ⟨k, hk, rfl⟩
  · left
    rcases h with rfl | rfl | rfl | rfl | rfl | rfl | rfl | rfl | rfl
    · exact ⟨.micSize, rfl⟩
    · exact ⟨.rxBase, rfl⟩
    · exact ⟨.rxLen, rfl⟩
    · exact ⟨.txBase, rfl⟩
    · exact ⟨.txCap, rfl⟩
    · refine ⟨.role, ?_⟩
      congr 1
      simp only [cfgRead]
      cases s.cfg.role <;> rfl
    · exact ⟨.prot, rfl⟩
    · exact ⟨.lastRcHi, rfl⟩
    · exact ⟨.lastRcLo, rfl⟩
  · right; left
    rcases h with rfl | rfl | rfl | rfl | rfl | rfl | rfl | rfl
    · exact ⟨.proto, rfl⟩
    · exact ⟨.ptype, rfl⟩
    · exact ⟨.bodylen, rfl⟩
    · exact ⟨.desc, rfl⟩
    · exact ⟨.keyinfo, rfl⟩
    · exact ⟨.keylen, rfl⟩
    · exact ⟨.rcHi, rfl⟩
    · exact ⟨.rcLo, rfl⟩
  · right; left
    refine ⟨.nonce j, ?_⟩
    simp [frfOffset, frfIndex, frfRead, State.frfDefined]
    omega
  · right; left
    refine ⟨.iv j, ?_⟩
    simp [frfOffset, frfIndex, frfRead, State.frfDefined]
    omega
  · right; left
    rcases h with rfl | rfl | rfl | rfl | rfl
    · exact ⟨.rscHi, rfl⟩
    · exact ⟨.rscLo, rfl⟩
    · exact ⟨.miclen, rfl⟩
    · exact ⟨.kdlen, rfl⟩
    · exact ⟨.kdaddr, rfl⟩
  · exact .inr (.inr ⟨k, hk, rfl⟩)

end Sys2Proof.Machine
end

