-- ==== Sys2Proof/Tests/Slice0.lean ====
section
/-! SUPPORT. The model's own tests: ill-formed terms that each check refuses, every command's word written out bit
by bit, one or two single steps a command against the vectors of 95_test_vectors.md, and for every statement with
hypotheses a concrete state that meets all of them (`witness_<statement>`). -/

namespace Sys2Proof.Tests

open Sys2Proof Sys2Proof.Machine

set_option Elab.async false

/-! ## Helpers -/

/-- The state after a step or command that went on. -/
def after (o : Host.Outcome State Fault Refusal) : State :=
  match o with
  | .next t => t
  | .fault _ => State.reset
  | .refused _ => State.reset

/-- The step or command went on. -/
def isNext (o : Host.Outcome State Fault Refusal) : Bool :=
  match o with
  | .next _ => true
  | .fault _ => false
  | .refused _ => false

theorem eq_next_after {o : Host.Outcome State Fault Refusal} (h : isNext o = true) : o = .next (after o) := by
  cases o with
  | next t => rfl
  | fault f => cases h
  | refused r => cases h

/-- FM with the given bytes from an address and nothing else. -/
def cellsFrom : Nat → List Byte → Memory
  | _, [] => []
  | a, b :: bs => (a, b) :: cellsFrom (a + 1) bs

/-- The nonce C0 .. DF of frame M2. -/
def nonceBytes : List Byte := (List.range 32).map (fun j => BitVec.ofNat 8 (0xC0 + j))

/-- Frame Z of 95_test_vectors.md §2: ms = 0, no key data. -/
def frameZ : List Byte := [0x02, 0x03, 0x00, 0x4F, 0x02, 0x00, 0x02] ++ List.replicate 76 0x00

/-- The RSNE key data of frame M2. -/
def rsne : List Byte :=
  [0x30, 0x14, 0x01, 0x00, 0x00, 0x0F, 0xAC, 0x04, 0x01, 0x00, 0x00,
   0x0F, 0xAC, 0x04, 0x01, 0x00, 0x00, 0x0F, 0xAC, 0x02, 0x00, 0x00]

/-- Frame M2 of 95_test_vectors.md §2: ms = 16, 22 bytes of key data. -/
def frameM2 : List Byte :=
  [0x02, 0x03, 0x00, 0x75, 0x02, 0x01, 0x0A, 0x00, 0x00, 0x00, 0x00, 0x00, 0x00, 0x00, 0x00, 0x00, 0x01] ++
  nonceBytes ++ List.replicate 32 0x00 ++ List.replicate 16 0x11 ++ [0x00, 0x16] ++ rsne

/-- From reset: a received buffer at 0, every CFG register written (ROLE = SUPPLICANT, PROT = P_RSN). -/
def received (ms : Half) (b : List Byte) : State :=
  { State.reset with
    cfg := ⟨ms, 0, BitVec.ofNat 32 b.length, 0x200, 200, .supplicant, 0x0010025B, 0, 0⟩
    cfgWdef := 0x1FF
    fm := cellsFrom 0 b }

/-- The FRF words frame M2 parses to (95_test_vectors.md §2, program L3). -/
def frfM2 : Frf :=
  ⟨0x02, 0x03, 0x0075, 0x02, 0x010A, 0x0000, 0x00000000, 0x00000001,
   #v[0xC0C1C2C3, 0xC4C5C6C7, 0xC8C9CACB, 0xCCCDCECF, 0xD0D1D2D3, 0xD4D5D6D7, 0xD8D9DADB, 0xDCDDDEDF],
   #v[0, 0, 0, 0], 0, 0, 16, 22, 0x63⟩

/-- Frame M2 parsed at 0 (program L3), its 16 MIC bytes 0x11, ROLE = AUTHENTICATOR, LAST_RC = 1. -/
def heldM2 : State :=
  { received 16 frameM2 with
    cfg := ⟨16, 0, 121, 0x200, 200, .authenticator, 0x0010025B, 0, 1⟩
    frf := frfM2
    mic := #v[0x11111111, 0x11111111, 0x11111111, 0x11111111, 0, 0, 0, 0, 0, 0, 0, 0, 0, 0, 0, 0]
    frfWdef0 := 0x01FFFFFF
    frfWdef1 := 0x000F
    origin := .rx }

/-- The same fields as a frame the host built, with another F_MICLEN and F_KDLEN. -/
def built (ms kdl : Half) : State :=
  { heldM2 with frf := { frfM2 with miclen := ms, kdlen := kdl }, origin := .tx }

/-- heldM2 with another output buffer. -/
def output (tb cap : Word) : State := { heldM2 with cfg := { heldM2.cfg with txBase := tb, txCap := cap } }

/-- Reset with one register space event pending. -/
def pending (e : HostEvent) : State := { State.reset with host := [e] }

/-- heldM2 with one register space event pending. -/
def heldPending (e : HostEvent) : State := { heldM2 with host := [e] }

/-- What VALIDATE and RCCMP judge (95_test_vectors.md §3), in heldM2. -/
def judged (role : Role) (prot lastLo : Word) (desc : Byte) (ki klen : Half) (rcLo : Word) : State :=
  { heldM2 with
    cfg := { heldM2.cfg with role := role, prot := prot, lastRcLo := lastLo }
    frf := { frfM2 with desc := desc, keyinfo := ki, keylen := klen, rcLo := rcLo } }

/-! ## Ill-formed terms (R7, R65, R94) -/

theorem test_params_default_legal : Params.default.Legal := by decide
theorem test_params_mic_not_multiple : ¬({ Params.default with maxMic := 30 } : Params).Legal := by decide
theorem test_params_mic_too_small : ¬({ Params.default with maxMic := 0 } : Params).Legal := by decide
theorem test_params_mic_too_large : ¬({ Params.default with maxMic := 68 } : Params).Legal := by decide
theorem test_params_fm_not_multiple : ¬({ Params.default with fmBytes := 4094 } : Params).Legal := by decide
theorem test_params_fm_too_small : ¬({ Params.default with fmBytes := 228 } : Params).Legal := by decide
theorem test_params_fm_too_large : ¬({ Params.default with fmBytes := 0xF004 } : Params).Legal := by decide
theorem test_params_desc_rc4_is_80211 : ¬({ Params.default with descRc4 := 2 } : Params).Legal := by decide
theorem test_params_desc_rc4_is_wpa1 : ¬({ Params.default with descRc4 := 254 } : Params).Legal := by decide
theorem test_params_desc_80211_is_wpa1 : ¬({ Params.default with desc80211 := 254 } : Params).Legal := by decide

theorem test_word_reserved_op_refused :
    CommandWord.wf 0x0 = false ∧ CommandWord.wf 0x9 = false ∧ CommandWord.wf 0xF = false := by decide
theorem test_word_reserved_bits_refused :
    CommandWord.wf 0x00000021 = false ∧ CommandWord.wf 0x80000008 = false := by decide
theorem test_word_clear_without_ser_refused : CommandWord.wf 0x11 = false ∧ CommandWord.wf 0x18 = false := by decide
theorem test_word_serz_accepted : CommandWord.wf 0x12 = true := by decide

theorem test_access_width_refused :
    HostEvent.wf Params.default (.rd 16 0x004) = false ∧ HostEvent.wf Params.default (.wr 8 0x004 0) = false := by decide
theorem test_access_misaligned_refused :
    HostEvent.wf Params.default (.rd 32 0x006) = false ∧ HostEvent.wf Params.default (.wr 32 0x005 0) = false := by decide
theorem test_access_out_of_space_refused :
    HostEvent.wf Params.default (.rd 32 0x2000) = false ∧ HostEvent.wf Params.default (.wr 32 0x2000 0) = false := by decide
theorem test_access_last_word_accepted :
    HostEvent.wf Params.default (.rd 32 0x1FFC) = true ∧ HostEvent.wf Params.default .reset = true := by decide

/-! ## Command words, bit by bit (R92: 27 reserved bits, CLR, four bits of OP) -/

theorem test_decode_parse : decode 0b00000000000000000000000000000001 = .ok .parse := by rfl
theorem test_decode_ser : decode 0b00000000000000000000000000000010 = .ok .ser := by rfl
theorem test_decode_serz : decode 0b00000000000000000000000000010010 = .ok .serz := by rfl
theorem test_decode_updlen : decode 0b00000000000000000000000000000011 = .ok .updlen := by rfl
theorem test_decode_patchmic : decode 0b00000000000000000000000000000100 = .ok .patchmic := by rfl
theorem test_decode_kdv : decode 0b00000000000000000000000000000101 = .ok .kdv := by rfl
theorem test_decode_rccmp : decode 0b00000000000000000000000000000110 = .ok .rccmp := by rfl
theorem test_decode_validate : decode 0b00000000000000000000000000000111 = .ok .validate := by rfl
theorem test_decode_discard : decode 0b00000000000000000000000000001000 = .ok .discard := by rfl
theorem test_decode_op_zero : decode 0b00000000000000000000000000000000 = .error .reservedOp := by rfl
theorem test_decode_op_nine : decode 0b00000000000000000000000000001001 = .error .reservedOp := by rfl
theorem test_decode_reserved_bit : decode 0b00000000000000000000000000100001 = .error .reservedBits := by rfl
theorem test_decode_clr_alone : decode 0b00000000000000000000000000010001 = .error .clearNotSer := by rfl
theorem test_decode_table_word : decodeTableWord 32 0x12 = some .serz ∧ decodeTableWord 32 0x13 = none := ⟨rfl, rfl⟩

/-- The word placed as the next event is the one the step runs: DISCARD after reset (R118). -/
theorem test_fetch_word : statusWord (after (step (State.reset.withFetchWord 32 0x8))).status = 0x08000003 := by
  decide +kernel

/-! ## Single steps against 95_test_vectors.md -/

/-- Vector PA11. -/
theorem test_parse_z :
    let t := after (exec .parse (received 0 frameZ))
    statusWord t.status = 0x01000003 ∧ t.frf.bodylen = 0x4F ∧ t.frf.kdaddr = 0x53 ∧ t.frfWdef1 = 0 := by
  decide +kernel

/-- Program L3: PARSE of M2. -/
theorem test_parse_m2 :
    let t := after (exec .parse (received 16 frameM2))
    statusWord t.status = 0x01000003 ∧ t.frf = frfM2 ∧ t.mic = heldM2.mic ∧ t.frfWdef1 = 0xF := by
  decide +kernel

/-- Vector S8: the image of M2 is M2. -/
theorem test_ser_m2 :
    let t := after (exec .ser heldM2)
    statusWord t.status = 0x02000003 ∧ Memory.readBytes t.fm 0x200 121 = some frameM2 := by decide +kernel

/-- Vector S6: the view ends one byte beyond TX_BASE. -/
theorem test_ser_overlap : statusWord (after (exec .ser (output 120 200))).status = 0x02002401 := by decide +kernel

/-- Vector S9: SERZ clears the MIC region and leaves F_MIC. -/
theorem test_serz_m2 :
    let t := after (exec .serz (output 0x200 121))
    statusWord t.status = 0x02000003 ∧ t.mic = heldM2.mic ∧
    Memory.readBytes t.fm 0x200 121 = some (frameM2.take 81 ++ List.replicate 16 0x00 ++ frameM2.drop 97) := by
  decide +kernel

/-- Vector U1. -/
theorem test_updlen_117 :
    let t := after (exec .updlen (built 16 22))
    statusWord t.status = 0x03000003 ∧ t.frf.bodylen = 0x0075 := by decide +kernel

/-- Vector U7. -/
theorem test_updlen_overflow :
    let t := after (exec .updlen (built 16 65441))
    statusWord t.status = 0x03002501 ∧ t.fault = 0x020 := by decide +kernel

/-- Vector PM3: the MIC region, and no byte beside it. -/
theorem test_patchmic_region :
    let t := after (exec .patchmic (output 0x200 97))
    statusWord t.status = 0x04000003 ∧ Memory.readBytes t.fm 0x251 16 = some (List.replicate 16 0x11) ∧
    Memory.read t.fm 0x250 = none ∧ Memory.read t.fm 0x261 = none := by decide +kernel

/-- Vector PM2. -/
theorem test_patchmic_short : statusWord (after (exec .patchmic (output 0x200 96))).status = 0x04042201 := by
  decide +kernel

/-- Vector K6. -/
theorem test_kdv_wpa1 :
    let t := after (exec .kdv (judged .authenticator 0x00200267 1 254 0x0109 0 1))
    statusWord t.status = 0x05000003 ∧ versionWord t.version t.vvalid = 0x00010001 := by decide +kernel

/-- Vector K17: an unknown pairwise usage decides before the AKM. -/
theorem test_kdv_unknown_usage : kdv Params.default 2 0x00100449 = 0 := by decide +kernel

/-- Vector RC1. -/
theorem test_rccmp_equal_from_authenticator :
    statusWord (after (exec .rccmp (judged .supplicant 0 5 2 0 0 5))).status = 0x06081B01 := by decide +kernel

/-- Vector RC4. -/
theorem test_rccmp_equal_from_supplicant :
    statusWord (after (exec .rccmp (judged .authenticator 0 5 2 0 0 5))).status = 0x06000003 := by decide +kernel

/-- Vector V1. -/
theorem test_validate_message_2 :
    let t := after (exec .validate heldM2)
    statusWord t.status = 0x07000003 ∧ t.cls = .withUnverifiedMic := by decide +kernel

/-- Vector V13b: the error bit is reported before the request bit. -/
theorem test_validate_error_before_request :
    statusWord (after (exec .validate (judged .supplicant 0x0010025B 0 2 0x0C8A 16 1))).status = 0x07051601 := by
  decide +kernel

/-- DISCARD of a parsed frame (R118, R24). -/
theorem test_discard_m2 :
    let t := after (exec .discard heldM2)
    statusWord t.status = 0x08000003 ∧ t.origin = .none ∧ t.frfWdef0 = 0 ∧ t.fm = heldM2.fm := by decide +kernel

/-- Program L5b: a write to an Rx frame is ignored. -/
theorem test_write_to_rx_frame :
    let t := after (step (heldPending (.wr 32 0x114 0x55)))
    t.frf = frfM2 ∧ t.fault = 0x080 := by decide +kernel

/-- R76: a window write into the key data of an Rx frame raises BORROW. -/
theorem test_borrow :
    let t := after (step (heldPending (.wr 32 0x1064 0x01020304)))
    t.fault = 0x100 ∧ t.frfWdef0 = 0x00FFFFFF ∧ Memory.readBytes t.fm 0x64 4 = some [1, 2, 3, 4] := by decide +kernel

/-- R62: a window read is big-endian in its lanes: the first four bytes of M2. -/
theorem test_window_read : (after (step (heldPending (.rd 32 0x1000)))).readData = some 0x02030075 := by
  decide +kernel

/-! ## Witnesses -/

theorem witness_EveryCommandDecodesFromItsWord : Instr.wf .serz = true := rfl

theorem illegal_of_error {w : Word} {e : DecodeError} (h : decode w = .error e) : ∀ i, decode w ≠ .ok i := by
  intro i h2
  rw [h] at h2
  cases h2

/-- The three cases of R94, with the least and the greatest illegal OP. -/
theorem witness_IllegalWordFaultsAndDoesNothingElse :
    ((∀ i, decode 0x0 ≠ .ok i) ∧ (∀ i, decode 0x9 ≠ .ok i) ∧ (∀ i, decode 0xF ≠ .ok i)) ∧
    ((∀ i, decode 0x00000021 ≠ .ok i) ∧ (∀ i, decode 0x80000001 ≠ .ok i)) ∧
    ((∀ i, decode 0x11 ≠ .ok i) ∧ (∀ i, decode 0x18 ≠ .ok i)) ∧
    (pending (.wr 32 0 0x11)).host = [.wr 32 0 0x11] :=
  ⟨⟨illegal_of_error (e := .reservedOp) rfl, illegal_of_error (e := .reservedOp) rfl,
    illegal_of_error (e := .reservedOp) rfl⟩,
   ⟨illegal_of_error (e := .reservedBits) rfl, illegal_of_error (e := .reservedBits) rfl⟩,
   ⟨illegal_of_error (e := .clearNotSer) rfl, illegal_of_error (e := .clearNotSer) rfl⟩, rfl⟩

theorem witness_StepRunsTheCommandWritten :
    (pending (.wr 32 0 0x00000012)).host = .wr 32 0 0x00000012 :: [] ∧ decode 0x00000012 = .ok .serz := ⟨rfl, rfl⟩

theorem witness_NoEventMeansNoChange : heldM2.host = [] := rfl

theorem witness_ResetInputLeavesTheResetState : (heldPending .reset).host = .reset :: [] := rfl

/-- The least frame, ms = 0 and no key data. -/
theorem witness_ParseLoadsTheFrame :
    let s := received 0 frameZ
    s.params.Legal ∧ s.ready .parse ∧ 0 = s.cfg.micSize.toNat ∧ 0 ≤ s.params.maxMic ∧
    s.rxBase + s.rxLen ≤ s.params.fmBytes ∧ Memory.readBytes s.fm s.rxBase s.rxLen = some frameZ ∧
    byteAt frameZ 1 = 3 ∧ 83 + 0 ≤ frameZ.length ∧ frameZ.length = 83 + 0 + be (slice frameZ (81 + 0) 2) := by
  unfold State.ready; decide +kernel

/-- A frame with a MIC and key data. -/
theorem witness_ParseLoadsTheFrame_m2 :
    let s := received 16 frameM2
    s.params.Legal ∧ s.ready .parse ∧ 16 = s.cfg.micSize.toNat ∧ 16 ≤ s.params.maxMic ∧
    s.rxBase + s.rxLen ≤ s.params.fmBytes ∧ Memory.readBytes s.fm s.rxBase s.rxLen = some frameM2 ∧
    byteAt frameM2 1 = 3 ∧ 83 + 16 ≤ frameM2.length ∧
    frameM2.length = 83 + 16 + be (slice frameM2 (81 + 16) 2) := by
  unfold State.ready; decide +kernel

/-- What every clause of ParseRejectsAMalformedFrame assumes of the buffer. -/
def presented (ms : Half) (b : List Byte) : Prop :=
  (received ms b).ready .parse ∧ (received ms b).cfg.micSize.toNat ≤ (received ms b).params.maxMic ∧
  (received ms b).rxBase + (received ms b).rxLen ≤ (received ms b).params.fmBytes ∧
  Memory.readBytes (received ms b).fm (received ms b).rxBase (received ms b).rxLen = some b

/-- No byte and one byte; a wrong packet type in two bytes; one byte short of 83 + ms; a key-data length beyond the
buffer (vector PA8); one byte too many. -/
theorem witness_ParseRejectsAMalformedFrame :
    (presented 16 [] ∧ ([] : List Byte).length < 2) ∧ (presented 16 [0x02] ∧ [(0x02 : Byte)].length < 2) ∧
    (presented 16 [0x02, 0x04] ∧ byteAt [0x02, 0x04] 1 ≠ 3) ∧
    (presented 0 (frameZ.take 82) ∧ 2 ≤ (frameZ.take 82).length ∧ byteAt (frameZ.take 82) 1 = 3 ∧
      (frameZ.take 82).length < 83 + 0) ∧
    (presented 24 frameM2 ∧ 83 + 24 ≤ frameM2.length ∧ byteAt frameM2 1 = 3 ∧
      frameM2.length < 83 + 24 + be (slice frameM2 (81 + 24) 2)) ∧
    (presented 0 (frameZ ++ [0x00]) ∧ byteAt (frameZ ++ [0x00]) 1 = 3 ∧
      83 + 0 + be (slice (frameZ ++ [0x00]) (81 + 0) 2) < (frameZ ++ [0x00]).length) := by
  unfold presented State.ready; decide +kernel

/-- MIC_SIZE one above MAX_MIC; a buffer that leaves FM by one byte with MIC_SIZE at MAX_MIC. -/
theorem witness_ParseFaultsOnMicSizeThenBuffer :
    ((received 33 frameZ).ready .parse ∧
      (received 33 frameZ).params.maxMic < (received 33 frameZ).cfg.micSize.toNat) ∧
    (let s := { received 32 frameZ with cfg := { (received 32 frameZ).cfg with rxBase := 4014 } }
     s.ready .parse ∧ s.cfg.micSize.toNat ≤ s.params.maxMic ∧ s.rxBase + s.rxLen = s.params.fmBytes + 1) := by
  unfold State.ready; decide +kernel

/-- The last byte of the buffer was never written. -/
theorem witness_ParseOfAnUndefinedByteEndsTheRun :
    let s := { received 0 frameZ with fm := cellsFrom 0 (frameZ.take 82) }
    s.ready .parse ∧ s.cfg.micSize.toNat ≤ s.params.maxMic ∧ s.rxBase + s.rxLen ≤ s.params.fmBytes ∧
    s.rxBase ≤ 82 ∧ 82 < s.rxBase + s.rxLen ∧ Memory.read s.fm 82 = none := by
  unfold State.ready; decide +kernel

theorem witness_EveryShortBufferIsAFormatError :
    ((frameZ.take 82).length < 83 + 0 ∧ byteAt (frameZ.take 82) 1 = 3) ∧
    ([(0x02 : Byte)].length < 83 + 0 ∧ [(0x02 : Byte)].length < 2) ∧
    ([(0x02 : Byte), 0x04].length < 83 + 0 ∧ byteAt [0x02, 0x04] 1 ≠ 3 ∧ 2 ≤ [(0x02 : Byte), 0x04].length) := by
  decide +kernel

/-- What SerWritesTheImage and SerzWritesTheImageWithAClearedMic assume: TX_CAP exact, the view at the buffer's edge. -/
theorem witness_SerWritesTheImage :
    let s := output 121 121
    s.ready .ser ∧ 83 + s.micLen + s.kdLen = s.txCap ∧ s.txBase + (83 + s.micLen + s.kdLen) ≤ s.params.fmBytes ∧
    s.kdAddr + s.kdLen ≤ s.params.fmBytes ∧ s.viewApart s.txBase (83 + s.micLen + s.kdLen) ∧
    Memory.readBytes s.fm s.kdAddr s.kdLen = some rsne := by
  unfold State.ready State.viewApart; decide +kernel

/-- SERZ with no F_MIC word defined, and an output that ends where FM ends. -/
theorem witness_SerzWritesTheImageWithAClearedMic :
    let s := { output 3975 121 with frfWdef1 := 0 }
    s.ready .serz ∧ 83 + s.micLen + s.kdLen ≤ s.txCap ∧
    s.txBase + (83 + s.micLen + s.kdLen) = s.params.fmBytes ∧
    s.kdAddr + s.kdLen ≤ s.params.fmBytes ∧ s.viewApart s.txBase (83 + s.micLen + s.kdLen) ∧
    Memory.readBytes s.fm s.kdAddr s.kdLen = some rsne := by
  unfold State.ready State.viewApart; decide +kernel

theorem witness_ImageHasTheWireLayout : rsne.length = frfM2.kdlen.toNat := by decide

theorem witness_SerializeChangesOnlyTheOutputRange :
    exec .ser heldM2 = .next (after (exec .ser heldM2)) ∧ outside 0 heldM2.txBase (83 + heldM2.micLen + heldM2.kdLen) ∧
    outside 0x279 heldM2.txBase (83 + heldM2.micLen + heldM2.kdLen) :=
  ⟨eq_next_after (by decide +kernel), .inl (by decide +kernel), .inr (by decide +kernel)⟩

/-- TX_CAP one too small; an output one byte beyond FM; a view one byte beyond FM; a view one byte into the output. -/
theorem witness_SerializeFaultsInOrder :
    ((output 0x200 120).ready .ser ∧ (output 0x200 120).ready .serz ∧ (output 0x200 120).txCap < 121) ∧
    ((output 3976 121).ready .ser ∧ (output 3976 121).params.fmBytes < (output 3976 121).txBase + 121) ∧
    (let s := { heldM2 with frf := { frfM2 with kdaddr := 4075 } }
     s.ready .ser ∧ 121 ≤ s.txCap ∧ s.txBase + 121 ≤ s.params.fmBytes ∧ s.params.fmBytes < s.kdAddr + s.kdLen) ∧
    (let s := output 120 200
     s.ready .ser ∧ 121 ≤ s.txCap ∧ s.txBase + 121 ≤ s.params.fmBytes ∧ s.kdAddr + s.kdLen ≤ s.params.fmBytes ∧
     0 < s.kdLen ∧ s.kdAddr < s.txBase + 121 ∧ s.txBase < s.kdAddr + s.kdLen) ∧
    121 = 83 + heldM2.micLen + heldM2.kdLen := by
  unfold State.ready; decide +kernel

/-- M2 parsed, and a machine ready to serialize it at 0x200. -/
def parsedM2 : State := after (exec .parse (received 16 frameM2))

/-- parsedM2 with the output buffer of vectors S8 and S9. -/
def toSerialize : State :=
  { parsedM2 with
    cfg := { parsedM2.cfg with txBase := 0x200, txCap := 121 }, cfgWdef := parsedM2.cfgWdef ||| 0x018 }

theorem witness_SerializeThenParseReproducesTheFrame :
    (received 16 frameM2).params.Legal ∧
    exec .parse (received 16 frameM2) = .next parsedM2 ∧ parsedM2.succeeded ∧
    exec .ser toSerialize = .next (after (exec .ser toSerialize)) ∧ (after (exec .ser toSerialize)).succeeded ∧
    exec .serz toSerialize = .next (after (exec .serz toSerialize)) ∧ (after (exec .serz toSerialize)).succeeded :=
  ⟨by decide, eq_next_after (by decide +kernel), by unfold State.succeeded; decide +kernel,
   eq_next_after (by decide +kernel), by unfold State.succeeded; decide +kernel,
   eq_next_after (by decide +kernel), by unfold State.succeeded; decide +kernel⟩

/-- The greatest sum that fits (vector U6), and one above it under WRAP. -/
theorem witness_UpdlenWritesTheBodyLength :
    (let s := built 16 65440
     s.origin = .tx ∧ s.ready .updlen ∧ 65535 = 79 + s.micLen + s.kdLen) ∧
    (let s := { built 16 65441 with params := { Params.default with bodyLenOverflow := .wrap } }
     s.origin = .tx ∧ s.ready .updlen ∧ 65536 = 79 + s.micLen + s.kdLen ∧ s.params.bodyLenOverflow = .wrap) := by
  unfold State.ready; decide +kernel

theorem witness_UpdlenFaultsOffTxAndOnOverflow :
    State.reset.origin ≠ .tx ∧ heldM2.origin ≠ .tx ∧
    (let s := built 16 65441
     s.origin = .tx ∧ s.ready .updlen ∧ 65535 < 79 + s.micLen + s.kdLen ∧ s.params.bodyLenOverflow = .fault) := by
  unfold State.ready; decide +kernel

/-- TX_CAP exact and the view outside; a view that meets the region but is not defined; ms = 0. -/
theorem witness_PatchmicWritesTheHeldMic :
    (let s := output 0x200 97
     s.ready .patchmic ∧ 81 + s.micLen = s.txCap ∧ s.txBase + 81 + s.micLen ≤ s.params.fmBytes ∧
     s.viewApart (s.txBase + 81) s.micLen) ∧
    (let s := { output 0x12 97 with frfWdef0 := 0x00FFFFFF }
     s.ready .patchmic ∧ 81 + s.micLen = s.txCap ∧ s.txBase + 81 + s.micLen ≤ s.params.fmBytes ∧
     s.frfDefined .kdaddr = false) ∧
    (let s := { built 0 22 with frfWdef1 := 0 }
     s.ready .patchmic ∧ 81 + s.micLen ≤ s.txCap ∧ s.txBase + 81 + s.micLen ≤ s.params.fmBytes ∧
     s.viewApart (s.txBase + 81) s.micLen) := by
  unfold State.ready State.viewApart; decide +kernel

/-- TX_CAP one too small; a region one byte beyond FM; a view whose first byte is the region's last. -/
theorem witness_PatchmicFaultsInOrder :
    ((output 0x200 96).ready .patchmic ∧ (output 0x200 96).txCap < 81 + (output 0x200 96).micLen) ∧
    (let s := output 4000 97
     s.ready .patchmic ∧ s.params.fmBytes < s.txBase + 81 + s.micLen) ∧
    (let s := output 3 97
     s.ready .patchmic ∧ 81 + s.micLen ≤ s.txCap ∧ s.txBase + 81 + s.micLen ≤ s.params.fmBytes ∧
     s.frfDefined .kdlen = true ∧ s.frfDefined .kdaddr = true ∧ 0 < s.kdLen ∧
     s.kdAddr + 1 = s.txBase + 81 + s.micLen ∧ s.txBase + 81 < s.kdAddr + s.kdLen) := by
  unfold State.ready; decide +kernel

theorem witness_PatchmicChangesOnlyTheMicRegion :
    exec .patchmic heldM2 = .next (after (exec .patchmic heldM2)) ∧ outside 0x250 (heldM2.txBase + 81) heldM2.micLen ∧
    outside 0x261 (heldM2.txBase + 81) heldM2.micLen :=
  ⟨eq_next_after (by decide +kernel), .inl (by decide +kernel), .inr (by decide +kernel)⟩

/-- A MIC put into F_MIC. -/
def newMic : Vector Word 16 := #v[0x01020304, 0x05060708, 0x090A0B0C, 0x0D0E0F10, 0, 0, 0, 0, 0, 0, 0, 0, 0, 0, 0, 0]

/-- heldM2 after SERZ. -/
def cleared : State := after (exec .serz heldM2)

theorem witness_SerzThenPatchmicEqualsSer :
    exec .serz heldM2 = .next cleared ∧ cleared.succeeded ∧
    (let u := { cleared with mic := newMic, frfWdef1 := 0xF }
     exec .patchmic u = .next (after (exec .patchmic u)) ∧ (after (exec .patchmic u)).succeeded) ∧
    (let v := { heldM2 with mic := newMic, frfWdef1 := 0xF }
     exec .ser v = .next (after (exec .ser v)) ∧ (after (exec .ser v)).succeeded) :=
  ⟨eq_next_after (by decide +kernel), by unfold State.succeeded; decide +kernel,
   ⟨eq_next_after (by decide +kernel), by unfold State.succeeded; decide +kernel⟩,
   ⟨eq_next_after (by decide +kernel), by unfold State.succeeded; decide +kernel⟩⟩

/-- A PROT word and descriptor for each clause, AKM types 0, 1, 2, 3, 6 and 7 among them (vectors K1 to K17). -/
theorem witness_KdvIsTheTableOfR152 :
    let known (p : Word) : Prop := p.getLsbD 0 = true ∧ p.getLsbD 1 = true
    let akm (p : Word) : Nat := (p.extractLsb' 8 8).toNat
    Params.default.Legal ∧ ¬known 0x0010025A ∧ ¬known 0x00100449 ∧
    (known 0x00200267 ∧ akm 0x00200267 = 2 ∧ (0x00200267 : Word).getLsbD 2 = true) ∧
    (known 0x0010026B ∧ akm 0x0010026B = 2 ∧ (0x0010026B : Word).getLsbD 2 = false) ∧
    (known 0x00100153 ∧ akm 0x00100153 = 1 ∧ (0x00100153 : Word).getLsbD 4 = true) ∧
    (known 0x00200247 ∧ akm 0x00200247 = 2 ∧ (0x00200247 : Word).getLsbD 3 = false ∧
      (0x00200247 : Word).getLsbD 4 = false) ∧
    (9 : Byte) ≠ Params.default.descRc4 ∧ (9 : Byte) ≠ Params.default.descWpa1 ∧ (9 : Byte) ≠ Params.default.desc80211 ∧
    (known 0x0010034B ∧ akm 0x0010034B = 3) ∧ (known 0x0010064B ∧ akm 0x0010064B = 6) ∧
    (known 0x0010004B ∧ akm 0x0010004B = 0) ∧ (known 0x0010074B ∧ akm 0x0010074B = 7) := by
  decide +kernel

theorem witness_KdvWritesVersion : heldM2.ready .kdv := by unfold State.ready; decide +kernel

theorem witness_ReplayComparatorOfR162 : (1 : Dword) ≠ 0 ∧ (0xFFFFFFFFFFFFFFFF : Dword) ≠ 0 := by decide

/-- LAST_RC = 0; equal counters from a Supplicant; a counter one above from an Authenticator; one below; equal. -/
theorem witness_RccmpAnswersCheckEight :
    (let s := judged .supplicant 0 0 2 0 0 0
     s.ready .rccmp ∧ s.lastRc = 0) ∧
    (let s := judged .authenticator 0 5 2 0 0 5
     s.ready .rccmp ∧ s.cfg.role = .authenticator ∧ s.lastRc.toNat ≤ s.replayCounter.toNat) ∧
    (let s := judged .supplicant 0 5 2 0 0 6
     s.ready .rccmp ∧ s.cfg.role = .supplicant ∧ s.lastRc.toNat < s.replayCounter.toNat) ∧
    (let s := judged .authenticator 0 5 2 0 0 4
     s.ready .rccmp ∧ s.lastRc ≠ 0 ∧ s.cfg.role = .authenticator ∧ s.replayCounter.toNat < s.lastRc.toNat) ∧
    (let s := judged .supplicant 0 5 2 0 0 5
     s.ready .rccmp ∧ s.lastRc ≠ 0 ∧ s.cfg.role = .supplicant ∧ s.replayCounter.toNat ≤ s.lastRc.toNat) := by
  unfold State.ready; decide +kernel

/-- Message 2 with a MIC (V1) and message 1 without (V8b). -/
theorem witness_ValidateAdmitsAndClassifies :
    (let s := heldM2
     s.params.Legal ∧ s.ready .validate ∧ failingChecks s.params s.judgedFrame = [] ∧ s.frf.keyinfo.getLsbD 8 = true) ∧
    (let s := judged .supplicant 0x0010025B 1 2 0x008A 16 2
     s.params.Legal ∧ s.ready .validate ∧ failingChecks s.params s.judgedFrame = [] ∧ s.frf.keyinfo.getLsbD 8 = false) := by
  unfold State.ready; decide +kernel

/-- One failing check (V9), two of one number (V13b), and two of different numbers (V20). -/
theorem witness_ValidateReportsTheFirstFailingCheck :
    (let s := judged .authenticator 0x0010025B 1 2 0x0109 0 1
     s.params.Legal ∧ s.ready .validate ∧ failingChecks s.params s.judgedFrame = (.admVersion, 2) :: []) ∧
    (let s := judged .supplicant 0x0010025B 0 2 0x0C8A 16 1
     s.ready .validate ∧ failingChecks s.params s.judgedFrame =
       (.admErrorFromAuthenticator, 5) :: [(.admRequestFromAuthenticator, 5)]) ∧
    (let s := judged .authenticator 0x0010025B 5 2 0x210A 0 1
     s.ready .validate ∧ failingChecks s.params s.judgedFrame = (.admSmk, 6) :: [(.admReplay, 8)]) := by
  unfold State.ready; decide +kernel

/-- Encrypted key data without a MIC (V18), an SMK message (V15), a replay from each sender (V8a, V8c). -/
theorem witness_ForgedOrReplayedFramesAreNeverAdmitted :
    (let s := judged .authenticator 0x0010025B 1 2 0x100A 0 1
     isNext (exec .validate s) = true ∧ s.frf.keyinfo.getLsbD 12 = true ∧ s.frf.keyinfo.getLsbD 8 = false) ∧
    (let s := judged .authenticator 0x0010025B 1 2 0x210A 0 1
     isNext (exec .validate s) = true ∧ s.frf.keyinfo.getLsbD 13 = true) ∧
    (let s := judged .supplicant 0x0010025B 1 2 0x008A 16 1
     isNext (exec .validate s) = true ∧ s.lastRc ≠ 0 ∧ s.cfg.role = .supplicant ∧
     s.replayCounter.toNat ≤ s.lastRc.toNat) ∧
    (let s := judged .authenticator 0x0010025B 2 2 0x010A 0 1
     isNext (exec .validate s) = true ∧ s.lastRc ≠ 0 ∧ s.cfg.role = .authenticator ∧
     s.replayCounter.toNat < s.lastRc.toNat) := by decide +kernel

theorem witness_FaultsArePrecise :
    exec .ser (output 120 200) = .next (after (exec .ser (output 120 200))) ∧
    (after (exec .ser (output 120 200))).status.err = .fault .overlap :=
  ⟨eq_next_after (by decide +kernel), by decide +kernel⟩

/-- An ERROR from each of the three commands that raise one. -/
theorem witness_ErrorsCommitOnlyWhatTheirRuleNames :
    (isNext (exec .parse (received 16 [])) = true ∧
      (after (exec .parse (received 16 []))).status.err = .error .format) ∧
    (let s := judged .authenticator 0x0010025B 1 2 0x0109 0 1
     isNext (exec .validate s) = true ∧ (after (exec .validate s)).status.err = .error .admVersion) ∧
    (let s := judged .supplicant 0 5 2 0 0 5
     isNext (exec .rccmp s) = true ∧ (after (exec .rccmp s)).status.err = .error .admReplay) := by decide +kernel

/-- The first, a middle (S12) and the last operand undefined, and UPDLEN with its test of ORIGIN passed (U11). -/
theorem witness_FirstUndefinedOperandFaults :
    (needsOf State.reset .parse = [] ++ .cfg .micSize :: [.cfg .rxBase, .cfg .rxLen] ∧
      State.reset.isDefined (.cfg .micSize) = false) ∧
    (let s := { heldM2 with frfWdef0 := 0x0000001 }
     needsOf s .ser = [.cfg .txBase, .cfg .txCap, .frf .proto] ++ .frf .ptype :: (needsOf s .ser).drop 4 ∧
     (∀ y ∈ [Operand.cfg .txBase, .cfg .txCap, .frf .proto], s.isDefined y = true) ∧
     s.isDefined (.frf .ptype) = false) ∧
    (let s := { heldM2 with frfWdef1 := 0x7 }
     needsOf s .patchmic = [.cfg .txBase, .cfg .txCap, .frf .miclen, .mic 0, .mic 1, .mic 2] ++ .mic 3 :: [] ∧
     (∀ y ∈ [Operand.cfg .txBase, .cfg .txCap, .frf .miclen, .mic 0, .mic 1, .mic 2], s.isDefined y = true) ∧
     s.isDefined (.mic 3) = false) ∧
    (let s := { built 16 22 with frfWdef0 := 0x0800000 }
     needsOf s .updlen = [] ++ .frf .miclen :: [.frf .kdlen] ∧ s.isDefined (.frf .miclen) = false ∧ s.origin = .tx) := by
  decide +kernel

theorem witness_NoCommandWritesAHostInput : exec .validate heldM2 = .next (after (exec .validate heldM2)) :=
  eq_next_after (by decide +kernel)

/-- The first and the last offset of the register space, and a defined register of each kind. -/
theorem witness_ReadsHaveNoSideEffect :
    ((heldPending (.rd 32 0)).host = .rd 32 0 :: [] ∧ 0 % 4 = 0 ∧ 0 < 0x1000 + (heldPending (.rd 32 0)).params.fmBytes) ∧
    ((heldPending (.rd 32 0x1FFC)).host = .rd 32 0x1FFC :: [] ∧ 0x1FFC % 4 = 0 ∧
      0x1FFC < 0x1000 + (heldPending (.rd 32 0x1FFC)).params.fmBytes) ∧
    ⟨0x00C, true, 16⟩ ∈ (heldPending (.rd 32 0x00C)).registerRows ∧
    ⟨0x020, true, 0⟩ ∈ (heldPending (.rd 32 0x020)).registerRows ∧
    ⟨0x13C, true, 0xDCDDDEDF⟩ ∈ (heldPending (.rd 32 0x13C)).registerRows ∧
    ⟨0x160, true, 0x63⟩ ∈ (heldPending (.rd 32 0x160)).registerRows ∧
    ⟨0x18C, true, 0x11111111⟩ ∈ (heldPending (.rd 32 0x18C)).registerRows := by decide +kernel

/-- Every clause's offset can be the pending read's; the answers to STATUS after DISCARD and to ORIGIN on heldM2. -/
theorem witness_StatusRegistersReadAsTheirFields :
    (∀ off ∈ [0x000, 0x004, 0x008, 0x030, 0x034, 0x038, 0x1C0, 0x1C4, 0x1C8],
      (heldPending (.rd 32 off)).host = .rd 32 off :: []) ∧
    (after (step (after (step { heldM2 with host := [.wr 32 0 8, .rd 32 4] })))).readData = some 0x08000003 ∧
    (after (step (heldPending (.rd 32 0x1C8)))).readData = some 1 := by decide +kernel

/-- An undefined CFG register, FRF word and F_MIC word, the last F_MIC word that exists. -/
theorem witness_UndefinedRegistersReadAsAFreshDraw :
    ((pending (.rd 32 0x00C)).host = .rd 32 0x00C :: [] ∧
      ⟨0x00C, false, 0⟩ ∈ (pending (.rd 32 0x00C)).registerRows) ∧
    ⟨0x160, false, 0⟩ ∈ (pending (.rd 32 0x160)).registerRows ∧
    ⟨0x19C, false, 0⟩ ∈ (pending (.rd 32 0x19C)).registerRows := by decide +kernel

theorem witness_CfgWriteStoresDefinesAndClearsClass :
    (heldPending (.wr 32 0x024 0xFFFFFFFF)).host = .wr 32 (cfgOffset .prot) 0xFFFFFFFF :: [] ∧
    (heldPending (.wr 32 0x010 4)).host = .wr 32 (cfgOffset .rxBase) 4 :: [] ∧
    (heldPending (.wr 32 0x020 1)).host = .wr 32 (cfgOffset .role) 1 :: [] := ⟨rfl, rfl, rfl⟩

/-- F_MICLEN at MAX_MIC, and another word. -/
theorem witness_FrfWriteIsAcceptedOffRx :
    ((pending (.wr 32 0x158 32)).host = .wr 32 (frfOffset .miclen) 32 :: [] ∧ (pending (.wr 32 0x158 32)).origin ≠ .rx ∧
      ¬(FrfReg.miclen = .miclen ∧ (pending (.wr 32 0x158 32)).params.maxMic < ((32 : Word).extractLsb' 0 16).toNat)) ∧
    ((pending (.wr 32 0x100 2)).host = .wr 32 (frfOffset .proto) 2 :: [] ∧ FrfReg.proto ≠ .miclen) := by
  decide +kernel

/-- A write to an Rx frame, and F_MICLEN one above MAX_MIC on a frame that is not Rx. -/
theorem witness_FrfWriteIgnoredWithItsFaultBit :
    ((heldPending (.wr 32 0x114 0)).host = .wr 32 (frfOffset .keylen) 0 :: [] ∧
      (heldPending (.wr 32 0x114 0)).origin = .rx) ∧
    ((pending (.wr 32 0x158 33)).host = .wr 32 (frfOffset .miclen) 33 :: [] ∧ (pending (.wr 32 0x158 33)).origin ≠ .rx ∧
      (pending (.wr 32 0x158 33)).params.maxMic < ((33 : Word).extractLsb' 0 16).toNat) := by decide +kernel

/-- The first and the last F_MIC word. -/
theorem witness_MicWriteIsAlwaysAccepted :
    ((heldPending (.wr 32 0x180 9)).host = .wr 32 (0x180 + 4 * (0 : Fin 16).val) 9 :: [] ∧
      4 * (0 : Fin 16).val < (heldPending (.wr 32 0x180 9)).params.maxMic) ∧
    ((pending (.wr 32 0x19C 9)).host = .wr 32 (0x180 + 4 * (7 : Fin 16).val) 9 :: [] ∧
      4 * (7 : Fin 16).val < (pending (.wr 32 0x19C 9)).params.maxMic) := by decide +kernel

/-- The view of heldM2 is 0x63..0x78: a write of its first byte alone, of its last byte alone, and of the words beside. -/
theorem witness_WindowWriteStoresLanesAndRaisesBorrow :
    ((heldPending (.wr 32 0x1060 7)).host = .wr 32 (0x1000 + 0x60) 7 :: [] ∧ 0x60 % 4 = 0 ∧
      0x60 < (heldPending (.wr 32 0x1060 7)).params.fmBytes) ∧
    (heldM2.origin = .rx ∧ heldM2.frfDefined .kdaddr = true ∧
      ∃ x, 0x60 ≤ x ∧ x < 0x60 + 4 ∧ heldM2.kdAddr ≤ x ∧ x < heldM2.kdAddr + heldM2.kdLen) ∧
    (∃ x, 0x78 ≤ x ∧ x < 0x78 + 4 ∧ heldM2.kdAddr ≤ x ∧ x < heldM2.kdAddr + heldM2.kdLen) ∧
    (¬∃ x, 0x5C ≤ x ∧ x < 0x5C + 4 ∧ heldM2.kdAddr ≤ x ∧ x < heldM2.kdAddr + heldM2.kdLen) ∧
    (¬∃ x, 0x7C ≤ x ∧ x < 0x7C + 4 ∧ heldM2.kdAddr ≤ x ∧ x < heldM2.kdAddr + heldM2.kdLen) := by
  have hk : heldM2.kdAddr = 0x63 := by decide +kernel
  have hl : heldM2.kdLen = 22 := by decide +kernel
  refine ⟨⟨rfl, rfl, by decide +kernel⟩, ⟨rfl, by decide +kernel, 0x63, ?_⟩, ⟨0x78, ?_⟩, ?_, ?_⟩
  · omega
  · omega
  · rintro ⟨x, h⟩; omega
  · rintro ⟨x, h⟩; omega

/-- A word whose first byte alone is defined (frame M2 ends at 0x78), and a write and read of FM's last word. -/
theorem witness_WindowReadReturnsWhatWasWritten :
    (let s := heldPending (.rd 32 (0x1000 + 0x78))
     s.host = .rd 32 (0x1000 + 0x78) :: [] ∧ 0x78 % 4 = 0 ∧ 0x78 < s.params.fmBytes ∧
     Memory.read s.fm 0x78 = some 0x00 ∧ Memory.read s.fm 0x79 = none) ∧
    (let s := { heldM2 with host := [.wr 32 (0x1000 + 4092) 7, .rd 32 (0x1000 + 4092)] }
     s.host = .wr 32 (0x1000 + 4092) 7 :: .rd 32 (0x1000 + 4092) :: [] ∧ 4092 % 4 = 0 ∧ 4092 < s.params.fmBytes) := by
  decide +kernel

/-- A read-only register and the edges of the gaps, the one after F_MIC7 (MAX_MIC = 32) among them. -/
theorem witness_ReadOnlyAndUnmappedAccessesDoNothing :
    (heldPending (.wr 32 0x008 1)).params.Legal ∧
    ((heldPending (.wr 32 0x008 1)).host = .wr 32 0x008 1 :: [] ∧ 0x008 % 4 = 0) ∧
    ((heldPending (.wr 32 0x1A0 1)).host = .wr 32 0x1A0 1 :: [] ∧
      0x180 + (heldPending (.wr 32 0x1A0 1)).params.maxMic ≤ 0x1A0 ∧ 0x1A0 < 0x1C0) ∧
    ((heldPending (.rd 32 0xFFC)).host = .rd 32 0xFFC :: [] ∧ 0x1CC ≤ 0xFFC ∧ 0xFFC < 0x1000) := by decide +kernel

/-- A wrong width, a misaligned offset, the first offset beyond the space, and the last one in it. -/
theorem witness_OnlyAlignedWordAccessesAreCarried :
    ((pending (.rd 16 0)).host = .rd 16 0 :: [] ∧ ¬(16 = 32)) ∧
    ((pending (.wr 32 0x1FFE 0)).host = .wr 32 0x1FFE 0 :: [] ∧ ¬(0x1FFE % 4 = 0)) ∧
    ((pending (.rd 32 0x2000)).host = .rd 32 0x2000 :: [] ∧
      ¬(0x2000 < 0x1000 + (pending (.rd 32 0x2000)).params.fmBytes)) ∧
    ((pending (.wr 32 0x1FFC 0)).host = .wr 32 0x1FFC 0 :: [] ∧ 0x1FFC % 4 = 0 ∧
      0x1FFC < 0x1000 + (pending (.wr 32 0x1FFC 0)).params.fmBytes) := by decide +kernel

/-- heldM2 with a FAULT bit set and an event pending. -/
def faulted : State := { heldPending (.wr 32 0x114 0) with fault := 0x001 }

theorem witness_FaultBitsAreSticky :
    step faulted = .next (after (step faulted)) ∧ (∀ rest, faulted.host ≠ .reset :: rest) ∧
    faulted.fault.getLsbD 0 = true :=
  ⟨eq_next_after (by decide +kernel), (fun _ h => nomatch h), by decide +kernel⟩

theorem witness_OnlyCommandsWriteStatus :
    step (heldPending (.wr 32 0 8)) = .next (after (step (heldPending (.wr 32 0 8)))) ∧
    (after (step (heldPending (.wr 32 0 8)))).status ≠ (heldPending (.wr 32 0 8)).status :=
  ⟨eq_next_after (by decide +kernel), by decide +kernel⟩

theorem witness_OnlyValidateClassifies :
    step (heldPending (.wr 32 0 7)) = .next (after (step (heldPending (.wr 32 0 7)))) ∧
    (after (step (heldPending (.wr 32 0 7)))).cls ≠ .none ∧
    (after (step (heldPending (.wr 32 0 7)))).cls ≠ (heldPending (.wr 32 0 7)).cls :=
  ⟨eq_next_after (by decide +kernel), by decide +kernel, by decide +kernel⟩

theorem witness_OnlyKdvWritesVersion :
    step (heldPending (.wr 32 0 5)) = .next (after (step (heldPending (.wr 32 0 5)))) ∧
    (after (step (heldPending (.wr 32 0 5)))).vvalid ≠ (heldPending (.wr 32 0 5)).vvalid :=
  ⟨eq_next_after (by decide +kernel), by decide +kernel⟩

/-- heldM2 before a PARSE of the same buffer that changes F_KEYINFO, and before a write to F_MIC0. -/
theorem witness_RxFrameIsImmutableButForItsMic :
    (let s := { heldPending (.wr 32 0 1) with frf := { frfM2 with keyinfo := 0 } }
     s.origin = .rx ∧ isNext (step s) = true ∧ (after (step s)).frf ≠ s.frf) ∧
    (let s := heldPending (.wr 32 0x180 9)
     s.origin = .rx ∧ isNext (step s) = true ∧ (after (step s)).mic ≠ s.mic) := by decide +kernel

theorem witness_DefinedBytesStayDefined :
    step (heldPending (.wr 32 0x1000 9)) = .next (after (step (heldPending (.wr 32 0x1000 9)))) ∧
    (∀ rest, (heldPending (.wr 32 0x1000 9)).host ≠ .reset :: rest) ∧
    (Memory.read (heldPending (.wr 32 0x1000 9)).fm 0).isSome = true :=
  ⟨eq_next_after (by decide +kernel), (fun _ h => nomatch h), by decide +kernel⟩

theorem micDefined_of_16 (s : State) {k : Nat} (h : 16 ≤ k) : s.micDefined k = false := by
  unfold State.micDefined
  exact BitVec.getLsbD_of_ge _ _ h

/-- A parsed frame in a machine with a pending VALIDATE has the invariant. -/
theorem heldM2_inv : (heldPending (.wr 32 0 7)).Inv where
  legal := by decide
  fmCanonical := by decide +kernel
  fmBounded := by decide +kernel
  micLenFits := by decide +kernel
  micBitsFit := by
    intro k hk
    by_cases h : 16 ≤ k
    · exact micDefined_of_16 _ h
    · have h8 : 8 ≤ k := hk
      have : k = 8 ∨ k = 9 ∨ k = 10 ∨ k = 11 ∨ k = 12 ∨ k = 13 ∨ k = 14 ∨ k = 15 := by omega
      rcases this with rfl | rfl | rfl | rfl | rfl | rfl | rfl | rfl <;> decide +kernel
  emptyWhenNone := by intro h; cases h
  rxDefined := by
    intro _
    refine ⟨?_, by decide +kernel⟩
    intro r _
    cases r with
    | nonce j => exact (by decide +kernel : ∀ j, (heldPending (.wr 32 0 7)).frfDefined (.nonce j) = true) j
    | iv j => exact (by decide +kernel : ∀ j, (heldPending (.wr 32 0 7)).frfDefined (.iv j) = true) j
    | _ => decide +kernel
  rxBorrowed := by
    intro _ _
    refine ⟨by decide +kernel, ?_⟩
    have hall : ∀ a, a < 121 → (Memory.read (heldPending (.wr 32 0 7)).fm a).isSome = true := by decide +kernel
    intro a _ h2
    exact hall a h2
  statusForm := by decide +kernel
  faultRecorded := by intro f h; cases h
  versionForm := by decide +kernel

theorem witness_EveryStepKeepsTheInvariant :
    (heldPending (.wr 32 0 7)).Inv ∧ step (heldPending (.wr 32 0 7)) = .next (after (step (heldPending (.wr 32 0 7)))) :=
  ⟨heldM2_inv, eq_next_after (by decide +kernel)⟩

/-- heldM2 classified, with a SER pending. -/
def classified : State := { heldPending (.wr 32 0 2) with cls := .withUnverifiedMic }

theorem witness_EveryStepKeepsClassCurrent :
    classified.params.Legal ∧ classified.ClassCurrent ∧ classified.cls ≠ .none ∧
    step classified = .next (after (step classified)) ∧ (after (step classified)).cls ≠ .none := by
  refine ⟨by decide, ?_, by decide, eq_next_after (by decide +kernel), by decide +kernel⟩
  intro _
  unfold State.ready
  decide +kernel

/-- heldM2 with F_MIC4, which is not defined, holding another value. -/
def otherMic : State := { heldPending (.wr 32 0 7) with mic := heldM2.mic.set 4 0x12345678 }

theorem witness_NoStepDependsOnAnUndefinedValue :
    (heldPending (.wr 32 0 7)).Inv ∧ (heldPending (.wr 32 0 7)).agree otherMic ∧ otherMic ≠ heldPending (.wr 32 0 7) := by
  refine ⟨heldM2_inv, ⟨rfl, fun _ _ => rfl, fun _ _ => rfl, ?_⟩, by decide +kernel⟩
  decide +kernel

/-- The last byte of the view was never written; TX_CAP exact. -/
theorem witness_SerializeOfAnUndefinedViewByteEndsTheRun :
    let s := { output 121 121 with fm := cellsFrom 0 (frameM2.take 120) }
    s.ready .ser ∧ s.ready .serz ∧ 121 = 83 + s.micLen + s.kdLen ∧ 121 = s.txCap ∧ s.txBase + 121 ≤ s.params.fmBytes ∧
    s.kdAddr + s.kdLen ≤ s.params.fmBytes ∧ s.viewApart s.txBase 121 ∧
    s.kdAddr ≤ 120 ∧ 120 < s.kdAddr + s.kdLen ∧ Memory.read s.fm 120 = none := by
  unfold State.ready State.viewApart; decide +kernel

end Sys2Proof.Tests
end

section
/-! PROOFS. What a command and a step can commit, as two inductive relations with one named case each, and the two
lemmas that tie them to `exec` and `step`. Every statement about all steps is proved by cases on `StepEffect`. -/

namespace Sys2Proof.Machine

/-! ### Decoding -/

/-- A word that decodes to a command is the command's word: no bit of it is free (R92, R95). -/
theorem eq_encode_of_decode {w : Word} {i : Instr} (h : decode w = .ok i) : w = encode i := by
  have hsplit : w = CommandWord.reserved w ++ BitVec.ofBool (CommandWord.clr w) ++ CommandWord.op w := by
    apply BitVec.eq_of_getLsbD_eq
    intro j hj
    simp only [CommandWord.reserved, CommandWord.clr, CommandWord.op, BitVec.getLsbD_append,
      BitVec.getLsbD_extractLsb', BitVec.getLsbD_ofBool]
    by_cases h4 : j < 4
    · simp [h4]
    · by_cases h5 : j = 4
      · simp [h5]
      · have hpos : 5 + (j - 4 - 1) = j := by omega
        simp [h4, show ¬(j - 4 < 1) by omega, show j - 4 - 1 < 27 by omega, hpos]
  have htable : ∀ (op : BitVec 4) (clr : Bool), decodeOp op clr = .ok i → clr = i.clr ∧ op = i.op := by
    cases i <;> decide
  unfold decode at h
  split at h
  · cases h
  · rename_i hres
    obtain ⟨hclr, hop⟩ := htable _ _ h
    rw [hsplit, not_not.mp hres, hclr, hop, encode]

/-! ### What a command commits -/

/-- The bytes SER and SERZ write are at most L = 83 + F_MICLEN + F_KDLEN many (R63, R111). -/
theorem State.length_image_le (s : State) (clear : Bool) {kd : List Byte} (h : s.keyData = some kd) :
    (s.image clear kd).length ≤ s.imageLen := by
  have hkd : kd.length = s.kdLen := Memory.length_of_readBytes h
  have hmic : (imageMic clear s.micLen s.keyMic).length ≤ s.micLen := by
    cases clear with
    | true => simp [imageMic]
    | false => simp [imageMic, State.keyMic]
  simp only [State.image, frameImage, State.imageLen, List.length_append, List.length_cons, List.length_nil,
    length_beBytes, length_bytesOfWords, Vector.length_toList, List.length_replicate, hkd]
  omega

/-- The states command `i` can leave when it goes on from `s` (R113 to R118, R151, R163, R164, R190): one case per
way to end, with what the checks before it established. -/
inductive ExecEffect (s : State) : Instr → State → Prop
  /-- A FAULT commits nothing but its bit and STATUS (R196). -/
  | fault (i : Instr) (f : FaultCode) (d : Byte) : ExecEffect s i (s.raiseFault i.op f d)
  | parseFormat (d : Byte) : ExecEffect s .parse (s.invalidateFrf.raiseError (Instr.op .parse) .format d)
  | parseOk (b : List Byte) (r : KeyFrame) (hms : s.cfg.micSize.toNat ≤ s.params.maxMic)
      (hrx : s.rxBase + s.rxLen ≤ s.params.fmBytes) (hb : Memory.readBytes s.fm s.rxBase s.rxLen = some b)
      (hr : decodeFrame b s.cfg.micSize.toNat = .ok r) :
      ExecEffect s .parse ((s.loadFrame r s.cfg.micSize.toNat s.rxBase).finishOk (Instr.op .parse))
  /-- SER, SERZ and PATCHMIC write bytes inside FM and nothing else (R63). -/
  | writeFm (i : Instr) (a : Nat) (bs : List Byte) (hfit : a + bs.length ≤ s.params.fmBytes) :
      ExecEffect s i (State.finishOk { s with fm := Memory.writeBytes s.fm a bs } i.op)
  | updlen (horigin : s.origin = .tx) (sum : Nat) : ExecEffect s .updlen
      (State.finishOk { s with
        frf := { s.frf with bodylen := BitVec.ofNat 16 sum }
        frfWdef0 := setBit s.frfWdef0 (frfIndex .bodylen)
        cls := .none } (Instr.op .updlen))
  | kdv : ExecEffect s .kdv
      (State.finishOk { s with version := kdv s.params s.frf.desc s.cfg.prot, vvalid := true } (Instr.op .kdv))
  | rccmpOk : ExecEffect s .rccmp (s.finishOk (Instr.op .rccmp))
  | rccmpReplay : ExecEffect s .rccmp (s.raiseError (Instr.op .rccmp) .admReplay 8)
  | validateFails (c : ErrorCode) (n : Byte) :
      ExecEffect s .validate (State.raiseError { s with cls := .none } (Instr.op .validate) c n)
  | validateOk (hneeds : s.firstUndefined validateOperands = none) (c : Classification) :
      ExecEffect s .validate (State.finishOk { s with cls := c } (Instr.op .validate))
  | discard : ExecEffect s .discard (s.invalidateFrf.finishOk (Instr.op .discard))

/-- SER and SERZ fault, end the run, or write the image. -/
theorem execEffect_of_serialize {i : Instr} {needs : List Operand} {clear : Bool} {s t : State}
    (h : conclude i.op s (serializeOutcome needs clear s) = .next t) : ExecEffect s i t := by
  rcases serializeOutcome_cases needs clear s with
    ⟨idx, -, ho⟩ | ⟨-, ⟨-, ho⟩ | ⟨-, hfit, ⟨-, ho⟩ | ⟨-, ⟨-, ho⟩ | ⟨-, ⟨-, ho⟩ | ⟨kd, hkd, ho⟩⟩⟩⟩⟩ <;> rw [ho] at h
  case inr.inr.inr.inr.inl => cases h
  case inr.inr.inr.inr.inr =>
    cases h
    have hlen := s.length_image_le clear hkd
    exact .writeFm i _ _ (by omega)
  all_goals cases h; exact .fault i _ _

/-- Every command that goes on does one of these. -/
theorem execEffect_of_exec {i : Instr} {s t : State} (h : exec i s = .next t) : ExecEffect s i t := by
  rw [exec_eq_conclude] at h
  cases i with
  | parse =>
    rcases parseOutcome_cases s with
      ⟨_, -, ho⟩ | ⟨-, ⟨-, ho⟩ | ⟨hms, ⟨-, ho⟩ | ⟨hrx, ⟨-, ho⟩ | ⟨b, d, -, -, ho⟩ | ⟨b, r, hb, hr, ho⟩⟩⟩⟩ <;>
      simp only [outcomeOf, ho] at h <;> cases h
    · exact .fault _ _ _
    · exact .fault _ _ _
    · exact .fault _ _ _
    · exact .parseFormat _
    · exact .parseOk b r hms hrx hb hr
  | ser => exact execEffect_of_serialize h
  | serz => exact execEffect_of_serialize h
  | updlen =>
    rcases updlenOutcome_cases s with ⟨-, ho⟩ | ⟨htx, ⟨_, -, ho⟩ | ⟨-, ⟨-, ho⟩ | ⟨-, ho⟩⟩⟩ <;>
      simp only [outcomeOf, ho] at h <;> cases h
    · exact .fault _ _ _
    · exact .fault _ _ _
    · exact .fault _ _ _
    · exact .updlen htx _
  | patchmic =>
    rcases patchmicOutcome_cases s with ⟨_, -, ho⟩ | ⟨-, ⟨-, ho⟩ | ⟨-, hfit, ⟨-, ho⟩ | ⟨-, ho⟩⟩⟩ <;>
      simp only [outcomeOf, ho] at h <;> cases h
    · exact .fault _ _ _
    · exact .fault _ _ _
    · exact .fault _ _ _
    · have hlen : s.keyMic.length ≤ s.micLen := by simp [State.keyMic]
      exact .writeFm _ _ _ (by omega)
  | kdv =>
    rcases kdvOutcome_cases s with ⟨_, -, ho⟩ | ⟨-, ho⟩ <;> simp only [outcomeOf, ho] at h <;> cases h
    · exact .fault _ _ _
    · exact .kdv
  | rccmp =>
    rcases rccmpOutcome_cases s with ⟨_, -, ho⟩ | ⟨-, ⟨-, ho⟩ | ⟨-, ho⟩⟩ <;>
      simp only [outcomeOf, ho] at h <;> cases h
    · exact .fault _ _ _
    · exact .rccmpOk
    · exact .rccmpReplay
  | validate =>
    rcases validateOutcome_cases s with ⟨_, -, ho⟩ | ⟨hn, ⟨c, n, -, ho⟩ | ⟨c, -, ho⟩⟩ <;>
      simp only [outcomeOf, ho] at h <;> cases h
    · exact .fault _ _ _
    · exact .validateFails c n
    · exact .validateOk hn c
  | discard =>
    cases h
    exact .discard

/-! ### What a step commits -/

/-- The states a write outside CMD can leave (R37, R42, R43, R62, R76). -/
inductive WriteEffect (s : State) (d : Word) : HostReg → State → Prop
  | ignored (reg : HostReg) : WriteEffect s d reg s
  | cfg (r : CfgReg) : WriteEffect s d (.cfg r) (s.writeCfg r d)
  /-- RX_WRITE or MIC_CAPACITY: the write of an FRF word is ignored but for its FAULT bit (R37). -/
  | frfIgnored (r : FrfReg) (bit : Nat) : WriteEffect s d (.frf r) { s with fault := setBit s.fault bit }
  | frf (r : FrfReg) (horigin : s.origin ≠ .rx)
      (hfits : ¬(r = .miclen ∧ s.params.maxMic < (d.setWidth 16).toNat)) :
      WriteEffect s d (.frf r) (s.acceptFrf r d)
  | mic (k : Fin 16) : WriteEffect s d (.mic k) (s.writeMic k d)
  | window (a : Nat) : WriteEffect s d (.fm a) { s with fm := Memory.writeBytes s.fm a (bytesOfWord d) }
  | borrow (a : Nat) :
      WriteEffect s d (.fm a) (State.borrow { s with fm := Memory.writeBytes s.fm a (bytesOfWord d) })

/-- Every write outside CMD does one of these. -/
theorem writeEffect_writeReg (s : State) (reg : HostReg) (d : Word) : WriteEffect s d reg (s.writeReg reg d) := by
  rcases writeReg_cases s reg d with ho | ⟨r, rfl, ho⟩ | ⟨r, rfl, ho⟩ | ⟨k, rfl, ho⟩ | ⟨a, rfl, ho⟩ <;> rw [ho]
  · exact .ignored reg
  · exact .cfg r
  · rcases writeFrf_cases s r d with ⟨-, hw⟩ | ⟨hrx, ⟨-, -, hw⟩ | ⟨hfits, hw⟩⟩ <;> rw [hw]
    · exact .frfIgnored r _
    · exact .frfIgnored r _
    · exact .frf r hrx hfits
  · exact .mic k
  · rcases writeWindow_cases s a d with ⟨-, hw⟩ | ⟨-, hw⟩ <;> rw [hw]
    · exact .window a
    · exact .borrow a

/-- The state with the first pending event taken: what that event acts on. -/
def State.withHost (s : State) (rest : List HostEvent) : State := { s with host := rest }

/-- The states a step can leave when it goes on (R45, R68, R23, R94, R42, R220). -/
inductive StepEffect (s : State) : State → Prop
  | idle (h : s.host = []) : StepEffect s s
  | reset (rest : List HostEvent) (h : s.host = .reset :: rest) : StepEffect s (s.withHost rest).resetInput
  | read (rest : List HostEvent) (off : Nat) (h : s.host = .rd 32 off :: rest) :
      StepEffect s ((s.withHost rest).hostRead off)
  | command (rest : List HostEvent) (i : Instr) (h : s.host = .wr 32 0 (encode i) :: rest) (t : State)
      (ht : ExecEffect (s.withHost rest) i t) : StepEffect s t
  | illegal (rest : List HostEvent) (w : Word) (h : s.host = .wr 32 0 w :: rest) :
      StepEffect s ((s.withHost rest).raiseFault (CommandWord.op w) .illegalCmd 0)
  | write (rest : List HostEvent) (off : Nat) (d : Word) (h : s.host = .wr 32 off d :: rest) (h4 : off % 4 = 0)
      (t : State) (ht : WriteEffect (s.withHost rest) d (regAt s.params off) t) : StepEffect s t

/-- Every step that goes on does one of these. -/
theorem stepEffect_of_step {s t : State} (h : step s = .next t) : StepEffect s t := by
  rcases step_eq_next h with ⟨hh, rfl⟩ | ⟨e, rest, hh, ⟨rfl, rfl⟩ | ⟨off, rfl, -, -, rfl⟩ | ⟨w, i, rfl, hw, he⟩ |
    ⟨w, _, rfl, -, rfl⟩ | ⟨off, d, rfl, h4, -, -, rfl⟩⟩
  · exact .idle hh
  · exact .reset rest hh
  · exact .read rest off hh
  · rw [eq_encode_of_decode hw] at hh
    exact .command rest i hh t (execEffect_of_exec he)
  · exact .illegal rest w hh
  · exact .write rest off d hh h4 _ (writeEffect_writeReg _ _ _)

end Sys2Proof.Machine
end

section
/-! PROOFS. The invariant of the machine's state: one lemma per update of State that keeps it, and O57 and O56 from
them. An update that touches no clause of `State.Inv` keeps every field of the proof as it stands. -/

namespace Sys2Proof.Machine

/-! ### Definedness and sizes -/

/-- The bits of 2^n - 1 are those below n: what FRF_WDEF1 holds after a PARSE (R113). -/
theorem getLsbD_ofNat_two_pow_sub_one {w n k : Nat} :
    (BitVec.ofNat w (2 ^ n - 1)).getLsbD k = (decide (k < w) && decide (k < n)) := by
  rw [BitVec.getLsbD_ofNat, Nat.testBit_two_pow_sub_one]

/-- A frame's 25 FRF words have the bits 0..24 of FRF_WDEF0 (R35, R39). -/
theorem frfIndex_lt (r : FrfReg) : frfIndex r < 25 := by
  cases r with
  | nonce j => simp only [frfIndex]; omega
  | iv j => simp only [frfIndex]; omega
  | _ => decide

/-- No two FRF words share a word index: each is reached at its own offset (R35). -/
theorem frfIndex_injective : Function.Injective frfIndex := by
  intro q r h
  have hreg : HostReg.frf q = .frf r := by
    rw [← regAt_frfOffset .default q, ← regAt_frfOffset .default r, frfOffset, frfOffset, h]
  exact HostReg.frf.inj hreg

/-- No two CFG registers share a CFG_WDEF bit: each is reached at its own offset (R26). -/
theorem cfgIndex_injective : Function.Injective cfgIndex := by
  intro q r h
  have hreg : HostReg.cfg q = .cfg r := by
    rw [← regAt_cfgOffset .default q, ← regAt_cfgOffset .default r, cfgOffset, cfgOffset, h]
  exact HostReg.cfg.inj hreg

/-- After an FRF word's bit is set, it is defined and the others are as they were (R39). -/
theorem getLsbD_setBit_frfIndex (v : BitVec 25) (r q : FrfReg) :
    (setBit v (frfIndex r)).getLsbD (frfIndex q) = (v.getLsbD (frfIndex q) || decide (q = r)) := by
  rw [getLsbD_setBit, decide_eq_true (frfIndex_lt r), Bool.true_and]
  simp only [frfIndex_injective.eq_iff, eq_comm]

/-- When F_KDADDR's bit is cleared, the others are as they were (R76). -/
theorem getLsbD_clearBit_frfIndex (v : BitVec 25) {r q : FrfReg} (h : q ≠ r) :
    (clearBit v (frfIndex r)).getLsbD (frfIndex q) = v.getLsbD (frfIndex q) := by
  have hne : frfIndex r ≠ frfIndex q := fun he => h (frfIndex_injective he).symm
  simp [getLsbD_clearBit, hne]

/-- PARSE defines every FRF word (R113). -/
@[simp] theorem State.loadFrame_frfDefined (s : State) (r : KeyFrame) (ms base : Nat) (q : FrfReg) :
    (s.loadFrame r ms base).frfDefined q = true := by
  have hall : ∀ k, k < 25 → (0x01FFFFFF : BitVec 25).getLsbD k = true := by decide
  exact hall _ (frfIndex_lt q)

/-- PARSE defines the F_MIC words the frame's MIC reaches and no other (R113). -/
theorem State.loadFrame_micDefined (s : State) (r : KeyFrame) (ms base k : Nat) :
    (s.loadFrame r ms base).micDefined k = (decide (k < 16) && decide (k < wordsFor ms)) :=
  getLsbD_ofNat_two_pow_sub_one

/-- F_MICLEN is MIC_SIZE after a PARSE (R113). -/
theorem State.loadFrame_micLen (s : State) (r : KeyFrame) {ms : Nat} (base : Nat) (h : ms < 65536) :
    (s.loadFrame r ms base).micLen = ms := by
  simp only [State.micLen, State.loadFrame_frf, frfOfFrame, BitVec.toNat_ofNat]
  omega

/-- A frame that decodes fills its buffer exactly, and its fields are those at the offsets of R80 (R110). -/
theorem decodeFrame_eq_ok {b : List Byte} {ms : Nat} {r : KeyFrame} (h : decodeFrame b ms = .ok r) :
    r = frameFields b ms ∧ b.length = 83 + ms + keyDataLenOf b ms := by
  unfold decodeFrame at h
  split at h
  · cases h
  split at h
  · cases h
  split at h
  · cases h
  split at h
  · cases h
  split at h
  · cases h
  cases h
  exact ⟨rfl, by omega⟩

/-- The key data of a frame that was parsed from `base` is the end of its buffer (R76, R113). -/
theorem State.loadFrame_view {s : State} {b : List Byte} {r : KeyFrame} {ms base : Nat}
    (hr : decodeFrame b ms = .ok r) (hb : base + b.length < 2 ^ 32) :
    (s.loadFrame r ms base).kdAddr = base + (83 + ms) ∧
    (s.loadFrame r ms base).kdAddr + (s.loadFrame r ms base).kdLen = base + b.length := by
  obtain ⟨rfl, hlen⟩ := decodeFrame_eq_ok hr
  have hkdl : keyDataLenOf b ms < 65536 := by
    have hbe := be_lt (slice b (81 + ms) 2)
    have hsl : (slice b (81 + ms) 2).length ≤ 2 := by rw [length_slice]; omega
    calc keyDataLenOf b ms < 256 ^ (slice b (81 + ms) 2).length := hbe
      _ ≤ 256 ^ 2 := Nat.pow_le_pow_right (by decide) hsl
  simp only [State.kdAddr, State.kdLen, State.loadFrame_frf, frfOfFrame, frameFields, BitVec.toNat_ofNat]
  omega

/-! ### Updates that keep the invariant -/

/-- The pending events are no part of the invariant. -/
theorem State.Inv.withHost {s : State} (h : s.Inv) (rest : List HostEvent) : (s.withHost rest).Inv := { h with }

theorem State.Inv.hostRead {s : State} (h : s.Inv) (off : Nat) : (s.hostRead off).Inv := { h with }

theorem State.Inv.finishOk {s : State} (h : s.Inv) (l : BitVec 4) : (s.finishOk l).Inv :=
  { h with
    statusForm := ⟨nofun, fun _ => by simp [statusOk]⟩
    faultRecorded := nofun }

theorem State.Inv.raiseError {s : State} (h : s.Inv) (l : BitVec 4) (e : ErrorCode) (d : Byte) :
    (s.raiseError l e d).Inv :=
  { h with
    statusForm := ⟨nofun, fun _ => by simp [statusBad]⟩
    faultRecorded := nofun }

/-- The taking of a FAULT records it (R196). -/
theorem State.Inv.raiseFault {s : State} (h : s.Inv) (l : BitVec 4) (f : FaultCode) (d : Byte) :
    (s.raiseFault l f d).Inv :=
  { h with
    statusForm := ⟨nofun, fun _ => by simp [statusBad]⟩
    faultRecorded := fun g hg => by
      have hfg : f = g := by simpa [statusBad] using hg
      subst hfg
      have hlt : faultBit f < 9 := by cases f <;> decide
      simp [getLsbD_setBit, hlt] }

/-- FAULT bits set by a host write take none away (R25). -/
theorem State.Inv.setFault {s : State} (h : s.Inv) (bit : Nat) :
    State.Inv { s with fault := setBit s.fault bit } :=
  { h with faultRecorded := fun f hf => getLsbD_setBit_of_true bit (h.faultRecorded f hf) }

/-- The reset state of legal parameters has the invariant (R44). -/
theorem State.Inv.resetWith {p : Params} (h : p.Legal) : (State.resetWith p).Inv where
  legal := h
  fmCanonical := List.Pairwise.nil
  fmBounded := nofun
  micLenFits := Nat.zero_le _
  micBitsFit := fun _ _ => BitVec.getLsbD_zero
  emptyWhenNone := fun _ => ⟨rfl, rfl, rfl⟩
  rxDefined := nofun
  rxBorrowed := nofun
  statusForm := ⟨fun _ => rfl, nofun⟩
  faultRecorded := nofun
  versionForm := ⟨fun _ => rfl, Nat.zero_le _⟩

theorem State.Inv.resetInput {s : State} (h : s.Inv) : s.resetInput.Inv := { State.Inv.resetWith h.legal with }

/-- The frame invalidated: nothing is defined, so nothing is required (R118). -/
theorem State.Inv.invalidateFrf {s : State} (h : s.Inv) : s.invalidateFrf.Inv :=
  { h with
    micBitsFit := fun _ _ => BitVec.getLsbD_zero
    emptyWhenNone := fun _ => ⟨rfl, rfl, rfl⟩
    rxDefined := nofun
    rxBorrowed := nofun }

/-- Bytes written inside FM: no byte leaves FM and none becomes undefined (R60, R61). -/
theorem State.Inv.writeFm {s : State} (h : s.Inv) {a : Nat} {bs : List Byte}
    (hfit : a + bs.length ≤ s.params.fmBytes) : State.Inv { s with fm := Memory.writeBytes s.fm a bs } :=
  { h with
    fmCanonical := Memory.wf_writeBytes h.fmCanonical a bs
    fmBounded := Memory.bounded_writeBytes h.fmBounded (.inr hfit)
    rxBorrowed := fun ho hd => by
      obtain ⟨hin, hdef⟩ := h.rxBorrowed ho hd
      exact ⟨hin, fun x h1 h2 => Memory.isSome_read_writeBytes (hdef x h1 h2) a bs⟩ }

/-- The BORROW event leaves F_KDADDR undefined and every other FRF word as it was (R76). -/
theorem State.Inv.borrow {s : State} (h : s.Inv) : s.borrow.Inv :=
  { h with
    emptyWhenNone := fun ho => by
      obtain ⟨h0, h1, -⟩ := h.emptyWhenNone ho
      exact ⟨by rw [State.borrow_frfWdef0, h0]; decide, h1, rfl⟩
    rxDefined := fun ho => by
      obtain ⟨hfrf, hmic⟩ := h.rxDefined ho
      refine ⟨fun r hr => ?_, hmic⟩
      exact (getLsbD_clearBit_frfIndex s.frfWdef0 hr).trans (hfrf r hr)
    rxBorrowed := fun _ hd => by
      simp [State.frfDefined, getLsbD_clearBit] at hd
    faultRecorded := fun f hf => getLsbD_setBit_of_true borrowBit (h.faultRecorded f hf) }

/-- VERSION is KDV's result (R151, R152). -/
theorem State.Inv.kdv {s : State} (h : s.Inv) (p : Params) (d : Byte) (prot : Word) :
    State.Inv { s with version := kdv p d prot, vvalid := true } :=
  { h with versionForm := ⟨nofun, kdv_le_three p d prot⟩ }

/-- CLASS cleared: every clause that speaks of it wants NONE. -/
theorem State.Inv.clearCls {s : State} (h : s.Inv) : State.Inv { s with cls := .none } :=
  { h with
    emptyWhenNone := fun ho => by
      obtain ⟨h0, h1, -⟩ := h.emptyWhenNone ho
      exact ⟨h0, h1, rfl⟩ }

/-- CLASS may say anything of a frame that is there (R37). -/
theorem State.Inv.classify {s : State} (h : s.Inv) (ho : s.origin ≠ .none) (c : Classification) :
    State.Inv { s with cls := c } :=
  { h with emptyWhenNone := fun hn => absurd hn ho }

/-- A frame VALIDATE finds its operands in is there: with ORIGIN = NONE F_DESC is undefined (R39). -/
theorem State.Inv.origin_ne_none {s : State} (h : s.Inv) (hn : s.firstUndefined validateOperands = none) :
    s.origin ≠ .none := by
  intro ho
  have hdesc : s.frfDefined .desc = true :=
    (s.firstUndefined_eq_none_iff _).mp hn (.frf .desc) (by decide)
  simp [State.frfDefined, (h.emptyWhenNone ho).1] at hdesc

/-- UPDLEN works on a Tx frame, of which the invariant asks no FRF word (R116). -/
theorem State.Inv.updlen {s : State} (h : s.Inv) (ho : s.origin = .tx) (n : Half) :
    State.Inv { s with
      frf := { s.frf with bodylen := n }, frfWdef0 := setBit s.frfWdef0 (frfIndex .bodylen), cls := .none } :=
  { h with
    emptyWhenNone := fun hn => by cases ho.symm.trans hn
    rxDefined := fun hr => by cases ho.symm.trans hr
    rxBorrowed := fun hr => by cases ho.symm.trans hr }

theorem State.Inv.writeCfg {s : State} (h : s.Inv) (r : CfgReg) (d : Word) : (s.writeCfg r d).Inv :=
  { h with
    emptyWhenNone := fun ho => by
      obtain ⟨h0, h1, hc⟩ := h.emptyWhenNone ho
      exact ⟨h0, h1, by simp [hc]⟩ }

/-- An accepted FRF write makes no Rx frame, and F_MICLEN stays a size the MIC register holds (R37). -/
theorem State.Inv.acceptFrf {s : State} (h : s.Inv) {r : FrfReg} {d : Word} (ho : s.origin ≠ .rx)
    (hfits : ¬(r = .miclen ∧ s.params.maxMic < (d.setWidth 16).toNat)) : (s.acceptFrf r d).Inv := by
  have htx : (s.acceptFrf r d).origin = .tx := by
    cases hs : s.origin <;> simp_all [originAfterWrite]
  exact { h with
    micLenFits := by
      by_cases hr : r = .miclen
      · subst hr
        exact Nat.le_of_not_lt (fun hlt => hfits ⟨rfl, hlt⟩)
      · have hsame : (s.acceptFrf r d).micLen = s.micLen := by
          simp only [State.micLen, State.acceptFrf_frf]
          cases r with
          | miclen => exact absurd rfl hr
          | _ => rfl
        exact hsame ▸ h.micLenFits
    emptyWhenNone := fun hn => by cases htx.symm.trans hn
    rxDefined := fun hr => by cases htx.symm.trans hr
    rxBorrowed := fun hr => by cases htx.symm.trans hr }

/-- ORIGIN is RX after an accepted write exactly when it was before, and never NONE (R37). -/
theorem originAfterWrite_eq_rx {o : Origin} : originAfterWrite o = .rx ↔ o = .rx := by
  cases o <;> simp [originAfterWrite]

theorem originAfterWrite_ne_none (o : Origin) : originAfterWrite o ≠ .none := by
  cases o <;> simp [originAfterWrite]

/-- A written F_MIC word exists, so its bit of FRF_WDEF1 may be set (R38, R39). -/
theorem State.Inv.writeMic {s : State} (h : s.Inv) {k : Fin 16} (hk : 4 * k.val < s.params.maxMic) (d : Word) :
    (s.writeMic k d).Inv :=
  { h with
    micBitsFit := fun j hj => by
      have hmul : s.params.maxMic % 4 = 0 := h.legal.1.1
      have hne : k.val ≠ j := by
        have hj' : s.params.maxMic / 4 ≤ j := hj
        omega
      have hold : s.frfWdef1.getLsbD j = false := h.micBitsFit j hj
      simp [State.micDefined, getLsbD_setBit, hold, hne]
    emptyWhenNone := fun hn => absurd hn (originAfterWrite_ne_none _)
    rxDefined := fun hr => by
      obtain ⟨hfrf, hmic⟩ := h.rxDefined (originAfterWrite_eq_rx.mp hr)
      exact ⟨hfrf, fun j hj => getLsbD_setBit_of_true k.val (hmic j hj)⟩
    rxBorrowed := fun hr => h.rxBorrowed (originAfterWrite_eq_rx.mp hr) }

/-- A parsed frame: every word is defined, its MIC fits, and its key data lies in the buffer it came from, which was
read and so is defined (R39, R76, R113). -/
theorem State.Inv.loadFrame {s : State} (h : s.Inv) {b : List Byte} {r : KeyFrame} {ms : Nat}
    (hms : ms ≤ s.params.maxMic) (hrx : s.rxBase + s.rxLen ≤ s.params.fmBytes)
    (hb : Memory.readBytes s.fm s.rxBase s.rxLen = some b) (hr : decodeFrame b ms = .ok r) :
    (s.loadFrame r ms s.rxBase).Inv := by
  obtain ⟨⟨hmul, -, hmic⟩, ⟨-, -, hfm⟩, -⟩ := h.legal
  have hlen : b.length = s.rxLen := Memory.length_of_readBytes hb
  have hml : (s.loadFrame r ms s.rxBase).micLen = ms := s.loadFrame_micLen r s.rxBase (by omega)
  obtain ⟨hka, hend⟩ := s.loadFrame_view (base := s.rxBase) hr (by omega)
  rw [hlen] at hend
  exact { h with
    micLenFits := hml.symm ▸ hms
    micBitsFit := fun k hk => by
      have hk' : s.params.maxMic / 4 ≤ k := hk
      have hout : ¬k < wordsFor ms := by
        unfold wordsFor
        omega
      rw [State.loadFrame_micDefined, decide_eq_false hout, Bool.and_false]
    emptyWhenNone := nofun
    rxDefined := fun _ => by
      refine ⟨fun q _ => s.loadFrame_frfDefined r ms s.rxBase q, fun k hk => ?_⟩
      rw [hml] at hk
      have hk16 : k < 16 := by
        unfold wordsFor at hk
        omega
      rw [State.loadFrame_micDefined, decide_eq_true hk16, decide_eq_true hk, Bool.and_self]
    rxBorrowed := fun _ _ => by
      refine ⟨hend.trans_le hrx, fun a h1 h2 => ?_⟩
      obtain ⟨i, rfl⟩ : ∃ i, a = s.rxBase + i := ⟨a - s.rxBase, by omega⟩
      exact (Memory.readBytes_isSome_iff s.fm s.rxBase s.rxLen).mp (by rw [hb]; rfl) i (by omega) }

/-! ### Commands, writes and steps -/

/-- Every command that goes on keeps the invariant. -/
theorem State.Inv.execEffect {i : Instr} {s t : State} (h : s.Inv) (he : ExecEffect s i t) : t.Inv := by
  cases he with
  | fault _ f d => exact h.raiseFault _ f d
  | parseFormat d => exact h.invalidateFrf.raiseError _ _ d
  | parseOk b r hms hrx hb hr => exact (h.loadFrame hms hrx hb hr).finishOk _
  | writeFm _ a bs hfit => exact (h.writeFm hfit).finishOk _
  | updlen ho sum => exact (h.updlen ho _).finishOk _
  | kdv => exact (h.kdv _ _ _).finishOk _
  | rccmpOk => exact h.finishOk _
  | rccmpReplay => exact h.raiseError _ _ _
  | validateFails c n => exact h.clearCls.raiseError _ c n
  | validateOk hn c => exact (h.classify (h.origin_ne_none hn) c).finishOk _
  | discard => exact h.invalidateFrf.finishOk _

/-- A window write of an aligned word stays inside FM, whose size is a multiple of 4 (R7, R62). -/
theorem State.Inv.window {s : State} (h : s.Inv) {off a : Nat} (h4 : off % 4 = 0)
    (ha : regAt s.params off = .fm a) (d : Word) :
    State.Inv { s with fm := Memory.writeBytes s.fm a (bytesOfWord d) } := by
  obtain ⟨rfl, hlt⟩ := regAt_eq_fm ha
  obtain ⟨-, ⟨hmul, -, -⟩, -⟩ := h.legal
  exact h.writeFm (by rw [length_bytesOfWord]; omega)

/-- Every write outside CMD keeps the invariant. -/
theorem State.Inv.writeEffect {s t : State} {off : Nat} {d : Word} (h : s.Inv) (h4 : off % 4 = 0)
    (he : WriteEffect s d (regAt s.params off) t) : t.Inv := by
  generalize hreg : regAt s.params off = reg at he
  cases he with
  | ignored => exact h
  | cfg r => exact h.writeCfg r d
  | frfIgnored r bit => exact h.setFault bit
  | frf r ho hfits => exact h.acceptFrf ho hfits
  | mic k => exact h.writeMic (regAt_eq_mic hreg).2 d
  | window a => exact h.window h4 hreg d
  | borrow a => exact (h.window h4 hreg d).borrow

/-- Settles O57: every case of `StepEffect` keeps the invariant. -/
theorem everyStepKeepsTheInvariant : Obligations.EveryStepKeepsTheInvariant := by
  intro s t h hstep
  cases stepEffect_of_step hstep with
  | idle => exact h
  | reset rest => exact (h.withHost rest).resetInput
  | read rest off => exact (h.withHost rest).hostRead off
  | command rest i _ _ he => exact (h.withHost rest).execEffect he
  | illegal rest w => exact (h.withHost rest).raiseFault _ _ _
  | write rest off d _ h4 _ he => exact (h.withHost rest).writeEffect h4 he

/-- Settles O56: the default parameters are legal, and reset classifies nothing. -/
theorem invariantHoldsAtReset : Obligations.InvariantHoldsAtReset :=
  ⟨State.Inv.resetWith (by decide), fun h => absurd rfl h⟩

end Sys2Proof.Machine
end

section
/-! PROOFS. The host's reads and writes below the FM window: what a register reads as after a write, what the words of
the read-only registers hold, and the statements about single accesses (O5 to O7, O40 to O45, O48). -/

namespace Sys2Proof.Machine

/-! ### A register read after a write -/

/-- A word cut to its low n bits and widened again is the word under the mask of those bits (R35, R42). -/
theorem setWidth_setWidth_eq_and (d : Word) (n : Nat) :
    (d.setWidth n).setWidth 32 = d &&& BitVec.ofNat 32 (2 ^ n - 1) := by
  apply BitVec.eq_of_getLsbD_eq
  intro j hj
  simp only [BitVec.getLsbD_setWidth, BitVec.getLsbD_and, getLsbD_ofNat_two_pow_sub_one, hj, decide_true,
    Bool.true_and]
  exact Bool.and_comm _ _

/-- The role a word names reads back as the word's bit 0 (R31). -/
theorem roleNumber_roleOfWord (d : Word) : (roleNumber (roleOfWord d)).setWidth 32 = d &&& 1 := by
  have hbit : d &&& 1 = (d.setWidth 1).setWidth 32 := (setWidth_setWidth_eq_and d 1).symm
  have hrole : roleNumber (roleOfWord d) = d.setWidth 1 := by
    apply BitVec.eq_of_getLsbD_eq
    intro j hj
    obtain rfl : j = 0 := by omega
    unfold roleOfWord
    cases h : d.getLsbD 0 <;> simp only [BitVec.getLsbD_setWidth, h] <;> rfl
  rw [hbit, hrole]

theorem cfgRead_cfgWrite_same (c : Cfg) (r : CfgReg) (d : Word) : cfgRead (cfgWrite c r d) r = d &&& cfgMask r := by
  cases r with
  | micSize => exact setWidth_setWidth_eq_and d 16
  | role => exact roleNumber_roleOfWord d
  | prot => exact (BitVec.and_assoc d _ _).trans (congrArg (d &&& ·) BitVec.and_self)
  | _ => exact BitVec.and_allOnes.symm

theorem cfgRead_cfgWrite_of_ne (c : Cfg) {r q : CfgReg} (d : Word) (h : q ≠ r) :
    cfgRead (cfgWrite c r d) q = cfgRead c q := by
  cases r <;> cases q <;> first | rfl | exact absurd rfl h

theorem frfRead_frfWrite_same (f : Frf) (r : FrfReg) (d : Word) : frfRead (frfWrite f r d) r = d &&& frfMask r := by
  cases r with
  | proto => exact setWidth_setWidth_eq_and d 8
  | ptype => exact setWidth_setWidth_eq_and d 8
  | desc => exact setWidth_setWidth_eq_and d 8
  | bodylen => exact setWidth_setWidth_eq_and d 16
  | keyinfo => exact setWidth_setWidth_eq_and d 16
  | keylen => exact setWidth_setWidth_eq_and d 16
  | miclen => exact setWidth_setWidth_eq_and d 16
  | kdlen => exact setWidth_setWidth_eq_and d 16
  | nonce j => exact (Vector.getElem_set_self _).trans BitVec.and_allOnes.symm
  | iv j => exact (Vector.getElem_set_self _).trans BitVec.and_allOnes.symm
  | _ => exact BitVec.and_allOnes.symm

/-- Two words of one array are apart when their numbers are (R35). -/
theorem getElem_set_of_ne {n : Nat} (v : Vector Word n) {j k : Fin n} (d : Word) (h : k ≠ j) :
    (v.set j d)[k] = v[k] :=
  Vector.getElem_set_ne _ _ (fun he => h (Fin.ext he.symm))

theorem frfRead_frfWrite_of_ne (f : Frf) {r q : FrfReg} (d : Word) (h : q ≠ r) :
    frfRead (frfWrite f r d) q = frfRead f q := by
  cases r with
  | nonce j =>
    cases q with
    | nonce k => exact getElem_set_of_ne f.nonce d (fun he => h (congrArg FrfReg.nonce he))
    | _ => rfl
  | iv j =>
    cases q with
    | iv k => exact getElem_set_of_ne f.iv d (fun he => h (congrArg FrfReg.iv he))
    | _ => rfl
  | _ => cases q <;> first | rfl | exact absurd rfl h

/-- A CFG register is defined after a write to it, and the others are as they were (R43). -/
theorem State.writeCfg_cfgDefined (s : State) (r q : CfgReg) (d : Word) :
    (s.writeCfg r d).cfgDefined q = (s.cfgDefined q || decide (q = r)) := by
  have hlt : cfgIndex r < 9 := by cases r <;> decide
  simp only [State.cfgDefined, State.writeCfg_cfgWdef, getLsbD_setBit, hlt, decide_true, Bool.true_and,
    cfgIndex_injective.eq_iff, eq_comm]

theorem State.acceptFrf_frfDefined (s : State) (r q : FrfReg) (d : Word) :
    (s.acceptFrf r d).frfDefined q = (s.frfDefined q || decide (q = r)) :=
  getLsbD_setBit_frfIndex s.frfWdef0 r q

theorem State.writeMic_micDefined (s : State) (k : Fin 16) (j : Nat) (d : Word) :
    (s.writeMic k d).micDefined j = (s.micDefined j || decide (j = k.val)) := by
  simp only [State.micDefined, State.writeMic_frfWdef1, getLsbD_setBit, k.isLt, decide_true, Bool.true_and, eq_comm]

/-- R43's list of registers whose write clears CLASS. -/
theorem clearsClass_iff (r : CfgReg) :
    clearsClass r = true ↔ r = .role ∨ r = .prot ∨ r = .lastRcHi ∨ r = .lastRcLo := by
  cases r <;> decide

/-- An accepted write to a frame that is not Rx makes it Tx (R37). -/
theorem originAfterWrite_of_ne_rx {o : Origin} (h : o ≠ .rx) : originAfterWrite o = .tx := by
  cases o with
  | rx => exact absurd rfl h
  | _ => rfl

/-- An offset below the FM window is inside the register space (R65). -/
theorem lt_registerSpace {off : Nat} (p : Params) (h : off < 0x1000) : off < 0x1000 + p.fmBytes := by omega

theorem cfgOffset_bounds (r : CfgReg) : cfgOffset r % 4 = 0 ∧ cfgOffset r ≠ 0 ∧ cfgOffset r < 0x1000 := by
  cases r <;> decide

theorem frfOffset_bounds (r : FrfReg) : frfOffset r % 4 = 0 ∧ frfOffset r ≠ 0 ∧ frfOffset r < 0x1000 := by
  have h := frfIndex_lt r
  unfold frfOffset
  omega

/-- A host write at a CFG register's offset is the write of the register. -/
theorem step_of_cfgWrite {s : State} {r : CfgReg} {d : Word} {rest : List HostEvent}
    (h : s.host = .wr 32 (cfgOffset r) d :: rest) : step s = .next ((s.withHost rest).writeCfg r d) := by
  obtain ⟨h4, h0, hlt⟩ := cfgOffset_bounds r
  rw [step_of_write h h4 (lt_registerSpace _ hlt) h0, regAt_cfgOffset]
  rfl

theorem step_of_frfWrite {s : State} {r : FrfReg} {d : Word} {rest : List HostEvent}
    (h : s.host = .wr 32 (frfOffset r) d :: rest) : step s = .next ((s.withHost rest).writeFrf r d) := by
  obtain ⟨h4, h0, hlt⟩ := frfOffset_bounds r
  rw [step_of_write h h4 (lt_registerSpace _ hlt) h0, regAt_frfOffset]
  rfl

theorem step_of_micWrite {s : State} {k : Fin 16} {d : Word} {rest : List HostEvent}
    (h : s.host = .wr 32 (0x180 + 4 * k.val) d :: rest) (hk : 4 * k.val < s.params.maxMic) :
    step s = .next ((s.withHost rest).writeMic k d) := by
  rw [step_of_write h (by omega) (by omega) (by omega), regAt_mic hk]
  rfl

/-- Settles O42: the step is `State.writeCfg`, and each clause is what that leaves. -/
theorem cfgWriteStoresDefinesAndClearsClass : Obligations.CfgWriteStoresDefinesAndClearsClass := by
  intro s r d rest h
  have hdef : ((s.withHost rest).writeCfg r d).cfgDefined r = true := by simp [State.writeCfg_cfgDefined]
  have hread : cfgRead ((s.withHost rest).writeCfg r d).cfg r = d &&& cfgMask r := cfgRead_cfgWrite_same _ r d
  refine ⟨_, step_of_cfgWrite h, hdef, fun q hq => ?_, hread, fun q hq => cfgRead_cfgWrite_of_ne _ d hq,
    fun free => ?_, ?_, ?_, rfl⟩
  · rw [State.writeCfg_cfgDefined, decide_eq_false hq, Bool.or_false]
    rfl
  · simp only [State.readReg, hdef, hread, if_true]
  · rintro rfl
    rfl
  · simp only [State.writeCfg_cls, clearsClass_iff]
    rfl

/-- The capacity test of R37 as the statements write it: the field is bits [15:0]. -/
theorem setWidth_eq_field (d : Word) : d.setWidth 16 = d.extractLsb' 0 16 :=
  BitVec.setWidth_eq_extractLsb' (by decide)

/-- Settles O43: off Rx and within MAX_MIC the step is `State.acceptFrf`. -/
theorem frfWriteIsAcceptedOffRx : Obligations.FrfWriteIsAcceptedOffRx := by
  intro s r d rest h hrx hfits
  rw [← setWidth_eq_field] at hfits
  have hstep : (s.withHost rest).writeFrf r d = (s.withHost rest).acceptFrf r d :=
    (if_neg hrx).trans (if_neg hfits)
  have hdef : ((s.withHost rest).acceptFrf r d).frfDefined r = true := by simp [State.acceptFrf_frfDefined]
  have hread : frfRead ((s.withHost rest).acceptFrf r d).frf r = d &&& frfMask r := frfRead_frfWrite_same _ r d
  have horigin : originAfterWrite s.origin = .tx := originAfterWrite_of_ne_rx hrx
  refine ⟨_, (step_of_frfWrite h).trans (congrArg _ hstep), hdef, fun q hq => ?_, hread,
    fun q hq => frfRead_frfWrite_of_ne _ d hq, fun free => ?_, ?_⟩
  · rw [State.acceptFrf_frfDefined, decide_eq_false hq, Bool.or_false]
    rfl
  · simp only [State.readReg, hdef, hread, if_true]
  · rw [← horigin]
    rfl

/-- Settles O44: the two refusals of `State.writeFrf`, each with its FAULT mask. -/
theorem frfWriteIgnoredWithItsFaultBit : Obligations.FrfWriteIgnoredWithItsFaultBit := by
  intro s r d rest h
  rw [step_of_frfWrite h, ← setWidth_eq_field]
  refine ⟨fun hrx => ?_, fun hrx hr hbig => ?_⟩
  · exact congrArg _ (if_pos hrx)
  · exact congrArg _ ((if_neg hrx).trans (if_pos ⟨hr, hbig⟩))

/-- Settles O45: the step is `State.writeMic`. -/
theorem micWriteIsAlwaysAccepted : Obligations.MicWriteIsAlwaysAccepted := by
  intro s k d rest h hk
  have horigin : originAfterWrite s.origin = if s.origin = .rx then .rx else .tx := by
    cases s.origin <;> rfl
  refine ⟨_, step_of_micWrite h hk, ?_, fun j hj => ?_, ?_, fun j hj => getElem_set_of_ne s.mic d hj, ?_⟩
  · simp [State.writeMic_micDefined]
  · rw [State.writeMic_micDefined, decide_eq_false hj, Bool.or_false]
    rfl
  · exact Vector.getElem_set_self _
  · rw [← horigin]
    rfl

/-! ### Reads -/

/-- Settles O41: each row of R22 is a register whose defined bit the read tests. -/
theorem undefinedRegistersReadAsAFreshDraw : Obligations.UndefinedRegistersReadAsAFreshDraw := by
  intro s row rest h hrow hundef
  rcases registerRows_cases hrow with ⟨r, rfl⟩ | ⟨r, rfl⟩ | ⟨k, hk, rfl⟩
  · obtain ⟨h4, -, hlt⟩ := cfgOffset_bounds r
    rw [step_of_read h h4 (lt_registerSpace _ hlt), regAt_cfgOffset]
    simp only at hundef
    simp only [State.readReg, hundef, Bool.false_eq_true, if_false]
  · obtain ⟨h4, -, hlt⟩ := frfOffset_bounds r
    rw [step_of_read h h4 (lt_registerSpace _ hlt), regAt_frfOffset]
    simp only at hundef
    simp only [State.readReg, hundef, Bool.false_eq_true, if_false]
  · simp only at h hundef
    rw [step_of_read h (by omega) (by omega), regAt_mic hk]
    simp only [State.readReg, hundef, Bool.false_eq_true, if_false]

/-- STATUS as the host reads it, field by field (R24). -/
theorem statusWord_fields (st : Status) :
    (statusWord st).getLsbD 0 = st.done ∧ (statusWord st).getLsbD 1 = st.ok ∧
    (statusWord st).extractLsb' 2 6 = 0 ∧ (statusWord st).extractLsb' 8 8 = errNumber st.err ∧
    (statusWord st).extractLsb' 16 8 = st.detail ∧ (statusWord st).extractLsb' 24 4 = st.lastop ∧
    (statusWord st).extractLsb' 28 4 = 0 := by
  unfold statusWord
  refine ⟨?_, ?_, ?_, ?_, ?_, ?_, ?_⟩
  · rw [BitVec.getLsbD_append]
    simp
  · rw [BitVec.getLsbD_append, BitVec.getLsbD_append]
    simp
  all_goals repeat rw [BitVec.extractLsb'_append_eq_of_le (by decide)]
  exacts [BitVec.extractLsb'_append_eq_right, BitVec.extractLsb'_append_eq_right, BitVec.extractLsb'_append_eq_right,
    BitVec.extractLsb'_append_eq_right, BitVec.extractLsb'_eq_self]

/-- VERSION as the host reads it, field by field (R33). -/
theorem versionWord_fields (version : Half) (vvalid : Bool) :
    (versionWord version vvalid).extractLsb' 0 16 = version ∧ (versionWord version vvalid).getLsbD 16 = vvalid ∧
    (versionWord version vvalid).extractLsb' 17 15 = 0 := by
  unfold versionWord
  refine ⟨BitVec.extractLsb'_append_eq_right, ?_, ?_⟩
  · rw [BitVec.getLsbD_append, BitVec.getLsbD_append]
    simp
  · rw [BitVec.extractLsb'_append_eq_of_le (by decide), BitVec.extractLsb'_append_eq_left]

/-- A register of n bits reads as its bits below zeros (R25, R26, R39, R42). -/
theorem extractLsb'_setWidth_fields {n : Nat} (v : BitVec n) (hn : n ≤ 32) :
    (v.setWidth 32).extractLsb' 0 n = v ∧ (v.setWidth 32).extractLsb' n (32 - n) = 0 := by
  constructor
  · rw [BitVec.extractLsb'_setWidth_of_le (by omega), BitVec.extractLsb'_eq_self]
  · apply BitVec.eq_of_getLsbD_eq
    intro j hj
    simp [BitVec.getLsbD_setWidth]

/-- Settles O40: each offset of R22 leads to its register, and each word is cut into its fields. -/
theorem statusRegistersReadAsTheirFields : Obligations.StatusRegistersReadAsTheirFields := by
  intro s rest
  have hread : ∀ off, off % 4 = 0 → off < 0x1000 → s.host = .rd 32 off :: rest →
      step s = .next (s.afterRead rest (s.readReg (Config.freshWord s.draws) (regAt s.params off))) :=
    fun off h4 hlt h => step_of_read h h4 (lt_registerSpace _ hlt)
  obtain ⟨hdone, hok, hlow, herr, hdetail, hlastop, hhigh⟩ := statusWord_fields s.status
  refine ⟨hread 0x000 rfl (by decide), fun h => ⟨_, hread 0x004 rfl (by decide) h, hdone, hok, hlow, ?_, hdetail,
      hlastop, hhigh⟩,
    fun h => ⟨_, hread 0x008 rfl (by decide) h, extractLsb'_setWidth_fields s.fault (by decide)⟩,
    fun h => ⟨_, hread 0x030 rfl (by decide) h, versionWord_fields s.version s.vvalid⟩, fun h => ?_,
    fun h => ⟨_, hread 0x038 rfl (by decide) h, extractLsb'_setWidth_fields s.cfgWdef (by decide)⟩,
    fun h => ⟨_, hread 0x1C0 rfl (by decide) h, extractLsb'_setWidth_fields s.frfWdef0 (by decide)⟩,
    fun h => ⟨_, hread 0x1C4 rfl (by decide) h, extractLsb'_setWidth_fields s.frfWdef1 (by decide)⟩, fun h => ?_⟩
  · refine Eq.trans herr ?_
    rcases s.status.err with _ | e | f
    · rfl
    · cases e <;> rfl
    · cases f <;> rfl
  · refine (hread 0x034 rfl (by decide) h).trans ?_
    have hcls : s.readReg (Config.freshWord s.draws) (regAt s.params 0x034) = (classNumber s.cls).setWidth 32 := rfl
    rw [hcls]
    cases s.cls <;> rfl
  · refine (hread 0x1C8 rfl (by decide) h).trans ?_
    have horigin : s.readReg (Config.freshWord s.draws) (regAt s.params 0x1C8) =
        (originNumber s.origin).setWidth 32 := rfl
    rw [horigin]
    cases s.origin <;> rfl

/-! ### Read-only registers and gaps -/

/-- The gaps of R22 outside the range of the F_MIC words name no register. -/
theorem fixedReg_of_gap {off : Nat}
    (h : (0x03C ≤ off ∧ off < 0x100) ∨ (0x164 ≤ off ∧ off < 0x180) ∨ 0x1CC ≤ off) :
    fixedReg off = .unmapped := by
  unfold fixedReg
  split <;> first | rfl | omega

/-- The gaps of R22, the F_MIC words that do not exist among them, name no register. -/
theorem regAt_of_gap {p : Params} {off : Nat}
    (h : (0x03C ≤ off ∧ off < 0x100) ∨ (0x164 ≤ off ∧ off < 0x180) ∨
      (0x180 + p.maxMic ≤ off ∧ off < 0x1C0) ∨ (0x1CC ≤ off ∧ off < 0x1000)) : regAt p off = .unmapped := by
  unfold regAt
  rw [if_neg (by omega)]
  split
  · rw [if_neg (by omega)]
  · exact fixedReg_of_gap (by omega)

/-- A write to a read-only register is ignored (R42). -/
theorem writeReg_of_readOnly (s : State) {off : Nat} (d : Word)
    (h : off = 0x004 ∨ off = 0x008 ∨ off = 0x030 ∨ off = 0x034 ∨ off = 0x038 ∨ off = 0x1C0 ∨ off = 0x1C4 ∨
      off = 0x1C8) : s.writeReg (regAt s.params off) d = s := by
  rcases h with rfl | rfl | rfl | rfl | rfl | rfl | rfl | rfl <;> rfl

/-- Settles O48: a read-only register ignores the write, and a gap names no register. -/
theorem readOnlyAndUnmappedAccessesDoNothing : Obligations.ReadOnlyAndUnmappedAccessesDoNothing := by
  intro s off d rest _ h4 readOnly gap
  refine ⟨fun h hoff => ?_, fun h hgap => ?_⟩
  · have hne : off ≠ 0 ∧ off < 0x1000 := by
      simp only [readOnly, gap] at hoff
      omega
    rw [step_of_write h h4 (lt_registerSpace _ hne.2) hne.1]
    rcases hoff with hro | hgap
    · exact congrArg _ (writeReg_of_readOnly (s.withHost rest) d hro)
    · rw [regAt_of_gap hgap]
      rfl
  · have hlt : off < 0x1000 := by
      simp only [gap] at hgap
      omega
    rw [step_of_read h h4 (lt_registerSpace _ hlt), regAt_of_gap hgap]
    rfl

/-! ### CMD, no event, reset -/

/-- Settles O5: a write at offset 0 reaches CMD, which runs the decoded command. -/
theorem stepRunsTheCommandWritten : Obligations.StepRunsTheCommandWritten := by
  intro s w i rest h hw
  have haccess : accessRefusal s.params 32 0 = none :=
    (accessRefusal_eq_none_iff _ _ _).mpr ⟨rfl, rfl, by omega⟩
  have hcmd : regAt s.params 0 = .cmd := (regAt_eq_cmd_iff _ _).mpr rfl
  simp only [step, hostStep, h, hostEvent, haccess, hcmd, if_true, commandWrite, hw]

/-- Settles O6: with an empty list `hostStep` answers the state itself. -/
theorem noEventMeansNoChange : Obligations.NoEventMeansNoChange := by
  intro s h
  simp only [step, hostStep, h]

/-- A window word none of whose bytes is defined reads as the free word (R27, R62). -/
theorem State.readReg_fm_of_undefined {s : State} {a : Nat} (free : Word)
    (h : ∀ i, Memory.read s.fm (a + i) = none) : s.readReg free (.fm a) = free := by
  simp only [State.readReg, State.windowByte, h]
  exact wordOfBytes_bytesOfWord free

/-- Settles O7: every defined bit is clear, so every read of a register or of FM is the free word. -/
theorem resetStateOfR44 : Obligations.ResetStateOfR44 := by
  have hcfg : ∀ r, State.reset.cfgDefined r = false := fun _ => BitVec.getLsbD_zero
  have hfrf : ∀ r, State.reset.frfDefined r = false := fun _ => BitVec.getLsbD_zero
  have hmic : ∀ k, State.reset.micDefined k = false := fun _ => BitVec.getLsbD_zero
  refine ⟨by decide, rfl, by decide, rfl, rfl, rfl, rfl, rfl, fun _ => rfl, hcfg, hfrf, hmic, fun free => ⟨rfl,
    fun r => ?_, fun r => ?_, fun k => ?_, fun a => State.readReg_fm_of_undefined free (fun _ => rfl)⟩⟩
  · simp [State.readReg, hcfg]
  · simp [State.readReg, hfrf]
  · simp [State.readReg, hmic]

end Sys2Proof.Machine
end

section
/-! PROOFS. What a command or a step leaves unchanged, by cases on `ExecEffect` and `StepEffect` (O37, O38, O50 to
O54). -/

namespace Sys2Proof.Machine

/-! ### Undefined operands -/

/-- The need checks come first in every command but UPDLEN, which tests ORIGIN before them (R197). -/
theorem outcomeOf_of_firstUndefined {i : Instr} {s : State} {idx : Byte}
    (h : s.firstUndefined (needsOf s i) = some idx) (ho : i = .updlen → s.origin = .tx) :
    outcomeOf s i = .fault .undefField idx := by
  cases i with
  | parse => simp only [outcomeOf, parseOutcome, show s.firstUndefined parseOperands = some idx from h]
  | ser => simp only [outcomeOf, serializeOutcome, show s.firstUndefined s.serOperands = some idx from h]
  | serz => simp only [outcomeOf, serializeOutcome, show s.firstUndefined serzOperands = some idx from h]
  | updlen =>
    simp only [outcomeOf, updlenOutcome, ho rfl, show s.firstUndefined updlenOperands = some idx from h]
    rfl
  | patchmic => simp only [outcomeOf, patchmicOutcome, show s.firstUndefined s.patchmicNeeds = some idx from h]
  | kdv => simp only [outcomeOf, kdvOutcome, show s.firstUndefined kdvOperands = some idx from h]
  | rccmp => simp only [outcomeOf, rccmpOutcome, show s.firstUndefined rccmpOperands = some idx from h]
  | validate => simp only [outcomeOf, validateOutcome, show s.firstUndefined validateOperands = some idx from h]
  | discard => cases h

/-- The index a statement writes for an operand is the machine's (R27). -/
theorem operandIndex_eq (x : Operand) : operandIndex x = (match x with
    | .cfg r => BitVec.ofNat 8 (cfgIndex r)
    | .frf r => BitVec.ofNat 8 (0x40 + frfIndex r)
    | .mic k => BitVec.ofNat 8 (0x80 + k)) := by
  cases x with
  | cfg r => exact congrArg (BitVec.ofNat 8) (Nat.zero_add _)
  | frf r => rfl
  | mic k => rfl

/-- Settles O37: the need checks report the operand, and its FAULT is recorded. -/
theorem firstUndefinedOperandFaults : Obligations.FirstUndefinedOperandFaults := by
  intro i s pre post x hneeds hpre hx ho
  have hfirst : s.firstUndefined (needsOf s i) = some (operandIndex x) := by
    rw [hneeds]
    exact s.firstUndefined_append_cons hpre hx
  rw [exec_eq_conclude, outcomeOf_of_firstUndefined hfirst ho, conclude_fault, operandIndex_eq]
  rfl

/-! ### What commands leave -/

/-- Settles O38: no case of `ExecEffect` touches these fields. -/
theorem noCommandWritesAHostInput : Obligations.NoCommandWritesAHostInput := by
  intro i s t h
  cases execEffect_of_exec h <;> exact ⟨rfl, rfl, rfl, rfl, rfl, rfl⟩

/-- No command takes a FAULT bit away (R25). -/
theorem ExecEffect.fault_sticky {i : Instr} {s t : State} {k : Nat} (he : ExecEffect s i t)
    (hk : s.fault.getLsbD k = true) : t.fault.getLsbD k = true := by
  cases he with
  | fault => exact getLsbD_setBit_of_true _ hk
  | _ => exact hk

/-- No write outside CMD takes a FAULT bit away (R25). -/
theorem WriteEffect.fault_sticky {s t : State} {d : Word} {reg : HostReg} {k : Nat} (he : WriteEffect s d reg t)
    (hk : s.fault.getLsbD k = true) : t.fault.getLsbD k = true := by
  cases he with
  | frfIgnored => exact getLsbD_setBit_of_true _ hk
  | borrow => exact getLsbD_setBit_of_true _ hk
  | _ => exact hk

/-- Settles O50: every case but reset only sets FAULT bits. -/
theorem faultBitsAreSticky : Obligations.FaultBitsAreSticky := by
  intro s t k h hreset hk
  cases stepEffect_of_step h with
  | reset rest hh => exact absurd hh (hreset rest)
  | command rest i _ _ he => exact he.fault_sticky hk
  | illegal rest w => exact getLsbD_setBit_of_true _ hk
  | write rest off d _ _ _ he => exact he.fault_sticky hk
  | idle => exact hk
  | read => exact hk

/-- No write outside CMD writes STATUS or VERSION (R24, R33). -/
theorem WriteEffect.outputs_eq {s t : State} {d : Word} {reg : HostReg} (he : WriteEffect s d reg t) :
    t.status = s.status ∧ t.version = s.version ∧ t.vvalid = s.vvalid := by
  cases he <;> exact ⟨rfl, rfl, rfl⟩

/-- Settles O51: no write outside CMD writes STATUS. -/
theorem onlyCommandsWriteStatus : Obligations.OnlyCommandsWriteStatus := by
  intro s t h hne
  cases stepEffect_of_step h with
  | reset rest hh => exact ⟨rest, .inl hh⟩
  | command rest i hh => exact ⟨rest, .inr ⟨_, hh⟩⟩
  | illegal rest w hh => exact ⟨rest, .inr ⟨w, hh⟩⟩
  | write rest off d _ _ _ he => exact absurd he.outputs_eq.1 hne
  | idle => exact absurd rfl hne
  | read => exact absurd rfl hne

/-- A command that leaves a CLASS other than NONE, and another one than it found, is a VALIDATE that succeeded. -/
theorem ExecEffect.classified {i : Instr} {s t : State} (he : ExecEffect s i t) (hnone : t.cls ≠ .none)
    (hne : t.cls ≠ s.cls) : i = .validate ∧ t.succeeded := by
  cases he with
  | validateOk => exact ⟨rfl, rfl, rfl⟩
  | parseFormat => exact absurd rfl hnone
  | parseOk => exact absurd rfl hnone
  | updlen => exact absurd rfl hnone
  | validateFails => exact absurd rfl hnone
  | discard => exact absurd rfl hnone
  | _ => exact absurd rfl hne

/-- A write outside CMD leaves CLASS as it was or clears it (R37, R43, R76). -/
theorem WriteEffect.cls_eq {s t : State} {d : Word} {reg : HostReg} (he : WriteEffect s d reg t) :
    t.cls = s.cls ∨ t.cls = .none := by
  cases he with
  | cfg r =>
    rw [State.writeCfg_cls]
    split
    · exact .inr rfl
    · exact .inl rfl
  | frf => exact .inr rfl
  | mic => exact .inr rfl
  | borrow => exact .inr rfl
  | _ => exact .inl rfl

/-- Settles O52: every other case keeps CLASS or clears it. -/
theorem onlyValidateClassifies : Obligations.OnlyValidateClassifies := by
  intro s t h hnone hne
  cases stepEffect_of_step h with
  | command rest i hh _ he =>
    obtain ⟨rfl, hok⟩ := he.classified hnone hne
    exact ⟨hok, rest, hh⟩
  | write rest off d _ _ _ he => exact (he.cls_eq.elim hne hnone).elim
  | reset => exact absurd rfl hnone
  | idle => exact absurd rfl hne
  | read => exact absurd rfl hne
  | illegal => exact absurd rfl hne

/-- A command that writes VERSION or VVALID is a KDV that succeeded. -/
theorem ExecEffect.version_eq {i : Instr} {s t : State} (he : ExecEffect s i t) :
    (t.version = s.version ∧ t.vvalid = s.vvalid) ∨ (i = .kdv ∧ t.succeeded) := by
  cases he with
  | kdv => exact .inr ⟨rfl, rfl, rfl⟩
  | _ => exact .inl ⟨rfl, rfl⟩

/-- Settles O53: no write outside CMD writes VERSION. -/
theorem onlyKdvWritesVersion : Obligations.OnlyKdvWritesVersion := by
  intro s t h hne
  cases stepEffect_of_step h with
  | reset rest hh => exact ⟨rest, .inl hh⟩
  | command rest i hh _ he =>
    rcases he.version_eq with ⟨hv, hvv⟩ | ⟨rfl, hok⟩
    · exact (hne.elim (· hv) (· hvv)).elim
    · exact ⟨rest, .inr ⟨hh, hok⟩⟩
  | write rest off d _ _ _ he =>
    obtain ⟨-, hv, hvv⟩ := he.outputs_eq
    exact (hne.elim (· hv) (· hvv)).elim
  | idle => exact (hne.elim (· rfl) (· rfl)).elim
  | read => exact (hne.elim (· rfl) (· rfl)).elim
  | illegal => exact (hne.elim (· rfl) (· rfl)).elim

/-- On an Rx frame no command but PARSE writes a value of the FRF or F_MIC: UPDLEN wants a Tx frame (R37, R116). -/
theorem ExecEffect.values_of_rx {i : Instr} {s t : State} (he : ExecEffect s i t) (hrx : s.origin = .rx) :
    (t.frf = s.frf ∧ t.mic = s.mic) ∨ i = .parse := by
  cases he with
  | parseOk => exact .inr rfl
  | updlen htx => cases hrx.symm.trans htx
  | _ => exact .inl ⟨rfl, rfl⟩

/-- On an Rx frame no write outside CMD writes a value of the FRF, and only that of an F_MIC word writes F_MIC. -/
theorem WriteEffect.values_of_rx {s t : State} {d : Word} {reg : HostReg} (he : WriteEffect s d reg t)
    (hrx : s.origin = .rx) : t.frf = s.frf ∧ (t.mic = s.mic ∨ ∃ k, reg = .mic k) := by
  cases he with
  | frf _ hne => exact absurd hrx hne
  | mic k => exact ⟨rfl, .inr ⟨k, rfl⟩⟩
  | _ => exact ⟨rfl, .inl rfl⟩

/-- Settles O54: of the cases on an Rx frame only PARSE, reset and F_MIC writes touch a value. -/
theorem rxFrameIsImmutableButForItsMic : Obligations.RxFrameIsImmutableButForItsMic := by
  intro s t h hrx
  cases stepEffect_of_step h with
  | reset rest hh => exact ⟨fun _ => ⟨rest, .inl hh⟩, fun _ => ⟨rest, .inl hh⟩⟩
  | command rest i hh _ he =>
    rcases he.values_of_rx hrx with ⟨hfrf, hmic⟩ | rfl
    · exact ⟨absurd hfrf, absurd hmic⟩
    · exact ⟨fun _ => ⟨rest, .inr hh⟩, fun _ => ⟨rest, .inr (.inl hh)⟩⟩
  | write rest off d hh _ _ he =>
    obtain ⟨hfrf, hmic⟩ := he.values_of_rx hrx
    refine ⟨absurd hfrf, fun hne => ?_⟩
    obtain ⟨k, hk⟩ := hmic.resolve_left hne
    obtain ⟨rfl, hlt⟩ := regAt_eq_mic hk
    exact ⟨rest, .inr (.inr ⟨_, d, by omega, by omega, hh⟩)⟩
  | idle => exact ⟨absurd rfl, absurd rfl⟩
  | read => exact ⟨absurd rfl, absurd rfl⟩
  | illegal => exact ⟨absurd rfl, absurd rfl⟩

end Sys2Proof.Machine
end

section
/-! PROOFS. O59: no step depends on a value behind a clear defined bit. Agreeing states have the same defined bits and
the same defined values; every outcome is computed from those; and every update keeps two agreeing states agreeing. -/

namespace Sys2Proof.Machine

/-! ### What agreeing states share -/

/-- A state with other values behind its defined bits. -/
def State.withValues (s : State) (c : Cfg) (f : Frf) (m : Vector Word 16) : State :=
  { s with cfg := c, frf := f, mic := m }

/-- Agreeing states differ in values alone. -/
theorem State.agree.exists_values {s t : State} (h : s.agree t) : ∃ c f m, t = s.withValues c f m :=
  ⟨t.cfg, t.frf, t.mic, h.1⟩

section SharedFields

variable {s t : State}

theorem State.agree.params_eq (h : s.agree t) : t.params = s.params := (congrArg State.params h.1).trans rfl
theorem State.agree.fm_eq (h : s.agree t) : t.fm = s.fm := (congrArg State.fm h.1).trans rfl
theorem State.agree.host_eq (h : s.agree t) : t.host = s.host := (congrArg State.host h.1).trans rfl
theorem State.agree.origin_eq (h : s.agree t) : t.origin = s.origin := (congrArg State.origin h.1).trans rfl

theorem State.agree.cfgDefined_eq (h : s.agree t) (r : CfgReg) : t.cfgDefined r = s.cfgDefined r :=
  (congrArg (State.cfgDefined · r) h.1).trans rfl
theorem State.agree.frfDefined_eq (h : s.agree t) (r : FrfReg) : t.frfDefined r = s.frfDefined r :=
  (congrArg (State.frfDefined · r) h.1).trans rfl
theorem State.agree.micDefined_eq (h : s.agree t) (k : Nat) : t.micDefined k = s.micDefined k :=
  (congrArg (State.micDefined · k) h.1).trans rfl

theorem State.agree.isDefined_eq (h : s.agree t) (x : Operand) : t.isDefined x = s.isDefined x := by
  cases x with
  | cfg r => exact h.cfgDefined_eq r
  | frf r => exact h.frfDefined_eq r
  | mic k => exact h.micDefined_eq k

/-- The need checks read defined bits alone (R27). -/
theorem State.agree.firstUndefined_eq (h : s.agree t) (xs : List Operand) :
    t.firstUndefined xs = s.firstUndefined xs := by
  induction xs with
  | nil => rfl
  | cons x xs ih => simp only [State.firstUndefined, h.isDefined_eq, ih]

/-- The words of a defined CFG register and of a defined FRF word are shared. -/
theorem State.agree.cfgRead_eq (h : s.agree t) {r : CfgReg} (hd : s.isDefined (.cfg r) = true) :
    cfgRead t.cfg r = cfgRead s.cfg r := (h.2.1 r hd).symm
theorem State.agree.frfRead_eq (h : s.agree t) {r : FrfReg} (hd : s.isDefined (.frf r) = true) :
    frfRead t.frf r = frfRead s.frf r := (h.2.2.1 r hd).symm

end SharedFields

/-! ### Values the commands read -/

/-- A field no wider than a word is determined by the word it reads as. -/
theorem setWidth_word_injective {n : Nat} (hn : n ≤ 32) {x y : BitVec n} (h : x.setWidth 32 = y.setWidth 32) :
    x = y := by
  have hcut := congrArg (BitVec.setWidth n) h
  rwa [BitVec.setWidth_setWidth_of_le _ hn, BitVec.setWidth_setWidth_of_le _ hn, BitVec.setWidth_eq,
    BitVec.setWidth_eq] at hcut

/-- The FRF is determined by its words. -/
theorem frf_eq_of_frfRead {f g : Frf} (h : ∀ r, frfRead f r = frfRead g r) : f = g := by
  have hbyte : ∀ {x y : Byte}, x.setWidth 32 = y.setWidth 32 → x = y := setWidth_word_injective (by decide)
  have hhalf : ∀ {x y : Half}, x.setWidth 32 = y.setWidth 32 → x = y := setWidth_word_injective (by decide)
  cases f
  cases g
  simp only [Frf.mk.injEq]
  exact ⟨hbyte (h .proto), hbyte (h .ptype), hhalf (h .bodylen), hbyte (h .desc), hhalf (h .keyinfo),
    hhalf (h .keylen), h .rcHi, h .rcLo, Vector.ext (fun j hj => h (.nonce ⟨j, hj⟩)),
    Vector.ext (fun j hj => h (.iv ⟨j, hj⟩)), h .rscHi, h .rscLo, hhalf (h .miclen), hhalf (h .kdlen), h .kdaddr⟩

section SharedValues

variable {s t : State}

theorem State.agree.micSize_eq (h : s.agree t) (hd : s.isDefined (.cfg .micSize) = true) :
    t.cfg.micSize = s.cfg.micSize := setWidth_word_injective (by decide) (h.cfgRead_eq hd)

theorem State.agree.rxBase_eq (h : s.agree t) (hd : s.isDefined (.cfg .rxBase) = true) : t.rxBase = s.rxBase :=
  congrArg BitVec.toNat (h.cfgRead_eq hd)

theorem State.agree.rxLen_eq (h : s.agree t) (hd : s.isDefined (.cfg .rxLen) = true) : t.rxLen = s.rxLen :=
  congrArg BitVec.toNat (h.cfgRead_eq hd)

theorem State.agree.txBase_eq (h : s.agree t) (hd : s.isDefined (.cfg .txBase) = true) : t.txBase = s.txBase :=
  congrArg BitVec.toNat (h.cfgRead_eq hd)

theorem State.agree.txCap_eq (h : s.agree t) (hd : s.isDefined (.cfg .txCap) = true) : t.txCap = s.txCap :=
  congrArg BitVec.toNat (h.cfgRead_eq hd)

theorem State.agree.role_eq (h : s.agree t) (hd : s.isDefined (.cfg .role) = true) : t.cfg.role = s.cfg.role := by
  have hnum : roleNumber t.cfg.role = roleNumber s.cfg.role :=
    setWidth_word_injective (by decide) (h.cfgRead_eq hd)
  have hinj : ∀ {q r : Role}, roleNumber q = roleNumber r → q = r := by
    intro q r
    cases q <;> cases r <;> decide
  exact hinj hnum

/-- A defined PROT is shared but for its reserved bit 7, which the host cannot see (R30). -/
theorem State.agree.prot_eq (h : s.agree t) (hd : s.isDefined (.cfg .prot) = true) :
    t.cfg.prot &&& Prot.mask = s.cfg.prot &&& Prot.mask := h.cfgRead_eq hd

theorem State.agree.lastRc_eq (h : s.agree t) (hhi : s.isDefined (.cfg .lastRcHi) = true)
    (hlo : s.isDefined (.cfg .lastRcLo) = true) : t.lastRc = s.lastRc :=
  congrArg₂ (· ++ ·) (h.cfgRead_eq hhi) (h.cfgRead_eq hlo)

theorem State.agree.replayCounter_eq (h : s.agree t) (hhi : s.isDefined (.frf .rcHi) = true)
    (hlo : s.isDefined (.frf .rcLo) = true) : t.replayCounter = s.replayCounter :=
  congrArg₂ (· ++ ·) (h.frfRead_eq hhi) (h.frfRead_eq hlo)

theorem State.agree.desc_eq (h : s.agree t) (hd : s.isDefined (.frf .desc) = true) : t.frf.desc = s.frf.desc :=
  setWidth_word_injective (by decide) (h.frfRead_eq hd)

theorem State.agree.keyinfo_eq (h : s.agree t) (hd : s.isDefined (.frf .keyinfo) = true) :
    t.frf.keyinfo = s.frf.keyinfo := setWidth_word_injective (by decide) (h.frfRead_eq hd)

theorem State.agree.keylen_eq (h : s.agree t) (hd : s.isDefined (.frf .keylen) = true) :
    t.frf.keylen = s.frf.keylen := setWidth_word_injective (by decide) (h.frfRead_eq hd)

theorem State.agree.micLen_eq (h : s.agree t) (hd : s.isDefined (.frf .miclen) = true) : t.micLen = s.micLen :=
  congrArg BitVec.toNat (setWidth_word_injective (by decide) (h.frfRead_eq hd))

theorem State.agree.kdLen_eq (h : s.agree t) (hd : s.isDefined (.frf .kdlen) = true) : t.kdLen = s.kdLen :=
  congrArg BitVec.toNat (setWidth_word_injective (by decide) (h.frfRead_eq hd))

theorem State.agree.kdAddr_eq (h : s.agree t) (hd : s.isDefined (.frf .kdaddr) = true) : t.kdAddr = s.kdAddr :=
  congrArg BitVec.toNat (h.frfRead_eq hd)

theorem State.agree.leavesFm_eq (h : s.agree t) (base len : Nat) : t.leavesFm base len = s.leavesFm base len := by
  simp only [State.leavesFm, h.params_eq]

theorem State.agree.viewMeets_eq (h : s.agree t) (hlen : s.isDefined (.frf .kdlen) = true)
    (haddr : s.isDefined (.frf .kdaddr) = true) (a n : Nat) : t.viewMeets a n = s.viewMeets a n := by
  simp only [State.viewMeets, h.kdLen_eq hlen, h.kdAddr_eq haddr]

theorem State.agree.frf_eq (h : s.agree t) (hd : ∀ r, s.isDefined (.frf r) = true) : t.frf = s.frf :=
  frf_eq_of_frfRead (fun r => h.frfRead_eq (hd r))

end SharedValues

/-- The first n words' bytes are the first 4n bytes (R38). -/
theorem take_bytesOfWords (ws : List Word) (n : Nat) :
    (bytesOfWords ws).take (4 * n) = bytesOfWords (ws.take n) := by
  induction n generalizing ws with
  | zero => simp
  | succ n ih =>
    cases ws with
    | nil => simp
    | cons w ws =>
      rw [bytesOfWords_cons, List.take_succ_cons, bytesOfWords_cons, ← ih,
        List.take_append, List.take_of_length_le (by simp), length_bytesOfWord]
      rfl

/-- The held MIC reads no F_MIC word beyond those F_MICLEN reaches (R38, R40). -/
theorem State.keyMic_eq_take (s : State) :
    s.keyMic = (bytesOfWords (s.mic.toList.take (wordsFor s.micLen))).take s.micLen := by
  have hle : s.micLen ≤ 4 * wordsFor s.micLen := by
    unfold wordsFor
    omega
  rw [← take_bytesOfWords, List.take_take, Nat.min_eq_left hle]
  rfl

/-- The held MIC is shared when F_MICLEN and the F_MIC words it reaches are defined. -/
theorem State.agree.keyMic_eq {s t : State} (h : s.agree t) (hd : s.isDefined (.frf .miclen) = true)
    (hmic : ∀ x ∈ micOperands s.micLen, s.isDefined x = true) : t.keyMic = s.keyMic := by
  have hwords : t.mic.toList.take (wordsFor s.micLen) = s.mic.toList.take (wordsFor s.micLen) := by
    refine List.ext_getElem (by simp) (fun k hk _ => ?_)
    simp only [List.length_take, Vector.length_toList, lt_inf_iff] at hk
    have hdef : s.micDefined k = true := hmic (.mic k) (List.mem_map_of_mem (List.mem_range.mpr hk.1))
    simpa using (h.2.2.2 ⟨k, hk.2⟩ hdef).symm
  rw [State.keyMic_eq_take, State.keyMic_eq_take, h.micLen_eq hd, hwords]

/-! ### PROT's reserved bit -/

/-- The mask of PROT keeps every bit but 7 (R30). -/
theorem Prot.getLsbD_and_mask (p : Word) {j : Nat} (hj : j < 32) (h7 : j ≠ 7) :
    (p &&& Prot.mask).getLsbD j = p.getLsbD j := by
  have hmask : ∀ j, j < 32 → j ≠ 7 → Prot.mask.getLsbD j = true := by decide
  rw [BitVec.getLsbD_and, hmask j hj h7, Bool.and_true]

/-- A field of PROT above its reserved bit is read alike through the mask (R30). -/
theorem Prot.extract_and_mask (p : Word) {start len : Nat} (h : 8 ≤ start) (hlen : start + len ≤ 32) :
    (p &&& Prot.mask).extractLsb' start len = p.extractLsb' start len := by
  apply BitVec.eq_of_getLsbD_eq
  intro j hj
  rw [BitVec.getLsbD_extractLsb', BitVec.getLsbD_extractLsb', Prot.getLsbD_and_mask p (by omega) (by omega)]

/-- KDV reads no reserved bit of PROT (R150). -/
theorem kdv_and_mask (p : Params) (d : Byte) (prot : Word) : kdv p d (prot &&& Prot.mask) = kdv p d prot := by
  have hbit {j : Nat} := @Prot.getLsbD_and_mask prot j
  simp only [kdv, Prot.akmKnown, Prot.pwKnown, Prot.akmType, Prot.pwTkipOrGroup, Prot.pwEnh, Prot.gdEnh,
    hbit (j := 0) (by decide) (by decide), hbit (j := 1) (by decide) (by decide),
    hbit (j := 2) (by decide) (by decide), hbit (j := 3) (by decide) (by decide),
    hbit (j := 4) (by decide) (by decide), Prot.extract_and_mask prot (start := 8) (len := 8) (by decide) (by decide)]

/-- No admission check reads the reserved bit of PROT (R160, R164). -/
theorem admissionVerdict_and_mask (p : Params) (a : Admission) :
    admissionVerdict p { a with prot := a.prot &&& Prot.mask } = admissionVerdict p a := by
  have hdesc : descCheck p a.desc (a.prot &&& Prot.mask) = descCheck p a.desc a.prot := by
    simp only [descCheck, Prot.originWpa1, Prot.getLsbD_and_mask a.prot (j := 5) (by decide) (by decide)]
  have hkeylen : keyLenCheck a.ki a.klen (a.prot &&& Prot.mask) a.sender =
      keyLenCheck a.ki a.klen a.prot a.sender := by
    simp only [keyLenCheck, Prot.tkValid, Prot.tkLen,
      Prot.getLsbD_and_mask a.prot (j := 6) (by decide) (by decide),
      Prot.extract_and_mask a.prot (start := 16) (len := 16) (by decide) (by decide)]
  simp only [admissionVerdict, hdesc, kdv_and_mask, hkeylen]

/-! ### Updates that keep two states agreeing -/

section Updates

variable {s t : State}

theorem State.agree.withHost (h : s.agree t) (rest : List HostEvent) : (s.withHost rest).agree (t.withHost rest) :=
  ⟨congrArg (State.withHost · rest) h.1, h.2⟩

theorem State.agree.finishOk (h : s.agree t) (l : BitVec 4) : (s.finishOk l).agree (t.finishOk l) :=
  ⟨congrArg (State.finishOk · l) h.1, h.2⟩

theorem State.agree.raiseError (h : s.agree t) (l : BitVec 4) (e : ErrorCode) (d : Byte) :
    (s.raiseError l e d).agree (t.raiseError l e d) :=
  ⟨congrArg (State.raiseError · l e d) h.1, h.2⟩

theorem State.agree.raiseFault (h : s.agree t) (l : BitVec 4) (f : FaultCode) (d : Byte) :
    (s.raiseFault l f d).agree (t.raiseFault l f d) :=
  ⟨congrArg (State.raiseFault · l f d) h.1, h.2⟩

theorem State.agree.setFault (h : s.agree t) (bit : Nat) :
    State.agree { s with fault := setBit s.fault bit } { t with fault := setBit t.fault bit } :=
  ⟨congrArg (fun x : State => { x with fault := setBit x.fault bit }) h.1, h.2⟩

theorem State.agree.setCls (h : s.agree t) (c : Classification) :
    State.agree { s with cls := c } { t with cls := c } :=
  ⟨congrArg (fun x : State => { x with cls := c }) h.1, h.2⟩

theorem State.agree.setVersion (h : s.agree t) (v : Half) :
    State.agree { s with version := v, vvalid := true } { t with version := v, vvalid := true } :=
  ⟨congrArg (fun x : State => { x with version := v, vvalid := true }) h.1, h.2⟩

theorem State.agree.writeFm (h : s.agree t) (a : Nat) (bs : List Byte) :
    State.agree { s with fm := Memory.writeBytes s.fm a bs } { t with fm := Memory.writeBytes t.fm a bs } :=
  ⟨congrArg (fun x : State => { x with fm := Memory.writeBytes x.fm a bs }) h.1, h.2⟩

/-- Nothing of the frame is defined any more, so nothing of it need be shared (R118). -/
theorem State.agree.invalidateFrf (h : s.agree t) : s.invalidateFrf.agree t.invalidateFrf :=
  ⟨congrArg State.invalidateFrf h.1, h.2.1, fun r hd => by simp [State.frfDefined] at hd,
    fun k hd => by simp [State.micDefined] at hd⟩

theorem State.agree.resetInput (h : s.agree t) : s.resetInput.agree t.resetInput :=
  ⟨congrArg State.resetInput h.1, fun _ _ => rfl, fun _ _ => rfl, fun _ _ => rfl⟩

/-- Bits cleared: less need be shared (R76). -/
theorem State.agree.borrow (h : s.agree t) : s.borrow.agree t.borrow := by
  refine ⟨congrArg State.borrow h.1, h.2.1, fun r hd => h.2.2.1 r ?_, h.2.2.2⟩
  simp only [State.frfDefined, State.borrow_frfWdef0, getLsbD_clearBit, Bool.and_eq_true] at hd
  exact hd.1

theorem State.agree.writeCfg (h : s.agree t) (r : CfgReg) (d : Word) : (s.writeCfg r d).agree (t.writeCfg r d) := by
  refine ⟨congrArg (State.writeCfg · r d) h.1, fun q hd => ?_, h.2.2⟩
  simp only [State.writeCfg_cfg]
  by_cases hq : q = r
  · subst hq
    rw [cfgRead_cfgWrite_same, cfgRead_cfgWrite_same]
  · rw [cfgRead_cfgWrite_of_ne _ _ hq, cfgRead_cfgWrite_of_ne _ _ hq]
    rw [State.writeCfg_cfgDefined, decide_eq_false hq, Bool.or_false] at hd
    exact h.2.1 q hd

/-- One FRF word defined with a shared value, the others kept: the defined words are still shared. -/
theorem State.agree.frfRead_of_define (h : s.agree t) {f g : Frf} {r q : FrfReg}
    (hr : frfRead f r = frfRead g r) (hs : q ≠ r → frfRead f q = frfRead s.frf q)
    (ht : q ≠ r → frfRead g q = frfRead t.frf q)
    (hd : (setBit s.frfWdef0 (frfIndex r)).getLsbD (frfIndex q) = true) : frfRead f q = frfRead g q := by
  by_cases hq : q = r
  · subst hq
    exact hr
  · rw [hs hq, ht hq]
    rw [getLsbD_setBit_frfIndex, decide_eq_false hq, Bool.or_false] at hd
    exact h.2.2.1 q hd

theorem State.agree.acceptFrf (h : s.agree t) (r : FrfReg) (d : Word) :
    (s.acceptFrf r d).agree (t.acceptFrf r d) := by
  refine ⟨congrArg (State.acceptFrf · r d) h.1, h.2.1, fun q hd => ?_, h.2.2.2⟩
  refine h.frfRead_of_define (r := r) ?_ (frfRead_frfWrite_of_ne _ d) (frfRead_frfWrite_of_ne _ d) hd
  exact (frfRead_frfWrite_same _ r d).trans (frfRead_frfWrite_same _ r d).symm

theorem frfRead_bodylen_of_ne (f : Frf) (n : Half) {q : FrfReg} (h : q ≠ .bodylen) :
    frfRead { f with bodylen := n } q = frfRead f q := by
  cases q with
  | bodylen => exact absurd rfl h
  | _ => rfl

theorem State.agree.defineBodylen (h : s.agree t) (n : Half) :
    State.agree
      { s with frf := { s.frf with bodylen := n }, frfWdef0 := setBit s.frfWdef0 (frfIndex .bodylen), cls := .none }
      { t with frf := { t.frf with bodylen := n }, frfWdef0 := setBit t.frfWdef0 (frfIndex .bodylen), cls := .none } :=
  ⟨congrArg (fun x : State => { x with
      frf := { x.frf with bodylen := n }, frfWdef0 := setBit x.frfWdef0 (frfIndex .bodylen), cls := .none }) h.1,
    h.2.1, fun _ hd => h.frfRead_of_define rfl (frfRead_bodylen_of_ne _ n) (frfRead_bodylen_of_ne _ n) hd, h.2.2.2⟩

theorem State.agree.writeMic (h : s.agree t) (k : Fin 16) (d : Word) : (s.writeMic k d).agree (t.writeMic k d) := by
  refine ⟨congrArg (State.writeMic · k d) h.1, h.2.1, h.2.2.1, fun j hd => ?_⟩
  simp only [State.writeMic_mic]
  by_cases hj : j = k
  · subst hj
    exact (Vector.getElem_set_self _).trans (Vector.getElem_set_self _).symm
  · rw [getElem_set_of_ne _ d hj, getElem_set_of_ne _ d hj]
    have hne : j.val ≠ k.val := fun he => hj (Fin.ext he)
    rw [State.writeMic_micDefined, decide_eq_false hne, Bool.or_false] at hd
    exact h.2.2.2 j hd

/-- The F_MIC words a PARSE leaves defined hold the frame's MIC, whatever was there (R113). -/
theorem micOfFrame_getElem (old : Vector Word 16) (mic : List Byte) {ms : Nat} {k : Fin 16}
    (hk : k.val < wordsFor ms) : (micOfFrame old mic ms)[k] = packWord mic k.val := by
  have hword : ∀ j : Fin 16,
      (micOfFrame old mic ms)[j] = if j.val < wordsFor ms then packWord mic j.val else old[j] := by
    intro j
    fin_cases j <;> rfl
  rw [hword, if_pos hk]

/-- A parsed frame is shared whole: what it leaves undefined is all that may still differ (R113). -/
theorem State.agree.loadFrame (h : s.agree t) (r : KeyFrame) (ms base : Nat) :
    (s.loadFrame r ms base).agree (t.loadFrame r ms base) := by
  refine ⟨congrArg (State.loadFrame · r ms base) h.1, h.2.1, fun _ _ => rfl, fun k hd => ?_⟩
  rw [State.loadFrame_micDefined, Bool.and_eq_true, decide_eq_true_eq, decide_eq_true_eq] at hd
  exact (micOfFrame_getElem _ _ hd.2).trans (micOfFrame_getElem _ _ hd.2).symm

end Updates

/-! ### Commands -/

/-- Two outcomes of a command that record alike: the same kind, the same codes, agreeing states. -/
inductive CmdOutcome.Match : CmdOutcome → CmdOutcome → Prop
  | success {s t : State} (h : s.agree t) : CmdOutcome.Match (.success s) (.success t)
  | error {s t : State} (e : ErrorCode) (d : Byte) (h : s.agree t) : CmdOutcome.Match (.error e d s) (.error e d t)
  | fault (f : FaultCode) (d : Byte) : CmdOutcome.Match (.fault f d) (.fault f d)
  | undefRead : CmdOutcome.Match .undefRead .undefRead

/-- The recording of matching outcomes in agreeing states (R190). -/
theorem CmdOutcome.Match.conclude {s t : State} {o p : CmdOutcome} (hm : o.Match p) (h : s.agree t) (l : BitVec 4) :
    outcomesAgree (conclude l s o) (conclude l t p) := by
  cases hm with
  | success hst => exact hst.finishOk l
  | error e d hst => exact hst.raiseError l e d
  | fault f d => exact h.raiseFault l f d
  | undefRead => exact rfl

section Commands

variable {s t : State}

/-- The need checks of a list passed: each operand of it is defined. -/
theorem State.isDefined_of_none {xs : List Operand} (hn : s.firstUndefined xs = none) {x : Operand} (hx : x ∈ xs) :
    s.isDefined x = true := (s.firstUndefined_eq_none_iff xs).mp hn x hx

theorem State.agree.parseOutcome_match (h : s.agree t) : (parseOutcome s).Match (parseOutcome t) := by
  unfold parseOutcome
  rw [h.firstUndefined_eq]
  cases hn : s.firstUndefined parseOperands with
  | some idx => exact .fault _ _
  | none =>
    have hms := h.micSize_eq (State.isDefined_of_none hn (by decide))
    have hbase := h.rxBase_eq (State.isDefined_of_none hn (by decide))
    have hlen := h.rxLen_eq (State.isDefined_of_none hn (by decide))
    simp only [hms, hbase, hlen, h.params_eq, h.fm_eq, h.leavesFm_eq]
    split
    · exact .fault _ _
    split
    · exact .fault _ _
    split
    · exact .undefRead
    split
    · exact .error _ _ h.invalidateFrf
    · exact .success (h.loadFrame _ _ _)

/-- SER and SERZ: with every FRF word defined and the image's MIC shared, the image is. -/
theorem State.agree.serializeOutcome_match (h : s.agree t) {xs ys : List Operand} {clear : Bool}
    (hneeds : t.firstUndefined ys = s.firstUndefined xs) (hsub : serzOperands ⊆ xs)
    (hmic : s.firstUndefined xs = none → imageMic clear s.micLen t.keyMic = imageMic clear s.micLen s.keyMic) :
    (serializeOutcome xs clear s).Match (serializeOutcome ys clear t) := by
  unfold serializeOutcome
  rw [hneeds]
  cases hn : s.firstUndefined xs with
  | some idx => exact .fault _ _
  | none =>
    have hfrf : t.frf = s.frf := h.frf_eq (fun r => State.isDefined_of_none hn (hsub (by
      cases r with
      | nonce j => revert j; decide
      | iv j => revert j; decide
      | _ => decide)))
    have hbase := h.txBase_eq (State.isDefined_of_none hn (hsub (by decide)))
    have hcap := h.txCap_eq (State.isDefined_of_none hn (hsub (by decide)))
    have hml : t.micLen = s.micLen := congrArg (fun f : Frf => f.miclen.toNat) hfrf
    have hkl : t.kdLen = s.kdLen := congrArg (fun f : Frf => f.kdlen.toNat) hfrf
    have hka : t.kdAddr = s.kdAddr := congrArg (fun f : Frf => f.kdaddr.toNat) hfrf
    have hlen : t.imageLen = s.imageLen := by simp only [State.imageLen, hml, hkl]
    have hview : ∀ a n, t.viewMeets a n = s.viewMeets a n := fun a n => by simp only [State.viewMeets, hkl, hka]
    have hdata : t.keyData = s.keyData := by simp only [State.keyData, h.fm_eq, hka, hkl]
    have himage : ∀ kd, t.image clear kd = s.image clear kd := fun kd => by
      simp only [State.image, hfrf, hml, hmic hn]
    obtain ⟨c, f, m, rfl⟩ := h.exists_values
    simp only [hlen, hview, hdata, himage, hbase, hcap, hkl, hka, h.leavesFm_eq]
    split
    · exact .fault _ _
    split
    · exact .fault _ _
    split
    · exact .fault _ _
    split
    · exact .undefRead
    · exact .success (h.writeFm _ _)

/-- The need checks of a list followed by others: the first list's answer, if it has one. -/
theorem State.firstUndefined_append (s : State) (xs ys : List Operand) :
    s.firstUndefined (xs ++ ys) = (s.firstUndefined xs).or (s.firstUndefined ys) := by
  induction xs with
  | nil => rfl
  | cons x xs ih =>
    simp only [List.cons_append, State.firstUndefined, ih]
    split <;> rfl

/-- A list of needs that reaches into F_MIC names F_MICLEN before, so both states check the same words. -/
theorem State.agree.firstUndefined_mic_eq (h : s.agree t) {xs : List Operand} (hx : .frf .miclen ∈ xs) :
    t.firstUndefined (xs ++ micOperands t.micLen) = s.firstUndefined (xs ++ micOperands s.micLen) := by
  rw [State.firstUndefined_append, State.firstUndefined_append, h.firstUndefined_eq, h.firstUndefined_eq]
  cases hn : s.firstUndefined xs with
  | some idx => rfl
  | none => rw [h.micLen_eq (State.isDefined_of_none hn hx)]

/-- The held MIC is shared when such a list's checks pass. -/
theorem State.agree.keyMic_eq_of_none (h : s.agree t) {xs : List Operand} (hx : .frf .miclen ∈ xs)
    (hn : s.firstUndefined (xs ++ micOperands s.micLen) = none) : t.micLen = s.micLen ∧ t.keyMic = s.keyMic := by
  have hml : s.isDefined (.frf .miclen) = true := State.isDefined_of_none hn (List.mem_append_left _ hx)
  exact ⟨h.micLen_eq hml, h.keyMic_eq hml (fun x hmem => State.isDefined_of_none hn (List.mem_append_right _ hmem))⟩

theorem State.agree.serOutcome_match (h : s.agree t) :
    (serializeOutcome s.serOperands false s).Match (serializeOutcome t.serOperands false t) := by
  refine h.serializeOutcome_match (h.firstUndefined_mic_eq (by decide)) (List.subset_append_left _ _) (fun hn => ?_)
  obtain ⟨-, hmic⟩ := h.keyMic_eq_of_none (by decide) hn
  rw [hmic]

theorem State.agree.serzOutcome_match (h : s.agree t) :
    (serializeOutcome serzOperands true s).Match (serializeOutcome serzOperands true t) :=
  h.serializeOutcome_match (h.firstUndefined_eq _) (List.Subset.refl _) (fun _ => rfl)

theorem State.agree.updlenOutcome_match (h : s.agree t) : (updlenOutcome s).Match (updlenOutcome t) := by
  unfold updlenOutcome
  rw [h.origin_eq, h.firstUndefined_eq]
  split
  · exact .fault _ _
  cases hn : s.firstUndefined updlenOperands with
  | some idx => exact .fault _ _
  | none =>
    have hml := h.micLen_eq (State.isDefined_of_none hn (by decide))
    have hkl := h.kdLen_eq (State.isDefined_of_none hn (by decide))
    obtain ⟨c, f, m, rfl⟩ := h.exists_values
    simp only [hml, hkl, h.params_eq]
    split
    · exact .fault _ _
    · exact .success (h.defineBodylen _)

theorem State.agree.patchmicOutcome_match (h : s.agree t) : (patchmicOutcome s).Match (patchmicOutcome t) := by
  unfold patchmicOutcome
  rw [State.patchmicNeeds, State.patchmicNeeds, h.firstUndefined_mic_eq (by decide)]
  cases hn : s.firstUndefined (patchmicOperands ++ micOperands s.micLen) with
  | some idx => exact .fault _ _
  | none =>
    obtain ⟨hml, hmic⟩ := h.keyMic_eq_of_none (by decide) hn
    have hbase := h.txBase_eq (State.isDefined_of_none hn (List.mem_append_left _ (by decide)))
    have hcap := h.txCap_eq (State.isDefined_of_none hn (List.mem_append_left _ (by decide)))
    have hview : (t.frfDefined .kdlen && t.frfDefined .kdaddr && t.viewMeets (s.txBase + 81) s.micLen) =
        (s.frfDefined .kdlen && s.frfDefined .kdaddr && s.viewMeets (s.txBase + 81) s.micLen) := by
      rw [h.frfDefined_eq, h.frfDefined_eq]
      cases hl : s.frfDefined .kdlen with
      | false => rfl
      | true =>
        cases ha : s.frfDefined .kdaddr with
        | false => rfl
        | true => rw [h.viewMeets_eq hl ha]
    obtain ⟨c, f, m, rfl⟩ := h.exists_values
    simp only [hml, hmic, hbase, hcap, hview, h.leavesFm_eq]
    split
    · exact .fault _ _
    split
    · exact .fault _ _
    · exact .success (h.writeFm _ _)

theorem State.agree.kdvOutcome_match (h : s.agree t) : (kdvOutcome s).Match (kdvOutcome t) := by
  unfold kdvOutcome
  rw [h.firstUndefined_eq]
  cases hn : s.firstUndefined kdvOperands with
  | some idx => exact .fault _ _
  | none =>
    have hprot := h.prot_eq (State.isDefined_of_none hn (by decide))
    have hdesc := h.desc_eq (State.isDefined_of_none hn (by decide))
    have hkdv : kdv t.params t.frf.desc t.cfg.prot = kdv s.params s.frf.desc s.cfg.prot := by
      rw [← kdv_and_mask, hprot, kdv_and_mask, h.params_eq, hdesc]
    simp only [hkdv]
    exact .success (h.setVersion _)

theorem State.agree.rccmpOutcome_match (h : s.agree t) : (rccmpOutcome s).Match (rccmpOutcome t) := by
  unfold rccmpOutcome
  rw [h.firstUndefined_eq]
  cases hn : s.firstUndefined rccmpOperands with
  | some idx => exact .fault _ _
  | none =>
    have hrole := h.role_eq (State.isDefined_of_none hn (by decide))
    have hlast := h.lastRc_eq (State.isDefined_of_none hn (by decide)) (State.isDefined_of_none hn (by decide))
    have hrc := h.replayCounter_eq (State.isDefined_of_none hn (by decide)) (State.isDefined_of_none hn (by decide))
    simp only [hrole, hlast, hrc]
    split
    · exact .success h
    · exact .error _ _ h

theorem State.agree.validateOutcome_match (h : s.agree t) : (validateOutcome s).Match (validateOutcome t) := by
  unfold validateOutcome
  rw [h.firstUndefined_eq]
  cases hn : s.firstUndefined validateOperands with
  | some idx => exact .fault _ _
  | none =>
    have hrole := h.role_eq (State.isDefined_of_none hn (by decide))
    have hprot := h.prot_eq (State.isDefined_of_none hn (by decide))
    have hlast := h.lastRc_eq (State.isDefined_of_none hn (by decide)) (State.isDefined_of_none hn (by decide))
    have hdesc := h.desc_eq (State.isDefined_of_none hn (by decide))
    have hki := h.keyinfo_eq (State.isDefined_of_none hn (by decide))
    have hklen := h.keylen_eq (State.isDefined_of_none hn (by decide))
    have hrc := h.replayCounter_eq (State.isDefined_of_none hn (by decide)) (State.isDefined_of_none hn (by decide))
    have hverdict : admissionVerdict t.params t.admission = admissionVerdict s.params s.admission := by
      rw [← admissionVerdict_and_mask t.params, ← admissionVerdict_and_mask s.params]
      simp only [State.admission, hrole, hprot, hlast, hdesc, hki, hklen, hrc, h.params_eq]
    simp only [hverdict]
    split
    · exact .error _ _ (h.setCls _)
    · exact .success (h.setCls _)

/-- No command depends on an undefined value (R27). -/
theorem State.agree.exec_agree (h : s.agree t) (i : Instr) : outcomesAgree (exec i s) (exec i t) := by
  rw [exec_eq_conclude, exec_eq_conclude]
  refine CmdOutcome.Match.conclude ?_ h i.op
  cases i with
  | parse => exact h.parseOutcome_match
  | ser => exact h.serOutcome_match
  | serz => exact h.serzOutcome_match
  | updlen => exact h.updlenOutcome_match
  | patchmic => exact h.patchmicOutcome_match
  | kdv => exact h.kdvOutcome_match
  | rccmp => exact h.rccmpOutcome_match
  | validate => exact h.validateOutcome_match
  | discard => exact .success h.invalidateFrf

end Commands

/-! ### Host accesses and steps -/

section Steps

variable {s t : State}

/-- A read tests the defined bit before it answers a held value (R27). -/
theorem State.agree.readReg_eq (h : s.agree t) (free : Word) (reg : HostReg) :
    t.readReg free reg = s.readReg free reg := by
  cases reg with
  | cfg r =>
    simp only [State.readReg, h.cfgDefined_eq]
    split
    · exact h.cfgRead_eq ‹_›
    · rfl
  | frf r =>
    simp only [State.readReg, h.frfDefined_eq]
    split
    · exact h.frfRead_eq ‹_›
    · rfl
  | mic k =>
    simp only [State.readReg, h.micDefined_eq]
    split
    · exact (h.2.2.2 k ‹_›).symm
    · rfl
  | fm a => simp only [State.readReg, State.windowByte, h.fm_eq]
  | status => exact (congrArg (fun x : State => statusWord x.status) h.1).trans rfl
  | fault => exact (congrArg (fun x : State => x.fault.setWidth 32) h.1).trans rfl
  | version => exact (congrArg (fun x : State => versionWord x.version x.vvalid) h.1).trans rfl
  | cls => exact (congrArg (fun x : State => (classNumber x.cls).setWidth 32) h.1).trans rfl
  | cfgWdef => exact (congrArg (fun x : State => x.cfgWdef.setWidth 32) h.1).trans rfl
  | frfWdef0 => exact (congrArg (fun x : State => x.frfWdef0.setWidth 32) h.1).trans rfl
  | frfWdef1 => exact (congrArg (fun x : State => x.frfWdef1.setWidth 32) h.1).trans rfl
  | origin => exact (congrArg (fun x : State => (originNumber x.origin).setWidth 32) h.1).trans rfl
  | cmd => rfl
  | unmapped => rfl

theorem State.agree.hostRead (h : s.agree t) (off : Nat) : (s.hostRead off).agree (t.hostRead off) := by
  obtain ⟨c, f, m, rfl⟩ := h.exists_values
  refine ⟨?_, h.2⟩
  unfold State.hostRead
  rw [h.readReg_eq]
  rfl

/-- The borrowed range is shared: on an Rx frame F_KDLEN is defined (R39), and the range wants F_KDADDR so (R76). -/
theorem State.agree.borrowHit_eq (h : s.agree t) (hinv : s.Inv) (a : Nat) : t.borrowHit a = s.borrowHit a := by
  unfold State.borrowHit
  rw [h.origin_eq, h.frfDefined_eq]
  by_cases hrx : s.origin = .rx
  · cases ha : s.frfDefined .kdaddr with
    | false => simp
    | true =>
      obtain ⟨hfrf, -⟩ := hinv.rxDefined hrx
      rw [h.viewMeets_eq (hfrf .kdlen (by decide)) ha]
  · have hbeq : (s.origin == .rx) = false := beq_false_of_ne hrx
    simp only [hbeq, Bool.false_and]

theorem State.agree.writeReg (h : s.agree t) (hinv : s.Inv) (reg : HostReg) (d : Word) :
    (s.writeReg reg d).agree (t.writeReg reg d) := by
  cases reg with
  | cfg r => exact h.writeCfg r d
  | frf r =>
    obtain ⟨c, f, m, rfl⟩ := h.exists_values
    simp only [State.writeReg, State.writeFrf, h.origin_eq, h.params_eq]
    split
    · exact h.setFault _
    split
    · exact h.setFault _
    · exact h.acceptFrf r d
  | mic k => exact h.writeMic k d
  | fm a =>
    simp only [State.writeReg, State.writeWindow, h.borrowHit_eq hinv]
    split
    · exact (h.writeFm _ _).borrow
    · exact h.writeFm _ _
  | _ => exact h

/-- No host event depends on an undefined value (R27). -/
theorem State.agree.hostEvent_agree (h : s.agree t) (hinv : s.Inv) (e : HostEvent) :
    outcomesAgree (hostEvent e s) (hostEvent e t) := by
  cases e with
  | rd bits off =>
    simp only [hostEvent, h.params_eq]
    split
    · exact rfl
    · exact h.hostRead off
  | wr bits off d =>
    simp only [hostEvent, h.params_eq]
    split
    · exact rfl
    split
    · unfold commandWrite
      split
      · exact h.exec_agree _
      · exact h.raiseFault _ _ _
    · exact h.writeReg hinv _ d
  | reset => exact h.resetInput

end Steps

/-- Settles O59: agreeing states have the same pending event, and it does not tell them apart. -/
theorem noStepDependsOnAnUndefinedValue : Obligations.NoStepDependsOnAnUndefinedValue := by
  intro s t hinv h
  unfold step hostStep
  rw [h.host_eq]
  cases s.host with
  | nil => exact h
  | cons e rest => exact (h.withHost rest).hostEvent_agree (hinv.withHost rest) e

end Sys2Proof.Machine
end

section
/-! PROOFS. The frame memory: the range a command that writes FM stays in (O17, O24), definedness (O55), the FM window
(O46, O47), and what the host's accesses answer and which are carried (O39, O49). -/

namespace Sys2Proof.Machine

/-! ### The range a command writes -/

/-- A command that can do to `s` no more than write FM in [base, base+len): it faults, ends the run, or succeeds with
at most len bytes written from base (R63). SER, SERZ and PATCHMIC are such commands. -/
inductive CmdOutcome.WritesWithin (s : State) (base len : Nat) : CmdOutcome → Prop
  | fault (f : FaultCode) (d : Byte) : WritesWithin s base len (.fault f d)
  | undefRead : WritesWithin s base len .undefRead
  | write (bs : List Byte) (hlen : bs.length ≤ len) :
      WritesWithin s base len (.success { s with fm := Memory.writeBytes s.fm base bs })

/-- Recorded in STATUS, such an outcome changes nothing but FM, STATUS and FAULT, and FM inside the range alone. -/
theorem CmdOutcome.WritesWithin.frame {s t : State} {base len : Nat} {o : CmdOutcome} {l : BitVec 4}
    (hw : o.WritesWithin s base len) (h : conclude l s o = .next t) :
    t = { s with fm := t.fm, status := t.status, fault := t.fault } ∧
    ∀ a, outside a base len → Memory.read t.fm a = Memory.read s.fm a := by
  cases hw with
  | fault f d =>
    cases h
    exact ⟨rfl, fun _ _ => rfl⟩
  | undefRead => cases h
  | write bs hlen =>
    cases h
    refine ⟨rfl, fun a ha => Memory.read_writeBytes_outside s.fm bs ?_⟩
    unfold outside at ha ⊢
    omega

/-- SER and SERZ write the image, which is at most L bytes long (R63, R114, R115). -/
theorem serializeOutcome_writesWithin (needs : List Operand) (clear : Bool) (s : State) :
    (serializeOutcome needs clear s).WritesWithin s s.txBase s.imageLen := by
  rcases serializeOutcome_cases needs clear s with
    ⟨idx, -, ho⟩ | ⟨-, ⟨-, ho⟩ | ⟨-, -, ⟨-, ho⟩ | ⟨-, ⟨-, ho⟩ | ⟨-, ⟨-, ho⟩ | ⟨kd, hkd, ho⟩⟩⟩⟩⟩ <;> rw [ho]
  case inr.inr.inr.inr.inl => exact .undefRead
  case inr.inr.inr.inr.inr => exact .write _ (s.length_image_le clear hkd)
  all_goals exact .fault _ _

/-- PATCHMIC writes key_mic, which is at most F_MICLEN bytes long (R40, R117). -/
theorem patchmicOutcome_writesWithin (s : State) : (patchmicOutcome s).WritesWithin s (s.txBase + 81) s.micLen := by
  rcases patchmicOutcome_cases s with ⟨idx, -, ho⟩ | ⟨-, ⟨-, ho⟩ | ⟨-, -, ⟨-, ho⟩ | ⟨-, ho⟩⟩⟩ <;> rw [ho]
  case inr.inr.inr => exact .write _ (List.length_take_le _ _)
  all_goals exact .fault _ _

/-- Settles O17: SER and SERZ share the outcome that writes within the output range. -/
theorem serializeChangesOnlyTheOutputRange : Obligations.SerializeChangesOnlyTheOutputRange := by
  rintro i s t (rfl | rfl) h
  · exact (serializeOutcome_writesWithin _ _ s).frame h
  · exact (serializeOutcome_writesWithin _ _ s).frame h

/-- Settles O24: PATCHMIC's outcome writes within the MIC region. -/
theorem patchmicChangesOnlyTheMicRegion : Obligations.PatchmicChangesOnlyTheMicRegion :=
  fun s _ h => (patchmicOutcome_writesWithin s).frame h

/-! ### Definedness -/

/-- No command undefines an FM byte: a write of FM defines (R61). -/
theorem ExecEffect.isSome_read {i : Instr} {s t : State} {a : Nat} (he : ExecEffect s i t)
    (ha : (Memory.read s.fm a).isSome = true) : (Memory.read t.fm a).isSome = true := by
  cases he with
  | writeFm _ base bs => exact Memory.isSome_read_writeBytes ha base bs
  | _ => exact ha

/-- No write outside CMD undefines an FM byte (R61, R62). -/
theorem WriteEffect.isSome_read {s t : State} {d : Word} {reg : HostReg} {a : Nat} (he : WriteEffect s d reg t)
    (ha : (Memory.read s.fm a).isSome = true) : (Memory.read t.fm a).isSome = true := by
  cases he with
  | window base => exact Memory.isSome_read_writeBytes ha base _
  | borrow base => exact Memory.isSome_read_writeBytes ha base _
  | _ => exact ha

/-- Settles O55: every case of `StepEffect` but reset keeps FM or writes bytes of it. -/
theorem definedBytesStayDefined : Obligations.DefinedBytesStayDefined := by
  intro s t a h hreset ha
  cases stepEffect_of_step h with
  | reset rest hh => exact absurd hh (hreset rest)
  | command rest i _ _ he => exact he.isSome_read ha
  | write rest off d _ _ _ he => exact he.isSome_read ha
  | idle => exact ha
  | read => exact ha
  | illegal => exact ha

/-! ### The FM window -/

/-- The lanes of a word, most significant first (R62). -/
theorem byteAt_bytesOfWord (w : Word) {i : Nat} (h : i < 4) :
    byteAt (bytesOfWord w) i = w.extractLsb' (24 - 8 * i) 8 := by
  interval_cases i <;> rfl

/-- Lane i of a window read is the byte at a+i (R62). -/
theorem State.extractLsb'_readReg_fm (s : State) (a : Nat) (free : Word) {i : Nat} (h : i < 4) :
    (s.readReg free (.fm a)).extractLsb' (24 - 8 * i) 8 = s.windowByte a i free := by
  rw [← byteAt_bytesOfWord _ h, State.readReg, bytesOfWord_wordOfBytes]
  interval_cases i <;> rfl

/-- A window write stores the word's bytes, a BORROW event or not (R62, R76). -/
@[simp] theorem State.writeWindow_fm (s : State) (a : Nat) (d : Word) :
    (s.writeWindow a d).fm = Memory.writeBytes s.fm a (bytesOfWord d) := by
  rcases writeWindow_cases s a d with ⟨-, hw⟩ | ⟨-, hw⟩ <;> rw [hw]
  rfl

/-- A window write leaves what is not the block's own, a BORROW event or not. -/
theorem State.writeWindow_outside (s : State) (a : Nat) (d : Word) :
    (s.writeWindow a d).host = s.host ∧ (s.writeWindow a d).params = s.params := by
  rcases writeWindow_cases s a d with ⟨-, hw⟩ | ⟨-, hw⟩ <;> rw [hw] <;> exact ⟨rfl, rfl⟩

/-- The byte of lane i after a window write (R62). -/
theorem State.read_writeWindow (s : State) (a : Nat) (d : Word) {i : Nat} (h : i < 4) :
    Memory.read (s.writeWindow a d).fm (a + i) = some (d.extractLsb' (24 - 8 * i) 8) := by
  rw [State.writeWindow_fm, Memory.read_writeBytes, length_bytesOfWord, if_pos (by omega), Nat.add_sub_cancel_left,
    byteAt_bytesOfWord d h]

/-- A window read after a window write of the same word answers what was written, whatever is drawn (R62, R71). -/
theorem State.readReg_writeWindow (s : State) (a : Nat) (d free : Word) :
    (s.writeWindow a d).readReg free (.fm a) = d := by
  have hlane : ∀ i, i < 4 → (s.writeWindow a d).windowByte a i free = byteAt (bytesOfWord d) i := by
    intro i hi
    rw [State.windowByte, s.read_writeWindow a d hi, byteAt_bytesOfWord d hi]
  rw [State.readReg, hlane 0 (by decide), hlane 1 (by decide), hlane 2 (by decide), hlane 3 (by decide),
    wordOfBytes_bytesOfWord]

/-- R76's borrowed range, as intervals that meet and as a byte they share. -/
theorem State.borrowHit_iff_exists (s : State) (a : Nat) :
    s.borrowHit a = true ↔ s.origin = .rx ∧ s.frfDefined .kdaddr = true ∧
      ∃ x, a ≤ x ∧ x < a + 4 ∧ s.kdAddr ≤ x ∧ x < s.kdAddr + s.kdLen := by
  rw [State.borrowHit_iff]
  refine and_congr_right fun _ => and_congr_right fun _ => ⟨fun h => ⟨max a s.kdAddr, ?_⟩, ?_⟩
  · omega
  · rintro ⟨x, hx⟩
    omega

/-- The BORROW event with the masks written out (R25, R39, R76). -/
theorem State.borrow_eq (s : State) :
    s.borrow = { s with fault := s.fault ||| 0x100, frfWdef0 := s.frfWdef0 &&& 0x0FFFFFF, cls := .none } := rfl

/-- A host write at an offset of the FM window is the write of the window word. -/
theorem step_of_windowWrite {s : State} {a : Nat} {d : Word} {rest : List HostEvent}
    (h : s.host = .wr 32 (0x1000 + a) d :: rest) (h4 : a % 4 = 0) (ha : a < s.params.fmBytes) :
    step s = .next ((s.withHost rest).writeWindow a d) := by
  rw [step_of_write h (by omega) (by omega) (by omega), regAt_fm ha]
  rfl

/-- A host read at an offset of the FM window answers the window word. -/
theorem step_of_windowRead {s : State} {a : Nat} {rest : List HostEvent}
    (h : s.host = .rd 32 (0x1000 + a) :: rest) (h4 : a % 4 = 0) (ha : a < s.params.fmBytes) :
    step s = .next (s.afterRead rest (s.readReg (Config.freshWord s.draws) (.fm a))) := by
  rw [step_of_read h (by omega) (by omega), regAt_fm ha]

/-- Settles O46: the step is `State.writeWindow`, whose two cases are the BORROW event and its absence. -/
theorem windowWriteStoresLanesAndRaisesBorrow : Obligations.WindowWriteStoresLanesAndRaisesBorrow := by
  intro s a d rest h h4 ha
  have hlane := fun i hi => (s.withHost rest).read_writeWindow a d (i := i) hi
  have hhit := (s.withHost rest).borrowHit_iff_exists a
  refine ⟨_, step_of_windowWrite h h4 ha, hlane 0 (by decide), hlane 1 (by decide), hlane 2 (by decide),
    hlane 3 (by decide), fun x hx => ?_, fun hmeets => ?_, fun hmiss => ?_⟩
  · rw [State.writeWindow_fm]
    exact Memory.read_writeBytes_outside s.fm (bytesOfWord d) hx
  · rcases writeWindow_cases (s.withHost rest) a d with ⟨hno, -⟩ | ⟨-, hw⟩
    · rw [hhit.mpr hmeets] at hno
      cases hno
    · rw [hw, State.borrow_eq]
      rfl
  · rcases writeWindow_cases (s.withHost rest) a d with ⟨-, hw⟩ | ⟨hyes, -⟩
    · rw [hw]
      rfl
    · exact absurd (hhit.mp hyes) hmiss

/-- Settles O47: a read's lanes are the window's bytes, and a write fills all four. -/
theorem windowReadReturnsWhatWasWritten : Obligations.WindowReadReturnsWhatWasWritten := by
  intro s a rest h4 ha
  refine ⟨fun h => ⟨_, step_of_windowRead h h4 ha, fun i hi => ?_⟩, fun d h => ?_⟩
  · rw [s.extractLsb'_readReg_fm a _ hi, State.windowByte]
    cases Memory.read s.fm (a + i) with
    | some b => rfl
    | none => exact byteAt_bytesOfWord _ hi
  · obtain ⟨hhost, hparams⟩ := (s.withHost (.rd 32 (0x1000 + a) :: rest)).writeWindow_outside a d
    refine ⟨_, _, step_of_windowWrite h h4 ha, step_of_windowRead hhost h4 (by rwa [hparams]), ?_, rfl⟩
    exact congrArg some (State.readReg_writeWindow _ a d _)

/-! ### Host accesses -/

/-- A read at a defined register's offset answers the word the register's row holds (R22, R36). -/
theorem readReg_of_registerRow {s : State} {row : RegisterRow} (h : row ∈ s.registerRows) (hd : row.defined = true)
    (free : Word) : s.readReg free (regAt s.params row.off) = row.held := by
  rcases registerRows_cases h with ⟨r, rfl⟩ | ⟨r, rfl⟩ | ⟨k, hk, rfl⟩
  · rw [regAt_cfgOffset]
    exact if_pos hd
  · rw [regAt_frfOffset]
    exact if_pos hd
  · rw [regAt_mic hk]
    exact if_pos hd

/-- Settles O39: a carried read is `State.afterRead`. -/
theorem readsHaveNoSideEffect : Obligations.ReadsHaveNoSideEffect := by
  intro s off rest h h4 hb
  refine ⟨_, step_of_read h h4 hb, ?_⟩
  rintro row hrow rfl hd
  exact readReg_of_registerRow hrow hd _

/-- No command is refused: each ends in one of the four outcomes of R190. -/
theorem exec_ne_refused (i : Instr) (s : State) (r : Refusal) : exec i s ≠ .refused r := by
  rw [exec_eq_conclude]
  cases outcomeOf s i <;> nofun

/-- A host write to CMD that is carried (R23). -/
theorem step_of_commandWrite {s : State} {w : Word} {rest : List HostEvent} (h : s.host = .wr 32 0 w :: rest) :
    step s = commandWrite w (s.withHost rest) := by
  have haccess : accessRefusal s.params 32 0 = none := (accessRefusal_eq_none_iff _ _ _).mpr ⟨rfl, rfl, by omega⟩
  have hcmd : regAt s.params 0 = .cmd := (regAt_eq_cmd_iff _ _).mpr rfl
  simp only [step, hostStep, h, hostEvent, haccess, hcmd, if_true]
  rfl

/-- No write to CMD is refused, legal word or not (R23, R94). -/
theorem commandWrite_ne_refused (w : Word) (s : State) (r : Refusal) : commandWrite w s ≠ .refused r := by
  unfold commandWrite
  cases decode w with
  | ok i => exact exec_ne_refused i s r
  | error e => nofun

/-- An access that R65 does not carry is refused. -/
theorem step_refused {s : State} {bits off : Nat} {d : Word} {rest : List HostEvent}
    (h : s.host = .rd bits off :: rest ∨ s.host = .wr bits off d :: rest)
    (hbad : ¬(bits = 32 ∧ off % 4 = 0 ∧ off < 0x1000 + s.params.fmBytes)) : ∃ r, step s = .refused r := by
  rw [← accessRefusal_eq_none_iff] at hbad
  obtain ⟨r, hr⟩ := Option.ne_none_iff_exists'.mp hbad
  refine ⟨r, ?_⟩
  rcases h with h | h
  · simp only [step, hostStep, h, hostEvent, hr]
  · simp only [step, hostStep, h, hostEvent, hr]

/-- Settles O49: `accessRefusal` is R65, and neither a read, a register write nor CMD refuses. -/
theorem onlyAlignedWordAccessesAreCarried : Obligations.OnlyAlignedWordAccessesAreCarried := by
  intro s bits off d rest h
  refine ⟨step_refused h, ?_⟩
  rintro rfl h4 hb
  rcases h with h | h
  · have hstep := step_of_read h h4 hb
    exact ⟨by simp [hstep], fun _ => ⟨_, hstep⟩⟩
  · by_cases h0 : off = 0
    · subst h0
      refine ⟨fun r => ?_, ?_⟩
      · rw [step_of_commandWrite h]
        exact commandWrite_ne_refused d _ r
      · rintro (hrd | hne)
        · rw [h] at hrd
          cases hrd
        · exact absurd rfl hne
    · have hstep := step_of_write h h4 hb h0
      exact ⟨by simp [hstep], fun _ => ⟨_, hstep⟩⟩

end Sys2Proof.Machine
end

section
/-! PROOFS. The encoding of commands: decoding inverts encoding (O1, O2, O3), the illegal words are R94's, and writing
one to CMD is the fault F_ILLEGAL_CMD and nothing else (O4). -/

namespace Sys2Proof

/-- No command carries an operand that could be ill formed (R96). -/
@[simp] theorem Instr.wf_eq_true (i : Instr) : i.wf = true := by cases i <;> rfl

end Sys2Proof

namespace Sys2Proof.Machine

/-! ### Legal words -/

/-- Settles O1: one law per row of R95. -/
theorem everyCommandDecodesFromItsWord : Obligations.EveryCommandDecodesFromItsWord := by
  intro i
  cases i with
  | parse => exact Laws.DecodeInvertsEncode.parse
  | ser => exact Laws.DecodeInvertsEncode.ser
  | serz => exact Laws.DecodeInvertsEncode.serz
  | updlen => exact Laws.DecodeInvertsEncode.updlen
  | patchmic => exact Laws.DecodeInvertsEncode.patchmic
  | kdv => exact Laws.DecodeInvertsEncode.kdv
  | rccmp => exact Laws.DecodeInvertsEncode.rccmp
  | validate => exact Laws.DecodeInvertsEncode.validate
  | discard => exact Laws.DecodeInvertsEncode.discard

/-- The decoder inverts the encoder (R92, R95). -/
@[simp] theorem decode_encode (i : Instr) : decode (encode i) = .ok i :=
  (everyCommandDecodesFromItsWord i i.wf_eq_true).1

/-- Settles O2: the decoder looks at every bit of the word, so it inverts the encoder on both sides. -/
theorem wordDecodesOnlyToItsOwnCommand : Obligations.WordDecodesOnlyToItsOwnCommand := by
  intro w i
  refine ⟨eq_encode_of_decode, ?_⟩
  rintro rfl
  exact decode_encode i

/-- Settles O3: each literal is the word its command is encoded as. -/
theorem commandWordsOfR95 : Obligations.CommandWordsOfR95 :=
  ⟨decode_encode .parse, decode_encode .ser, decode_encode .serz, decode_encode .updlen, decode_encode .patchmic,
    decode_encode .kdv, decode_encode .rccmp, decode_encode .validate, decode_encode .discard⟩

/-! ### Illegal words -/

/-- A word that decodes to no command decodes to one of R94's reasons. -/
theorem exists_decode_eq_error {w : Word} (h : ∀ i, decode w ≠ .ok i) : ∃ e, decode w = .error e := by
  cases hw : decode w with
  | ok i => exact absurd hw (h i)
  | error e => exact ⟨e, rfl⟩

/-- The pairs of OP and CLR outside the table of R95, all 32 looked up: OP is 0 or above 8, or CLR is set beside an
OP other than SER's (R94). -/
theorem decodeOp_isOk_eq_false_iff (op : BitVec 4) (clr : Bool) :
    (decodeOp op clr).isOk = false ↔ (op = 0x0 ∨ 0x9 ≤ op.toNat) ∨ (clr = true ∧ op ≠ 2) := by
  revert op clr
  decide

/-- The words the decoder rejects are those with a reserved bit set or a pair of OP and CLR outside R95's table. -/
theorem decode_isOk_eq_false_iff (w : Word) :
    (decode w).isOk = false ↔
      CommandWord.reserved w ≠ 0 ∨ (decodeOp (CommandWord.op w) (CommandWord.clr w)).isOk = false := by
  unfold decode
  by_cases hres : CommandWord.reserved w = 0
  · rw [if_neg (not_not.mpr hres)]
    simp [hres]
  · rw [if_pos hres]
    exact iff_of_true rfl (.inl hres)

/-- A word decodes to no command in exactly the three cases of R94. -/
theorem decode_ne_ok_iff (w : Word) :
    (∀ i, decode w ≠ .ok i) ↔
      (CommandWord.op w = 0x0 ∨ 0x9 ≤ (CommandWord.op w).toNat) ∨ CommandWord.reserved w ≠ 0 ∨
      (CommandWord.clr w = true ∧ CommandWord.op w ≠ 2) := by
  have hrejected : (∀ i, decode w ≠ .ok i) ↔ (decode w).isOk = false := by
    cases decode w <;> simp [Except.isOk, Except.toBool]
  rw [hrejected, decode_isOk_eq_false_iff, decodeOp_isOk_eq_false_iff]
  exact or_left_comm

/-- The write of an illegal word to CMD takes F_ILLEGAL_CMD (R94, R196). -/
theorem step_of_illegalWrite {s : State} {w : Word} {rest : List HostEvent} (h : s.host = .wr 32 0 w :: rest)
    (hw : ∀ i, decode w ≠ .ok i) :
    step s = .next ((s.withHost rest).raiseFault (CommandWord.op w) .illegalCmd 0) := by
  obtain ⟨e, he⟩ := exists_decode_eq_error hw
  rw [step_of_commandWrite h, commandWrite, he]

/-- STATUS after F_ILLEGAL_CMD as the host reads it: LASTOP, DETAIL 0, ERR 0x20, OK 0, DONE 1 (R24, R191). -/
theorem statusWord_illegalCmd (op : BitVec 4) :
    statusWord (statusBad op (.fault .illegalCmd) 0) = (0 : BitVec 4) ++ op ++ (0x002001 : BitVec 24) := by
  revert op
  decide

/-- Settles O4: `decode_ne_ok_iff` is R94, and the step takes the fault. -/
theorem illegalWordFaultsAndDoesNothingElse : Obligations.IllegalWordFaultsAndDoesNothingElse := by
  intro w
  refine ⟨decode_ne_ok_iff w, fun hw s rest h => ⟨_, step_of_illegalWrite h hw, ?_, ?_⟩⟩
  · exact statusWord_illegalCmd (CommandWord.op w)
  · rfl

end Sys2Proof.Machine
end

section
/-! PROOFS. The frame layout: slices and words of a byte list, where `decode` finds a field (R110, R119: O13) and where
`image` puts one (R111: O16), and that each undoes the other. -/

namespace Sys2Proof.Machine

/-! ### Slices -/

/-- The first slice of a byte list starts at its beginning. -/
@[simp] theorem slice_append_self (a b : List Byte) : slice (a ++ b) 0 a.length = a := by simp [slice]

/-- A slice inside the first part of a byte list. -/
theorem slice_append_left {a b : List Byte} {start len : Nat} (h : start + len ≤ a.length) :
    slice (a ++ b) start len = slice a start len := by
  rw [slice, slice, List.drop_append_of_le_length (by omega), List.take_append_of_le_length]
  rw [List.length_drop]
  omega

/-- A slice beyond the first part of a byte list. -/
@[simp] theorem slice_append_right (a b : List Byte) (start len : Nat) :
    slice (a ++ b) (a.length + start) len = slice b start len := by
  rw [slice, slice, ← List.drop_drop, List.drop_left]

/-- Neighbouring slices are one slice. -/
theorem slice_append_slice (b : List Byte) {s s' n : Nat} (m : Nat) (h : s' = s + n) :
    slice b s n ++ slice b s' m = slice b s (n + m) := by
  rw [h, slice, slice, slice, ← List.drop_drop, ← List.take_add]

/-- A slice of a slice. -/
theorem slice_slice (b : List Byte) {s n o m : Nat} (h : o + m ≤ n) : slice (slice b s n) o m = slice b (s + o) m := by
  rw [slice, slice, slice, List.drop_take, List.drop_drop, List.take_take, Nat.min_eq_left (by omega)]

theorem length_slice_of_le {b : List Byte} {s n : Nat} (h : s + n ≤ b.length) : (slice b s n).length = n := by
  rw [length_slice]
  omega

/-- One byte of a list as a slice of it. -/
theorem singleton_byteAt {b : List Byte} {i : Nat} (h : i < b.length) : [byteAt b i] = slice b i 1 := by
  refine list_eq_of_byteAt (length_slice_of_le h).symm (fun j hj => ?_)
  obtain rfl : j = 0 := by simpa using hj
  rw [byteAt_slice, if_pos Nat.one_pos]
  rfl

/-- Part k of a list of byte lists stands behind the k parts before it. -/
theorem slice_flatten {parts : List (List Byte)} {k : Nat} {part : List Byte} (h : parts[k]? = some part) :
    slice parts.flatten (parts.take k).flatten.length part.length = part := by
  obtain ⟨hk, rfl⟩ := List.getElem?_eq_some_iff.mp h
  have hsplit : parts.flatten = (parts.take k).flatten ++ (parts[k] ++ (parts.drop (k + 1)).flatten) := by
    rw [← List.flatten_cons, List.cons_getElem_drop_succ, ← List.flatten_append, List.take_append_drop]
  rw [hsplit]
  simpa using slice_append_right (parts.take k).flatten (parts[k] ++ (parts.drop (k + 1)).flatten) 0 parts[k].length

/-! ### Big-endian fields -/

/-- A field of 8n bits written as n bytes has its value (R11). -/
theorem be_beBytes_toNat {n w : Nat} (v : BitVec w) (h : 256 ^ n = 2 ^ w) : be (beBytes n v.toNat) = v.toNat := by
  rw [be_beBytes, h, Nat.mod_eq_of_lt v.isLt]

/-- The value of n bytes fits a field of 8n bits (R11). -/
theorem toNat_ofNat_be {bs : List Byte} {w : Nat} (h : 256 ^ bs.length = 2 ^ w) :
    (BitVec.ofNat w (be bs)).toNat = be bs := by
  rw [BitVec.toNat_ofNat, Nat.mod_eq_of_lt (h ▸ be_lt bs)]

/-- Bytes read into a field and written from it are the bytes (R11). -/
theorem beBytes_ofNat_be {bs : List Byte} {n w : Nat} (hn : bs.length = n) (h : 256 ^ n = 2 ^ w) :
    beBytes n (BitVec.ofNat w (be bs)).toNat = bs := by
  subst hn
  rw [toNat_ofNat_be h, beBytes_be]

/-- A field written as bytes and read from them is the field (R11). -/
theorem ofNat_eq_of_eq_toNat {w n : Nat} {v : BitVec w} (h : n = v.toNat) : BitVec.ofNat w n = v := by
  rw [h, BitVec.ofNat_toNat, BitVec.setWidth_eq]

/-! ### Words of a byte list -/

/-- Word k of a word array's bytes (R38). -/
theorem slice_bytesOfWords (ws : List Word) {k : Nat} (h : k < ws.length) :
    slice (bytesOfWords ws) (4 * k) 4 = bytesOfWord ws[k] := by
  have hpart := slice_flatten (parts := ws.map bytesOfWord) (k := k) (part := bytesOfWord ws[k]) (by simp [h])
  have hbefore : ((ws.map bytesOfWord).take k).flatten.length = 4 * k := by
    rw [← List.map_take, ← List.flatMap_def]
    exact (length_bytesOfWords _).trans (by rw [List.length_take, Nat.min_eq_left (by omega)])
  rwa [hbefore, ← List.flatMap_def, length_bytesOfWord] at hpart

/-- Four bytes of an array that are a word's bytes pack into the word (R38). -/
theorem packWord_slice {b : List Byte} {start len k : Nat} {w : Word} (hk : 4 * k + 4 ≤ len)
    (h : slice b (start + 4 * k) 4 = bytesOfWord w) : packWord (slice b start len) k = w := by
  have hbyte : ∀ i, i < 4 → byteAt (slice b start len) (4 * k + i) = byteAt (bytesOfWord w) i := by
    intro i hi
    rw [← h, byteAt_slice, byteAt_slice, if_pos (by omega), if_pos hi, Nat.add_assoc]
  rw [packWord, hbyte 1 (by decide), hbyte 2 (by decide), hbyte 3 (by decide),
    show byteAt (slice b start len) (4 * k) = _ from hbyte 0 (by decide), wordOfBytes_bytesOfWord]

/-- Bytes packed into words and unpacked again are the bytes, when they fill the words (R38). -/
theorem bytesOfWords_packWord {bs : List Byte} {n : Nat} (h : bs.length = 4 * n) :
    bytesOfWords ((List.range n).map (packWord bs)) = bs := by
  have hlen : (bytesOfWords ((List.range n).map (packWord bs))).length = 4 * n := by
    rw [length_bytesOfWords, List.length_map, List.length_range]
  refine list_eq_of_byteAt (hlen.trans h.symm) (fun i hi => ?_)
  rw [byteAt_bytesOfWords_packWord, if_pos (by omega)]

/-- F_NONCE's words unpacked (R38). -/
theorem bytesOfWords_nonceWords {bs : List Byte} (h : bs.length = 32) :
    bytesOfWords (#v[packWord bs 0, packWord bs 1, packWord bs 2, packWord bs 3,
      packWord bs 4, packWord bs 5, packWord bs 6, packWord bs 7] : Vector Word 8).toList = bs :=
  bytesOfWords_packWord (n := 8) h

/-- F_IV's words unpacked (R38). -/
theorem bytesOfWords_ivWords {bs : List Byte} (h : bs.length = 16) :
    bytesOfWords (#v[packWord bs 0, packWord bs 1, packWord bs 2, packWord bs 3] : Vector Word 4).toList = bs :=
  bytesOfWords_packWord (n := 4) h

/-! ### `decode` -/

theorem two_le_length_of_byteAt_one {b : List Byte} (h : byteAt b 1 = 3) : 2 ≤ b.length := by
  by_contra hlt
  rw [byteAt_of_le (by omega)] at h
  exact absurd h (by decide)

/-- The first check of R110. -/
theorem decodeFrame_of_length_lt_two {b : List Byte} (ms : Nat) (h : b.length < 2) :
    decodeFrame b ms = .error .short := if_pos h

/-- The second check of R110. -/
theorem decodeFrame_of_byteAt_one_ne {b : List Byte} (ms : Nat) (h2 : 2 ≤ b.length) (h : byteAt b 1 ≠ 3) :
    decodeFrame b ms = .error .packetType := by
  rw [decodeFrame, if_neg (by omega), if_pos h]

section LengthChecks

variable {b : List Byte} {ms : Nat}

/-- With PACKET_TYPE right, only the length is left to check (R110). -/
theorem decodeFrame_of_byteAt_one (h : byteAt b 1 = 3) :
    decodeFrame b ms =
      if b.length < 83 + ms then .error .short
      else if b.length < 83 + ms + keyDataLenOf b ms then .error .short
      else if b.length > 83 + ms + keyDataLenOf b ms then .error .trailing
      else .ok (frameFields b ms) := by
  have h2 := two_le_length_of_byteAt_one h
  rw [decodeFrame, if_neg (by omega), if_neg (not_not.mpr h)]

theorem decodeFrame_of_length_lt_fields (h : byteAt b 1 = 3) (hlen : b.length < 83 + ms) :
    decodeFrame b ms = .error .short := by
  rw [decodeFrame_of_byteAt_one h, if_pos hlen]

theorem decodeFrame_of_length_lt_keyData (h : byteAt b 1 = 3) (hlen : b.length < 83 + ms + keyDataLenOf b ms) :
    decodeFrame b ms = .error .short := by
  rw [decodeFrame_of_byteAt_one h, if_pos hlen, ite_self]

theorem decodeFrame_of_lt_length (h : byteAt b 1 = 3) (hlen : 83 + ms + keyDataLenOf b ms < b.length) :
    decodeFrame b ms = .error .trailing := by
  rw [decodeFrame_of_byteAt_one h, if_neg (by omega), if_neg (by omega), if_pos hlen]

theorem decodeFrame_of_length_eq (h : byteAt b 1 = 3) (hlen : b.length = 83 + ms + keyDataLenOf b ms) :
    decodeFrame b ms = .ok (frameFields b ms) := by
  rw [decodeFrame_of_byteAt_one h, if_neg (by omega), if_neg (by omega), if_neg (by omega)]

end LengthChecks

/-- A frame that decodes is an EAPOL-Key packet (R110). -/
theorem byteAt_one_of_decodeFrame_ok {b : List Byte} {ms : Nat} {r : KeyFrame} (h : decodeFrame b ms = .ok r) :
    byteAt b 1 = 3 := by
  by_contra hne
  by_cases h2 : b.length < 2
  · rw [decodeFrame_of_length_lt_two ms h2] at h
    cases h
  · rw [decodeFrame_of_byteAt_one_ne ms (by omega) hne] at h
    cases h

/-- Settles O13: of R110's checks the first two decide a short buffer, or its length does. -/
theorem everyShortBufferIsAFormatError : Obligations.EveryShortBufferIsAFormatError := by
  intro b ms hlen
  refine ⟨?_, fun hne h2 => decodeFrame_of_byteAt_one_ne ms h2 hne⟩
  rintro (h | h)
  · exact decodeFrame_of_length_lt_fields h hlen
  · exact decodeFrame_of_length_lt_two ms h

/-! ### `image` -/

/-- The fields of R80 before the MIC, in wire order, as `image` writes them (R111). -/
def headFields (f : Frf) : List (List Byte) :=
  [[f.proto], [f.ptype], beBytes 2 f.bodylen.toNat, [f.desc], beBytes 2 (KeyInfo.onWire f.keyinfo).toNat,
    beBytes 2 f.keylen.toNat, beBytes 8 (f.rcHi ++ f.rcLo).toNat, bytesOfWords f.nonce.toList,
    bytesOfWords f.iv.toList, beBytes 8 (f.rscHi ++ f.rscLo).toNat, List.replicate 8 0]

/-- An image is the fields before the MIC, the MIC, key_data_len and key_data (R80, R111). -/
theorem frameImage_eq_append (f : Frf) (mic kd : List Byte) :
    frameImage f mic kd = (headFields f).flatten ++ (mic ++ (beBytes 2 f.kdlen.toNat ++ kd)) := by
  simp [frameImage, headFields]

theorem length_headFields_flatten (f : Frf) : (headFields f).flatten.length = 81 := by
  simp [headFields, length_bytesOfWords]

@[simp] theorem length_frameImage (f : Frf) (mic kd : List Byte) :
    (frameImage f mic kd).length = 83 + mic.length + kd.length := by
  simp only [frameImage_eq_append, List.length_append, length_headFields_flatten, length_beBytes]
  omega

/-- Field k of an image stands behind the fields before it (R80). -/
theorem slice_frameImage_head (f : Frf) (mic kd : List Byte) {k off : Nat} {field : List Byte}
    (hfield : (headFields f)[k]? = some field) (hoff : ((headFields f).take k).flatten.length = off)
    (hin : off + field.length ≤ 81) : slice (frameImage f mic kd) off field.length = field := by
  rw [frameImage_eq_append, slice_append_left (by rwa [length_headFields_flatten]), ← hoff]
  exact slice_flatten hfield

/-- What follows the fields before the MIC (R80). -/
theorem slice_frameImage_tail (f : Frf) (mic kd : List Byte) (off len : Nat) :
    slice (frameImage f mic kd) (81 + off) len = slice (mic ++ (beBytes 2 f.kdlen.toNat ++ kd)) off len := by
  rw [frameImage_eq_append, ← length_headFields_flatten f, slice_append_right]

theorem slice_frameImage_mic (f : Frf) (mic kd : List Byte) : slice (frameImage f mic kd) 81 mic.length = mic :=
  (slice_frameImage_tail f mic kd 0 _).trans (slice_append_self mic _)

theorem slice_frameImage_kdlen (f : Frf) (mic kd : List Byte) :
    slice (frameImage f mic kd) (81 + mic.length) 2 = beBytes 2 f.kdlen.toNat := by
  rw [slice_frameImage_tail]
  exact (slice_append_right mic _ 0 2).trans (slice_append_self _ _)

theorem slice_frameImage_keyData (f : Frf) (mic kd : List Byte) :
    slice (frameImage f mic kd) (83 + mic.length) kd.length = kd := by
  rw [show 83 + mic.length = 81 + (mic.length + (2 + 0)) by omega, slice_frameImage_tail, slice_append_right]
  exact (slice_append_right (beBytes 2 f.kdlen.toNat) kd 0 kd.length).trans (by simp [slice])

/-- A big-endian field of an image has its register's value (R82). -/
theorem be_slice_frameImage {f : Frf} (mic kd : List Byte) {k off n w : Nat} {v : BitVec w}
    (hfield : (headFields f)[k]? = some (beBytes n v.toNat)) (hoff : ((headFields f).take k).flatten.length = off)
    (hin : off + n ≤ 81) (hw : 256 ^ n = 2 ^ w) : be (slice (frameImage f mic kd) off n) = v.toNat := by
  have hslice := slice_frameImage_head f mic kd hfield hoff (by rwa [length_beBytes])
  rw [length_beBytes] at hslice
  rw [hslice, be_beBytes_toNat v hw]

/-- The words of F_NONCE and F_IV, one by one, in an image (R80, R83). -/
theorem slice_frameImage_word {f : Frf} (mic kd : List Byte) {k off n j : Nat} {ws : Vector Word n}
    (hfield : (headFields f)[k]? = some (bytesOfWords ws.toList))
    (hoff : ((headFields f).take k).flatten.length = off) (hin : off + 4 * n ≤ 81) (hj : j < n) :
    slice (frameImage f mic kd) (off + 4 * j) 4 = bytesOfWord ws[j] := by
  have hlen : (bytesOfWords ws.toList).length = 4 * n := by rw [length_bytesOfWords, Vector.length_toList]
  have hslice := slice_frameImage_head f mic kd hfield hoff (by rwa [hlen])
  rw [hlen] at hslice
  rw [← slice_slice (n := 4 * n) _ (by omega), hslice]
  exact (slice_bytesOfWords ws.toList (by simpa using hj)).trans (by simp)

/-- A field of one byte in an image (R80). -/
theorem byteAt_frameImage_head {f : Frf} (mic kd : List Byte) {k off : Nat} {x : Byte}
    (hfield : (headFields f)[k]? = some [x]) (hoff : ((headFields f).take k).flatten.length = off)
    (hin : off + 1 ≤ 81) : byteAt (frameImage f mic kd) off = x := by
  have hbyte := congrArg (byteAt · 0) (slice_frameImage_head f mic kd hfield hoff hin)
  simpa [byteAt_slice] using hbyte

/-- The offset of a field of R80, summed over the fields before it. -/
theorem headFields_offset (f : Frf) (k : Nat) :
    ((headFields f).take k).flatten.length = ([1, 1, 2, 1, 2, 2, 8, 32, 16, 8, 8].take k).sum := by
  rw [List.length_flatten, List.map_take]
  simp [headFields, length_bytesOfWords]

/-- Settles O16: each field is one of `headFields`, or follows them. -/
theorem imageHasTheWireLayout : Obligations.ImageHasTheWireLayout := by
  rintro f mic kd _ - rfl
  have hoff := headFields_offset f
  refine ⟨length_frameImage f mic kd,
    byteAt_frameImage_head mic kd (k := 0) rfl (hoff 0) (by decide),
    byteAt_frameImage_head mic kd (k := 1) rfl (hoff 1) (by decide),
    be_slice_frameImage mic kd (k := 2) rfl (hoff 2) (by decide) (by rfl),
    byteAt_frameImage_head mic kd (k := 3) rfl (hoff 3) (by decide),
    be_slice_frameImage (v := KeyInfo.onWire f.keyinfo) mic kd (k := 4) rfl (hoff 4) (by decide) (by rfl),
    be_slice_frameImage mic kd (k := 5) rfl (hoff 5) (by decide) (by rfl),
    be_slice_frameImage mic kd (k := 6) rfl (hoff 6) (by decide) (by rfl),
    fun j => slice_frameImage_word mic kd (k := 7) rfl (hoff 7) (by decide) j.isLt,
    fun j => slice_frameImage_word mic kd (k := 8) rfl (hoff 8) (by decide) j.isLt,
    be_slice_frameImage mic kd (k := 9) rfl (hoff 9) (by decide) (by rfl),
    slice_frameImage_head f mic kd (k := 10) (field := [0, 0, 0, 0, 0, 0, 0, 0]) rfl (hoff 10) (by decide),
    slice_frameImage_mic f mic kd, ?_, slice_frameImage_keyData f mic kd⟩
  rw [slice_frameImage_kdlen, be_beBytes_toNat _ (by rfl)]

end Sys2Proof.Machine
end

section
/-! PROOFS. What each codec command does when its operands are defined: one lemma per way its checks come out, in the
order of R197, and the statements about single commands from them (O10, O11, O14, O15, O18, O20 to O23, O26). -/

namespace Sys2Proof.Machine

/-- The need checks of a command that is ready pass (R222). -/
theorem State.ready.firstUndefined_eq_none {s : State} {i : Instr} (h : s.ready i) :
    s.firstUndefined (needsOf s i) = none := (s.firstUndefined_eq_none_iff _).mpr h

/-! ### PARSE -/

section Parse

variable {s : State}

theorem parseOutcome_of_micSize_gt (h : s.ready .parse) (hms : s.params.maxMic < s.cfg.micSize.toNat) :
    parseOutcome s = .fault .micCapacity 0 := by
  have hneeds : s.firstUndefined parseOperands = none := h.firstUndefined_eq_none
  simp only [parseOutcome, hneeds, gt_iff_lt, if_pos hms]

theorem parseOutcome_of_buffer_leaves (h : s.ready .parse) (hms : s.cfg.micSize.toNat ≤ s.params.maxMic)
    (hrx : s.params.fmBytes < s.rxBase + s.rxLen) : parseOutcome s = .fault .buffer 1 := by
  have hneeds : s.firstUndefined parseOperands = none := h.firstUndefined_eq_none
  have hleaves : s.leavesFm s.rxBase s.rxLen = true := (s.leavesFm_iff _ _).mpr hrx
  simp only [parseOutcome, hneeds, gt_iff_lt, if_neg (Nat.not_lt.mpr hms), hleaves, if_true]

variable {b : List Byte}

/-- PARSE's fault checks passed and its buffer defined: `decode` says how it ends (R113). -/
theorem parseOutcome_of_decode_error {d : FormatError} (h : s.ready .parse)
    (hms : s.cfg.micSize.toNat ≤ s.params.maxMic) (hrx : s.rxBase + s.rxLen ≤ s.params.fmBytes)
    (hb : Memory.readBytes s.fm s.rxBase s.rxLen = some b) (hd : decodeFrame b s.cfg.micSize.toNat = .error d) :
    parseOutcome s = .error .format (formatDetail d) s.invalidateFrf := by
  have hneeds : s.firstUndefined parseOperands = none := h.firstUndefined_eq_none
  have hstays : s.leavesFm s.rxBase s.rxLen = false := (s.leavesFm_eq_false_iff _ _).mpr hrx
  simp only [parseOutcome, hneeds, gt_iff_lt, if_neg (Nat.not_lt.mpr hms), hstays, Bool.false_eq_true, if_false, hb, hd]

theorem parseOutcome_of_decode_ok {r : KeyFrame} (h : s.ready .parse)
    (hms : s.cfg.micSize.toNat ≤ s.params.maxMic) (hrx : s.rxBase + s.rxLen ≤ s.params.fmBytes)
    (hb : Memory.readBytes s.fm s.rxBase s.rxLen = some b) (hr : decodeFrame b s.cfg.micSize.toNat = .ok r) :
    parseOutcome s = .success (s.loadFrame r s.cfg.micSize.toNat s.rxBase) := by
  have hneeds : s.firstUndefined parseOperands = none := h.firstUndefined_eq_none
  have hstays : s.leavesFm s.rxBase s.rxLen = false := (s.leavesFm_eq_false_iff _ _).mpr hrx
  simp only [parseOutcome, hneeds, gt_iff_lt, if_neg (Nat.not_lt.mpr hms), hstays, Bool.false_eq_true, if_false, hb, hr]

end Parse

/-- Settles O11: the two fault checks in their order, each recorded. -/
theorem parseFaultsOnMicSizeThenBuffer : Obligations.ParseFaultsOnMicSizeThenBuffer := by
  refine fun s h => ⟨fun hms => ?_, fun hms hrx => ?_⟩
  · rw [exec_eq_conclude, outcomeOf, parseOutcome_of_micSize_gt h hms]
    rfl
  · rw [exec_eq_conclude, outcomeOf, parseOutcome_of_buffer_leaves h hms hrx]
    rfl

/-- Settles O10: each clause is a check of `decode` that fails after those before it passed. -/
theorem parseRejectsAMalformedFrame : Obligations.ParseRejectsAMalformedFrame := by
  rintro s b _ _ detail h rfl hms hrx hb rfl hclause
  have hreject : ∀ d, decodeFrame b s.cfg.micSize.toNat = .error d → exec .parse s = .next { s with
      frfWdef0 := 0, frfWdef1 := 0, origin := .none, cls := .none
      status := ⟨true, false, .error .format, formatDetail d, 0x1⟩ } := by
    intro d hd
    rw [exec_eq_conclude, outcomeOf, parseOutcome_of_decode_error h hms hrx hb hd]
    rfl
  rcases hclause with ⟨hlen, rfl⟩ | ⟨hlen, hne, rfl⟩ | ⟨-, h3, hlen, rfl⟩ | ⟨-, h3, hlen, rfl⟩ | ⟨h3, hlen, rfl⟩
  · exact hreject .short (decodeFrame_of_length_lt_two _ hlen)
  · exact hreject .packetType (decodeFrame_of_byteAt_one_ne _ hlen hne)
  · exact hreject .short (decodeFrame_of_length_lt_fields h3 hlen)
  · exact hreject .short (decodeFrame_of_length_lt_keyData h3 hlen)
  · exact hreject .trailing (decodeFrame_of_lt_length h3 hlen)

/-! ### SER and SERZ -/

section Serialize

variable {needs : List Operand} {clear : Bool} {s : State}

theorem serializeOutcome_of_output_unfit (hneeds : s.firstUndefined needs = none)
    (h : s.txCap < s.imageLen ∨ s.params.fmBytes < s.txBase + s.imageLen) :
    serializeOutcome needs clear s = .fault .buffer 2 := by
  have hcheck : (s.imageLen > s.txCap || s.leavesFm s.txBase s.imageLen) = true := by simpa using h
  simp only [serializeOutcome, hneeds, hcheck, if_true]

/-- The output's checks (R66, R114) pass when it fits TX_CAP and stays in FM. -/
theorem State.output_fits (hcap : s.imageLen ≤ s.txCap) (htx : s.txBase + s.imageLen ≤ s.params.fmBytes) :
    (s.imageLen > s.txCap || s.leavesFm s.txBase s.imageLen) = false := by
  simp [State.leavesFm, hcap, htx]

theorem serializeOutcome_of_view_leaves (hneeds : s.firstUndefined needs = none) (hcap : s.imageLen ≤ s.txCap)
    (htx : s.txBase + s.imageLen ≤ s.params.fmBytes) (h : s.params.fmBytes < s.kdAddr + s.kdLen) :
    serializeOutcome needs clear s = .fault .buffer 3 := by
  have hleaves : s.leavesFm s.kdAddr s.kdLen = true := (s.leavesFm_iff _ _).mpr h
  simp only [serializeOutcome, hneeds, State.output_fits hcap htx, hleaves, if_true, Bool.false_eq_true, if_false]

theorem serializeOutcome_of_view_meets (hneeds : s.firstUndefined needs = none) (hcap : s.imageLen ≤ s.txCap)
    (htx : s.txBase + s.imageLen ≤ s.params.fmBytes) (hview : s.kdAddr + s.kdLen ≤ s.params.fmBytes)
    (h : s.viewMeets s.txBase s.imageLen = true) : serializeOutcome needs clear s = .fault .overlap 0 := by
  have hstays : s.leavesFm s.kdAddr s.kdLen = false := (s.leavesFm_eq_false_iff _ _).mpr hview
  simp only [serializeOutcome, hneeds, State.output_fits hcap htx, hstays, h, if_true, Bool.false_eq_true, if_false]

theorem serializeOutcome_of_checks {kd : List Byte} (hneeds : s.firstUndefined needs = none)
    (hcap : s.imageLen ≤ s.txCap) (htx : s.txBase + s.imageLen ≤ s.params.fmBytes)
    (hview : s.kdAddr + s.kdLen ≤ s.params.fmBytes) (hapart : s.viewApart s.txBase s.imageLen)
    (hkd : s.keyData = some kd) :
    serializeOutcome needs clear s =
      .success { s with fm := Memory.writeBytes s.fm s.txBase (s.image clear kd) } := by
  have hstays : s.leavesFm s.kdAddr s.kdLen = false := (s.leavesFm_eq_false_iff _ _).mpr hview
  have hmiss : s.viewMeets s.txBase s.imageLen = false := (s.viewMeets_eq_false_iff _ _).mpr hapart
  simp only [serializeOutcome, hneeds, State.output_fits hcap htx, hstays, hmiss, hkd, Bool.false_eq_true, if_false]

end Serialize

@[simp] theorem State.image_false (s : State) (kd : List Byte) :
    s.image false kd = frameImage s.frf s.keyMic kd := rfl

@[simp] theorem State.image_true (s : State) (kd : List Byte) :
    s.image true kd = frameImage s.frf (List.replicate s.micLen 0) kd := rfl

/-- A command that wrote FM, recorded (R24, R63). -/
theorem conclude_writeFm (l : BitVec 4) (s : State) (m : Memory) :
    conclude l s (.success { s with fm := m }) = .next { s with fm := m, status := ⟨true, true, .none, 0, l⟩ } := rfl

/-- Settles O14: the checks pass, and the image holds the MIC. -/
theorem serWritesTheImage : Obligations.SerWritesTheImage := by
  intro s kd h hcap htx hview hapart hkd
  have hneeds : s.firstUndefined s.serOperands = none := needsOf_ser s ▸ h.firstUndefined_eq_none
  rw [exec_eq_conclude, outcomeOf, serializeOutcome_of_checks hneeds hcap htx hview hapart hkd, State.image_false]
  exact conclude_writeFm _ s _

/-- Settles O15: the checks pass, and the image holds zeros for the MIC. -/
theorem serzWritesTheImageWithAClearedMic : Obligations.SerzWritesTheImageWithAClearedMic := by
  intro s kd h hcap htx hview hapart hkd
  have hneeds : s.firstUndefined serzOperands = none := needsOf_serz s ▸ h.firstUndefined_eq_none
  rw [exec_eq_conclude, outcomeOf, serializeOutcome_of_checks hneeds hcap htx hview hapart hkd, State.image_true]
  exact conclude_writeFm _ s _

/-- SER and SERZ with their operands defined: the shared checks, recorded under OP 2 (R114, R115). -/
theorem exec_serialize_of_ready {i : Instr} {s : State} (hi : i = .ser ∨ i = .serz) (h : s.ready i) :
    ∃ needs clear, s.firstUndefined needs = none ∧ exec i s = conclude 0x2 s (serializeOutcome needs clear s) := by
  rcases hi with rfl | rfl
  · exact ⟨s.serOperands, false, needsOf_ser s ▸ h.firstUndefined_eq_none, rfl⟩
  · exact ⟨serzOperands, true, needsOf_serz s ▸ h.firstUndefined_eq_none, rfl⟩

/-- Settles O18: the three fault checks in their order, each recorded. -/
theorem serializeFaultsInOrder : Obligations.SerializeFaultsInOrder := by
  rintro i s _ hi h rfl
  obtain ⟨needs, clear, hneeds, hexec⟩ := exec_serialize_of_ready hi h
  rw [hexec]
  refine ⟨fun hunfit => ?_, fun hcap htx hleaves => ?_, fun hcap htx hview hne hlo hhi => ?_⟩
  · rw [serializeOutcome_of_output_unfit hneeds hunfit]
    rfl
  · rw [serializeOutcome_of_view_leaves hneeds hcap htx hleaves]
    rfl
  · have hmeets : s.viewMeets s.txBase s.imageLen = true := (s.viewMeets_iff _ _).mpr ⟨hne, hlo, hhi⟩
    rw [serializeOutcome_of_view_meets hneeds hcap htx hview hmeets]
    rfl

/-! ### UPDLEN -/

section Updlen

variable {s : State}

theorem updlenOutcome_of_not_tx (h : s.origin ≠ .tx) : updlenOutcome s = .fault .notTx 0 := if_pos h

/-- On a Tx frame with its operands defined, UPDLEN has only the overflow left to check (R116). -/
theorem updlenOutcome_of_overflow (htx : s.origin = .tx) (h : s.ready .updlen) (hsum : 65535 < 79 + s.micLen + s.kdLen)
    (hset : s.params.bodyLenOverflow = .fault) : updlenOutcome s = .fault .bodylenOvf 0 := by
  have hneeds : s.firstUndefined updlenOperands = none := h.firstUndefined_eq_none
  simp [updlenOutcome, htx, hneeds, hsum, hset]

theorem updlenOutcome_of_no_overflow (htx : s.origin = .tx) (h : s.ready .updlen)
    (hsum : 79 + s.micLen + s.kdLen ≤ 65535 ∨ s.params.bodyLenOverflow = .wrap) :
    updlenOutcome s = .success { s with
      frf := { s.frf with bodylen := BitVec.ofNat 16 (79 + s.micLen + s.kdLen) }
      frfWdef0 := setBit s.frfWdef0 (frfIndex .bodylen)
      cls := .none } := by
  have hneeds : s.firstUndefined updlenOperands = none := h.firstUndefined_eq_none
  rcases hsum with hsum | hset
  · simp [updlenOutcome, htx, hneeds, Nat.not_lt.mpr hsum]
  · simp [updlenOutcome, htx, hneeds, hset]

end Updlen

/-- Settles O20: the sum is cut to the field's 16 bits. -/
theorem updlenWritesTheBodyLength : Obligations.UpdlenWritesTheBodyLength := by
  rintro s _ htx h rfl hsum
  have hexec := exec_eq_conclude .updlen s
  rw [outcomeOf, updlenOutcome_of_no_overflow htx h hsum, conclude_success] at hexec
  exact ⟨_, hexec, BitVec.toNat_ofNat _ _, rfl⟩

/-- Settles O21: ORIGIN is checked first, the overflow last. -/
theorem updlenFaultsOffTxAndOnOverflow : Obligations.UpdlenFaultsOffTxAndOnOverflow := by
  refine fun s => ⟨fun hne => ?_, fun htx h hsum hset => ?_⟩
  · rw [exec_eq_conclude, outcomeOf, updlenOutcome_of_not_tx hne]
    rfl
  · rw [exec_eq_conclude, outcomeOf, updlenOutcome_of_overflow htx h hsum hset]
    rfl

/-! ### PATCHMIC -/

section Patchmic

variable {s : State}

theorem patchmicOutcome_of_region_unfit (h : s.ready .patchmic)
    (hunfit : s.txCap < 81 + s.micLen ∨ s.params.fmBytes < s.txBase + (81 + s.micLen)) :
    patchmicOutcome s = .fault .buffer 4 := by
  have hneeds : s.firstUndefined s.patchmicNeeds = none := h.firstUndefined_eq_none
  have hcheck : (81 + s.micLen > s.txCap || s.leavesFm s.txBase (81 + s.micLen)) = true := by simpa using hunfit
  simp only [patchmicOutcome, hneeds, hcheck, if_true]

/-- The MIC region's checks (R66, R117) pass when it fits TX_CAP and stays in FM. -/
theorem State.micRegion_fits (hcap : 81 + s.micLen ≤ s.txCap)
    (htx : s.txBase + (81 + s.micLen) ≤ s.params.fmBytes) :
    (81 + s.micLen > s.txCap || s.leavesFm s.txBase (81 + s.micLen)) = false := by
  simp [State.leavesFm, hcap, htx]

theorem patchmicOutcome_of_view_meets (h : s.ready .patchmic) (hcap : 81 + s.micLen ≤ s.txCap)
    (htx : s.txBase + (81 + s.micLen) ≤ s.params.fmBytes) (hlen : s.frfDefined .kdlen = true)
    (haddr : s.frfDefined .kdaddr = true) (hmeets : s.viewMeets (s.txBase + 81) s.micLen = true) :
    patchmicOutcome s = .fault .overlap 1 := by
  have hneeds : s.firstUndefined s.patchmicNeeds = none := h.firstUndefined_eq_none
  simp only [patchmicOutcome, hneeds, State.micRegion_fits hcap htx, hlen, haddr, hmeets, Bool.and_self, if_true,
    Bool.false_eq_true, if_false]

theorem patchmicOutcome_of_checks (h : s.ready .patchmic) (hcap : 81 + s.micLen ≤ s.txCap)
    (htx : s.txBase + (81 + s.micLen) ≤ s.params.fmBytes)
    (hapart : s.frfDefined .kdlen = false ∨ s.frfDefined .kdaddr = false ∨
      s.viewApart (s.txBase + 81) s.micLen) :
    patchmicOutcome s = .success { s with fm := Memory.writeBytes s.fm (s.txBase + 81) s.keyMic } := by
  have hneeds : s.firstUndefined s.patchmicNeeds = none := h.firstUndefined_eq_none
  have hmiss : (s.frfDefined .kdlen && s.frfDefined .kdaddr && s.viewMeets (s.txBase + 81) s.micLen) = false := by
    rw [← State.viewMeets_eq_false_iff] at hapart
    rcases hapart with h | h | h <;> simp [h]
  simp only [patchmicOutcome, hneeds, State.micRegion_fits hcap htx, hmiss, Bool.false_eq_true, if_false]

end Patchmic

/-- Settles O22: the checks pass, and the held MIC is written. -/
theorem patchmicWritesTheHeldMic : Obligations.PatchmicWritesTheHeldMic := by
  intro s h hcap htx hapart
  rw [exec_eq_conclude, outcomeOf, patchmicOutcome_of_checks h hcap (by omega) hapart]
  exact conclude_writeFm _ s _

/-- Settles O23: the two fault checks in their order, each recorded. -/
theorem patchmicFaultsInOrder : Obligations.PatchmicFaultsInOrder := by
  refine fun s h => ⟨fun hunfit => ?_, fun hcap htx hlen haddr hne hlo hhi => ?_⟩
  · rw [exec_eq_conclude, outcomeOf, patchmicOutcome_of_region_unfit h (by omega)]
    rfl
  · have hmeets : s.viewMeets (s.txBase + 81) s.micLen = true := (s.viewMeets_iff _ _).mpr ⟨hne, hlo, hhi⟩
    rw [exec_eq_conclude, outcomeOf, patchmicOutcome_of_view_meets h hcap (by omega) hlen haddr hmeets]
    rfl

/-! ### DISCARD -/

@[simp] theorem State.invalidateFrf_frfDefined (s : State) (r : FrfReg) : s.invalidateFrf.frfDefined r = false := by
  simp [State.frfDefined]

@[simp] theorem State.invalidateFrf_micDefined (s : State) (k : Nat) : s.invalidateFrf.micDefined k = false := by
  simp [State.micDefined]

/-- Settles O26: DISCARD has no check and invalidates the frame. -/
theorem discardEndsTheFrame : Obligations.DiscardEndsTheFrame :=
  ⟨decode_encode .discard, fun s =>
    ⟨s.invalidateFrf.finishOk 0x8, rfl, s.invalidateFrf_frfDefined, s.invalidateFrf_micDefined, rfl⟩⟩

end Sys2Proof.Machine
end

section
/-! PROOFS. What a parsed frame holds (O9) and what an output buffer holds (O25), read back from the commands that
succeeded. -/

namespace Sys2Proof.Machine

/-! ### A parsed frame -/

/-- F_MIC's words behind a parsed frame: key_mic, zero padded to whole words (R113). -/
theorem State.loadFrame_micBytes (s : State) (r : KeyFrame) {ms : Nat} (base : Nat) (hms : wordsFor ms ≤ 16) :
    (s.loadFrame r ms base).micBytes.take (4 * wordsFor ms) =
      bytesOfWords ((List.range (wordsFor ms)).map (packWord r.keyMic)) := by
  have hwords : (micOfFrame s.mic r.keyMic ms).toList.take (wordsFor ms) =
      (List.range (wordsFor ms)).map (packWord r.keyMic) := by
    refine List.ext_getElem (by simp [hms]) (fun k hk _ => ?_)
    simp only [List.length_take, Vector.length_toList, lt_inf_iff] at hk
    simpa using micOfFrame_getElem s.mic r.keyMic (k := ⟨k, hk.2⟩) hk.1
  rw [State.micBytes, State.loadFrame_mic, take_bytesOfWords, hwords]

theorem le_four_mul_wordsFor (n : Nat) : n ≤ 4 * wordsFor n := by
  unfold wordsFor
  omega

/-- Byte j behind the F_MIC words of a parsed frame (R38, R113). -/
theorem State.byteAt_loadFrame_micBytes (s : State) (r : KeyFrame) {ms j : Nat} (base : Nat) (hms : wordsFor ms ≤ 16)
    (hj : j < 4 * wordsFor ms) : byteAt (s.loadFrame r ms base).micBytes j = byteAt r.keyMic j := by
  have hbyte := congrArg (byteAt · j) (s.loadFrame_micBytes r base hms)
  simpa [byteAt_take, byteAt_bytesOfWords_packWord, hj] using hbyte

/-- The F_MIC words a PARSE leaves defined, when those the MIC reaches exist (R113). -/
theorem State.loadFrame_micDefined_of_le (s : State) (r : KeyFrame) {ms : Nat} (base : Nat) (hms : wordsFor ms ≤ 16)
    (k : Nat) : (s.loadFrame r ms base).micDefined k = decide (k < wordsFor ms) := by
  rw [s.loadFrame_micDefined, ← Bool.decide_and, decide_eq_decide]
  omega

/-- The MIC held after a PARSE is the frame's (R40, R113). -/
theorem State.loadFrame_keyMic (s : State) {r : KeyFrame} {ms : Nat} (base : Nat) (hms : wordsFor ms ≤ 16)
    (hlen : r.keyMic.length = ms) (h16 : ms < 65536) : (s.loadFrame r ms base).keyMic = r.keyMic := by
  have hwords := le_four_mul_wordsFor ms
  have hmic : (s.loadFrame r ms base).keyMic.length = ms := by
    rw [State.keyMic, s.loadFrame_micLen r base h16, List.length_take, State.micBytes, length_bytesOfWords,
      Vector.length_toList]
    omega
  refine list_eq_of_byteAt (hmic.trans hlen.symm) (fun j hj => ?_)
  rw [State.keyMic, s.loadFrame_micLen r base h16, byteAt_take, if_pos (by omega),
    s.byteAt_loadFrame_micBytes r base hms (by omega)]

/-- Legal parameters give at most 16 F_MIC words and an FM below the address space's end (R7). -/
theorem sizes_of_legal {p : Params} (h : p.Legal) {ms : Nat} (hms : ms ≤ p.maxMic) :
    ms < 65536 ∧ wordsFor ms ≤ 16 ∧ p.fmBytes < 2 ^ 32 := by
  obtain ⟨⟨-, -, hmic⟩, ⟨-, -, hfm⟩, -⟩ := h
  unfold wordsFor
  omega

/-- The value of a slice fits a field of its size (R82). -/
theorem toNat_ofNat_be_slice {b : List Byte} {off n w : Nat} (hin : off + n ≤ b.length) (hw : 256 ^ n = 2 ^ w) :
    (BitVec.ofNat w (be (slice b off n))).toNat = be (slice b off n) :=
  toNat_ofNat_be (by rwa [length_slice_of_le hin])

/-- Settles O9: a good frame decodes, and each field of the FRF is read from its slice. -/
theorem parseLoadsTheFrame : Obligations.ParseLoadsTheFrame := by
  rintro s b _ hlegal h rfl hms hrx hb h3 hlong hlen
  obtain ⟨h16, hwords, hfm⟩ := sizes_of_legal hlegal hms
  have hdecode := decodeFrame_of_length_eq h3 hlen
  have hexec := exec_eq_conclude .parse s
  rw [outcomeOf, parseOutcome_of_decode_ok h hms hrx hb hdecode, conclude_success] at hexec
  have hbuf : b.length = s.rxLen := Memory.length_of_readBytes hb
  obtain ⟨hview, -⟩ := s.loadFrame_view (base := s.rxBase) hdecode (by omega)
  have hfield {off n w : Nat} := toNat_ofNat_be_slice (b := b) (off := off) (n := n) (w := w)
  have hcounter (v : Dword) := congrArg BitVec.toNat (append_extract_halves v)
  have hmic : (slice b 81 s.cfg.micSize.toNat).length = s.cfg.micSize.toNat := length_slice_of_le (by omega)
  have hdefined := s.loadFrame_micDefined_of_le (frameFields b s.cfg.micSize.toNat) s.rxBase hwords
  refine ⟨_, hexec, rfl, rfl, hfield (by omega) (by rfl), rfl, hfield (by omega) (by rfl), hfield (by omega) (by rfl),
    (hcounter _).trans (hfield (by omega) (by rfl)), bytesOfWords_nonceWords (length_slice_of_le (by omega)),
    bytesOfWords_ivWords (length_slice_of_le (by omega)), (hcounter _).trans (hfield (by omega) (by rfl)),
    s.loadFrame_micLen _ _ h16, s.loadFrame_keyMic _ hwords hmic h16, fun j hj hj4 => ?_,
    hfield (by omega) (by rfl), hview.trans (Nat.add_assoc _ _ _).symm, rfl, hdefined, rfl⟩
  exact (s.byteAt_loadFrame_micBytes _ s.rxBase hwords hj4).trans (byteAt_of_le (hmic.trans_le hj))

/-! ### Commands that succeeded -/

/-- A command recorded as a success had the outcome success (R190). -/
theorem conclude_succeeded {l : BitVec 4} {s t : State} {o : CmdOutcome} (h : conclude l s o = .next t)
    (hok : t.succeeded) : ∃ s', o = .success s' ∧ t = s'.finishOk l := by
  obtain ⟨-, herr⟩ := hok
  rcases conclude_eq_next h with hs | ⟨e, d, s', -, rfl⟩ | ⟨f, d, -, rfl⟩
  · exact hs
  · cases herr
  · cases herr

/-- What a PARSE that succeeded found and did (R113). -/
theorem exec_parse_succeeded {s t : State} (h : exec .parse s = .next t) (hok : t.succeeded) :
    s.ready .parse ∧ s.cfg.micSize.toNat ≤ s.params.maxMic ∧ s.rxBase + s.rxLen ≤ s.params.fmBytes ∧
    ∃ b r, Memory.readBytes s.fm s.rxBase s.rxLen = some b ∧ decodeFrame b s.cfg.micSize.toNat = .ok r ∧
      t = (s.loadFrame r s.cfg.micSize.toNat s.rxBase).finishOk 0x1 := by
  obtain ⟨s', hout, rfl⟩ := conclude_succeeded (exec_eq_conclude .parse s ▸ h) hok
  rcases parseOutcome_cases s with
    ⟨_, -, ho⟩ | ⟨hneeds, ⟨-, ho⟩ | ⟨hms, ⟨-, ho⟩ | ⟨hrx, ⟨-, ho⟩ | ⟨b, d, -, -, ho⟩ | ⟨b, r, hb, hr, ho⟩⟩⟩⟩ <;>
    cases ho.symm.trans hout
  exact ⟨(s.firstUndefined_eq_none_iff _).mp hneeds, hms, hrx, b, r, hb, hr, rfl⟩

/-- What a SER or SERZ that succeeded found and did (R114, R115). -/
theorem serialize_succeeded {l : BitVec 4} {needs : List Operand} {clear : Bool} {s t : State}
    (h : conclude l s (serializeOutcome needs clear s) = .next t) (hok : t.succeeded) :
    s.firstUndefined needs = none ∧ s.txBase + s.imageLen ≤ s.params.fmBytes ∧
    ∃ kd, s.keyData = some kd ∧
      t = State.finishOk { s with fm := Memory.writeBytes s.fm s.txBase (s.image clear kd) } l := by
  obtain ⟨s', hout, rfl⟩ := conclude_succeeded h hok
  rcases serializeOutcome_cases needs clear s with
    ⟨idx, -, ho⟩ | ⟨hneeds, ⟨-, ho⟩ | ⟨-, htx, ⟨-, ho⟩ | ⟨-, ⟨-, ho⟩ | ⟨-, ⟨-, ho⟩ | ⟨kd, hkd, ho⟩⟩⟩⟩⟩ <;>
    cases ho.symm.trans hout
  exact ⟨hneeds, htx, kd, hkd, rfl⟩

/-- What a PATCHMIC that succeeded did (R117). -/
theorem exec_patchmic_succeeded {s t : State} (h : exec .patchmic s = .next t) (hok : t.succeeded) :
    t = State.finishOk { s with fm := Memory.writeBytes s.fm (s.txBase + 81) s.keyMic } 0x4 := by
  obtain ⟨s', hout, rfl⟩ := conclude_succeeded (exec_eq_conclude .patchmic s ▸ h) hok
  rcases patchmicOutcome_cases s with ⟨_, -, ho⟩ | ⟨-, ⟨-, ho⟩ | ⟨-, -, ⟨-, ho⟩ | ⟨-, ho⟩⟩⟩ <;>
    cases ho.symm.trans hout
  rfl

/-! ### The MIC region of an image -/

/-- Byte i of an image: before the MIC, in it, or after it (R80). -/
theorem byteAt_frameImage (f : Frf) (mic kd : List Byte) (i : Nat) :
    byteAt (frameImage f mic kd) i =
      if i < 81 then byteAt (headFields f).flatten i
      else if i - 81 < mic.length then byteAt mic (i - 81)
      else byteAt (beBytes 2 f.kdlen.toNat ++ kd) (i - 81 - mic.length) := by
  rw [frameImage_eq_append, byteAt_append, byteAt_append, length_headFields_flatten]

/-- A MIC written over another of its length leaves the image with that MIC (R117). -/
theorem Memory.read_patchMic (m : Memory) (base : Nat) (f : Frf) {mic old : List Byte} (kd : List Byte)
    (h : mic.length = old.length) (a : Nat) :
    Memory.read (Memory.writeBytes (Memory.writeBytes m base (frameImage f old kd)) (base + 81) mic) a =
      Memory.read (Memory.writeBytes m base (frameImage f mic kd)) a := by
  simp only [Memory.read_writeBytes, length_frameImage, h]
  by_cases hin : base ≤ a ∧ a < base + (83 + old.length + kd.length)
  · rw [if_pos hin, if_pos hin, byteAt_frameImage, byteAt_frameImage]
    by_cases hmic : base + 81 ≤ a ∧ a < base + 81 + old.length
    · rw [if_pos hmic, if_neg (by omega), if_pos (by omega), Nat.sub_add_eq]
    · rw [if_neg hmic]
      by_cases hhead : a - base < 81
      · rw [if_pos hhead, if_pos hhead]
      · rw [if_neg hhead, if_neg hhead, if_neg (by omega), if_neg (by omega), h]
  · rw [if_neg hin, if_neg hin, if_neg (by omega)]

/-- The F_MIC words SER and PATCHMIC need hold the whole MIC: there are 16, so F_MICLEN is at most 64 (R38, R40). -/
theorem State.length_keyMic {s : State} (h : ∀ x ∈ micOperands s.micLen, s.isDefined x = true) :
    s.keyMic.length = s.micLen := by
  have hwords : wordsFor s.micLen ≤ 16 := by
    by_contra hlt
    have hdef : s.micDefined 16 = true := h (.mic 16) (List.mem_map_of_mem (List.mem_range.mpr (by omega)))
    rw [State.micDefined, BitVec.getLsbD_of_ge _ _ (by decide)] at hdef
    cases hdef
  have hle := le_four_mul_wordsFor s.micLen
  rw [State.keyMic, List.length_take, State.micBytes, length_bytesOfWords, Vector.length_toList]
  omega

/-- Settles O25: SERZ's image holds F_MICLEN zeros where PATCHMIC writes the MIC that SER puts there. -/
theorem serzThenPatchmicEqualsSer : Obligations.SerzThenPatchmicEqualsSer := by
  intro s t u v mic d ht htok hu huok hv hvok a
  obtain ⟨-, -, kd, hkd, rfl⟩ := serialize_succeeded (exec_eq_conclude .serz s ▸ ht) htok
  obtain ⟨hneeds, -, kd', hkd', rfl⟩ := serialize_succeeded (exec_eq_conclude .ser _ ▸ hv) hvok
  obtain rfl := exec_patchmic_succeeded hu huok
  obtain rfl : kd = kd' := Option.some.inj (hkd.symm.trans hkd')
  have hmic := State.length_keyMic (s := { s with mic := mic, frfWdef1 := d }) (fun x hx =>
    (State.firstUndefined_eq_none_iff _ _).mp hneeds x (List.mem_append_right _ hx))
  simp only [State.finishOk_fm, State.image_true, State.image_false]
  exact Memory.read_patchMic s.fm s.txBase s.frf kd (hmic.trans (List.length_replicate ..).symm) a

end Sys2Proof.Machine
end

section
/-! PROOFS. The round trip of R112 (O19): `decode` after `image` gives the fields back but for the reserved bits, `image`
after `decode` gives the bytes back but for the reserved ones, and the machine runs the two on its buffers. -/

namespace Sys2Proof.Machine

/-! ### Fields, image, fields -/

/-- A word array is determined by what its words pack. -/
theorem map_packWord_eq {bs : List Byte} {n : Nat} {ws : Vector Word n} (h : ∀ j : Fin n, packWord bs j = ws[j]) :
    (List.range n).map (packWord bs) = ws.toList := by
  refine List.ext_getElem (by simp) (fun j hj _ => ?_)
  simpa using h ⟨j, by simpa using hj⟩

/-- An image decodes when PACKET_TYPE is EAPOL-Key's and its key data has the length its fields say (R110, R112). -/
theorem decodeFrame_frameImage {f : Frf} (mic : List Byte) {kd : List Byte} (h3 : f.ptype = 3)
    (hkd : kd.length = f.kdlen.toNat) :
    decodeFrame (frameImage f mic kd) mic.length = .ok (frameFields (frameImage f mic kd) mic.length) := by
  obtain ⟨hlen, -, htype, -, -, -, -, -, -, -, -, -, -, hkdl, -⟩ := imageHasTheWireLayout f mic kd _ hkd rfl
  refine decodeFrame_of_length_eq (htype.trans h3) ?_
  rw [hlen, keyDataLenOf, hkdl, hkd]

/-- The FRF words of a decoded image are those it was made from, but for the reserved bits of KeyInformation and the
words that say where the frame stands (R112). -/
theorem frfOfFrame_frameFields_frameImage (f : Frf) (mic : List Byte) {kd : List Byte} (base : Nat)
    (hkd : kd.length = f.kdlen.toNat) :
    frfOfFrame (frameFields (frameImage f mic kd) mic.length) mic.length base =
      { f with
        keyinfo := f.keyinfo &&& 0x3FCF
        miclen := BitVec.ofNat 16 mic.length
        kdaddr := BitVec.ofNat 32 (base + (83 + mic.length)) } := by
  obtain ⟨-, hproto, htype, hbodylen, hdesc, hki, hkeylen, hrc, hnonce, hiv, hrsc, -, -, hkdl, -⟩ :=
    imageHasTheWireLayout f mic kd _ hkd rfl
  have hnonceWords := fun j : Fin 8 => packWord_slice (len := 32) (by omega) (hnonce j)
  have hivWords := fun j : Fin 4 => packWord_slice (len := 16) (by omega) (hiv j)
  have hrcField := ofNat_eq_of_eq_toNat hrc
  have hrscField := ofNat_eq_of_eq_toNat hrsc
  simp only [frfOfFrame, frameFields, keyDataLenOf, Frf.mk.injEq, hproto, htype, hdesc, hrcField, hrscField,
    ofNat_eq_of_eq_toNat hbodylen, ofNat_eq_of_eq_toNat hki, ofNat_eq_of_eq_toNat hkeylen, ofNat_eq_of_eq_toNat hkdl,
    BitVec.extractLsb'_append_eq_left, BitVec.extractLsb'_append_eq_right, true_and, and_true]
  exact ⟨Vector.toList_inj.mp (map_packWord_eq hnonceWords), Vector.toList_inj.mp (map_packWord_eq hivWords)⟩

/-! ### Bytes, fields, bytes -/

/-- The value of two bytes is their concatenation's (R11). -/
theorem be_pair (x y : Byte) : be [x, y] = (x ++ y : Half).toNat := by
  rw [BitVec.toNat_append, ← Nat.shiftLeft_add_eq_or_of_lt y.isLt, Nat.shiftLeft_eq]
  simp [be]

/-- KeyInformation's two bytes on the wire: the reserved bits of each are zero (R84, R86). -/
theorem beBytes_onWire (x y : Byte) :
    beBytes 2 (KeyInfo.onWire (BitVec.ofNat 16 (be [x, y]))).toNat = [x &&& 0x3F, y &&& 0xCF] := by
  have hwire : KeyInfo.onWire (x ++ y) = (x &&& 0x3F) ++ (y &&& 0xCF) :=
    BitVec.and_append (x₂ := (0x3F : Byte)) (y₂ := (0xCF : Byte))
  rw [ofNat_eq_of_eq_toNat (be_pair x y), hwire, ← be_pair]
  exact beBytes_be [x &&& 0x3F, y &&& 0xCF]

section ParsedImage

variable {b : List Byte} {ms : Nat}

/-- A slice read into a field and written from it is the slice (R82). -/
theorem beBytes_ofNat_be_slice {off n w : Nat} (hin : off + n ≤ b.length) (hw : 256 ^ n = 2 ^ w) :
    beBytes n (BitVec.ofNat w (be (slice b off n))).toNat = slice b off n :=
  beBytes_ofNat_be (length_slice_of_le hin) hw

/-- A parsed frame serialized: the octets before the MIC are those received, but for the reserved ones (R112). -/
theorem headFields_parsed (base : Nat) (h : 83 + ms ≤ b.length) :
    (headFields (frfOfFrame (frameFields b ms) ms base)).flatten =
      slice b 0 5 ++ ([byteAt b 5 &&& 0x3F, byteAt b 6 &&& 0xCF] ++ (slice b 7 66 ++ List.replicate 8 0)) := by
  have hki : slice b 5 2 = [byteAt b 5, byteAt b 6] := by
    rw [← slice_append_slice (s' := 6) (n := 1) b 1 rfl, ← singleton_byteAt (by omega), ← singleton_byteAt (by omega)]
    rfl
  have hstart : slice b 0 5 = slice b 0 1 ++ (slice b 1 1 ++ (slice b 2 2 ++ slice b 4 1)) := by
    rw [slice_append_slice _ _ rfl, slice_append_slice _ _ rfl, slice_append_slice _ _ rfl]
  have hmiddle : slice b 7 66 = slice b 7 2 ++ (slice b 9 8 ++ (slice b 17 32 ++ (slice b 49 16 ++ slice b 65 8))) := by
    rw [slice_append_slice _ _ rfl, slice_append_slice _ _ rfl, slice_append_slice _ _ rfl, slice_append_slice _ _ rfl]
  have hcounter (off : Nat) (hin : off + 8 ≤ b.length) :=
    beBytes_ofNat_be_slice (b := b) (off := off) (n := 8) (w := 64) hin (by rfl)
  simp only [headFields, frfOfFrame, frameFields, List.flatten_cons, List.flatten_nil, List.append_nil,
    singleton_byteAt (b := b) (i := 0) (by omega), singleton_byteAt (b := b) (i := 1) (by omega),
    singleton_byteAt (b := b) (i := 4) (by omega), append_extract_halves, hcounter 9 (by omega), hcounter 65 (by omega),
    beBytes_ofNat_be_slice (b := b) (off := 2) (n := 2) (w := 16) (by omega) (by rfl),
    beBytes_ofNat_be_slice (b := b) (off := 7) (n := 2) (w := 16) (by omega) (by rfl),
    bytesOfWords_nonceWords (length_slice_of_le (b := b) (s := 17) (n := 32) (by omega)),
    bytesOfWords_ivWords (length_slice_of_le (b := b) (s := 49) (n := 16) (by omega)),
    hki, beBytes_onWire, hstart, hmiddle, List.append_assoc]

/-- A parsed frame serialized: the octets after the MIC are those received (R112). -/
theorem tail_parsed (base : Nat) (h : 83 + ms ≤ b.length) (kdl : Nat) :
    beBytes 2 (frfOfFrame (frameFields b ms) ms base).kdlen.toNat ++ slice b (83 + ms) kdl =
      slice b (81 + ms) (2 + kdl) := by
  have hlen : beBytes 2 (frfOfFrame (frameFields b ms) ms base).kdlen.toNat = slice b (81 + ms) 2 :=
    beBytes_ofNat_be_slice (by omega) (by rfl)
  rw [hlen, slice_append_slice _ _ (by omega)]

/-- Byte i of a serialized frame, from byte x received at i: octets 73..80, the reserved bits of KeyInformation and a
cleared MIC are zero, and the rest is as received (R86, R87, R112). -/
def wireByte (clear : Bool) (ms i : Nat) (x : Byte) : Byte :=
  if 73 ≤ i ∧ i ≤ 80 then 0
  else if i = 5 then x &&& 0x3F
  else if i = 6 then x &&& 0xCF
  else if clear = true ∧ 81 ≤ i ∧ i < 81 + ms then 0
  else x

/-- A serialized frame before its MIC. -/
theorem byteAt_headFields_parsed (clear : Bool) (base : Nat) (h : 83 + ms ≤ b.length) {i : Nat} (hi : i < 81) :
    byteAt (headFields (frfOfFrame (frameFields b ms) ms base)).flatten i = wireByte clear ms i (byteAt b i) := by
  rw [headFields_parsed base h, byteAt_append, length_slice_of_le (by omega), byteAt_slice]
  obtain hlow | rfl | rfl | hhigh : i < 5 ∨ i = 5 ∨ i = 6 ∨ 7 ≤ i := by omega
  · rw [if_pos hlow, if_pos hlow, wireByte, if_neg (by omega), if_neg (by omega), if_neg (by omega), if_neg (by omega),
      Nat.zero_add]
  · rfl
  · rfl
  · rw [if_neg (by omega), byteAt_append, if_neg (by simp; omega), byteAt_append, length_slice_of_le (by omega),
      byteAt_slice, byteAt_replicate_zero]
    by_cases hreserved : 73 ≤ i
    · rw [if_neg (by simp; omega), wireByte, if_pos (by omega)]
    · rw [if_pos (by simp; omega), if_pos (by simp; omega), wireByte, if_neg (by omega), if_neg (by omega),
        if_neg (by omega), if_neg (by omega)]
      congr 1
      simp
      omega

/-- A serialized frame's MIC. -/
theorem byteAt_imageMic_parsed (clear : Bool) {i : Nat} (hlo : 81 ≤ i) (hhi : i < 81 + ms) :
    byteAt (imageMic clear ms (slice b 81 ms)) (i - 81) = wireByte clear ms i (byteAt b i) := by
  rw [wireByte, if_neg (by omega), if_neg (by omega), if_neg (by omega)]
  cases clear with
  | true => rw [if_pos ⟨rfl, hlo, hhi⟩]; exact byteAt_replicate_zero ms _
  | false =>
    rw [if_neg (by simp)]
    refine (byteAt_slice b 81 ms _).trans ?_
    rw [if_pos (by omega), Nat.add_sub_cancel' hlo]

/-- A serialized frame after its MIC. -/
theorem wireByte_of_ge (clear : Bool) {i : Nat} (x : Byte) (h : 81 + ms ≤ i) : wireByte clear ms i x = x := by
  rw [wireByte, if_neg (by omega), if_neg (by omega), if_neg (by omega), if_neg (by omega)]

theorem length_imageMic (clear : Bool) {mic : List Byte} (h : mic.length = ms) :
    (imageMic clear ms mic).length = ms := by
  cases clear with
  | true => exact List.length_replicate
  | false => exact h

/-- The image of the frame parsed from `b` at `base`: what SER, or SERZ when `clear`, writes of it (R111, R112). -/
def reserialized (clear : Bool) (b : List Byte) (ms base kdl : Nat) : List Byte :=
  frameImage (frfOfFrame (frameFields b ms) ms base) (imageMic clear ms (slice b 81 ms)) (slice b (83 + ms) kdl)

theorem length_reserialized (clear : Bool) (base : Nat) {kdl : Nat} (hlen : b.length = 83 + ms + kdl) :
    (reserialized clear b ms base kdl).length = b.length := by
  rw [reserialized, length_frameImage, length_imageMic clear (length_slice_of_le (by omega)),
    length_slice_of_le (by omega), hlen]

/-- A parsed frame serialized is the received one, byte by byte, but for what R112 excepts. -/
theorem byteAt_reserialized (clear : Bool) (base : Nat) {kdl i : Nat} (hlen : b.length = 83 + ms + kdl)
    (hi : i < b.length) :
    byteAt (reserialized clear b ms base kdl) i = wireByte clear ms i (byteAt b i) := by
  rw [reserialized, byteAt_frameImage, length_imageMic clear (length_slice_of_le (by omega)),
    tail_parsed base (by omega)]
  by_cases hhead : i < 81
  · rw [if_pos hhead, byteAt_headFields_parsed clear base (by omega) hhead]
  · by_cases hmic : i - 81 < ms
    · rw [if_neg hhead, if_pos hmic, byteAt_imageMic_parsed clear (by omega) (by omega)]
    · rw [if_neg hhead, if_neg hmic, byteAt_slice, if_pos (by omega), wireByte_of_ge clear _ (by omega)]
      congr 1
      omega

end ParsedImage

/-! ### The machine -/

/-- A slice of a buffer is read from where it stands in FM (R13). -/
theorem Memory.readBytes_slice {m : Memory} {a n o k : Nat} {b : List Byte} (h : Memory.readBytes m a n = some b)
    (hin : o + k ≤ n) : Memory.readBytes m (a + o) k = some (slice b o k) := by
  obtain ⟨hlen, hbyte⟩ := (Memory.readBytes_eq_some_iff m a n b).mp h
  refine (Memory.readBytes_eq_some_iff m _ k _).mpr ⟨length_slice_of_le (by omega), fun i hi => ?_⟩
  rw [byteAt_slice, if_pos hi, Nat.add_assoc, hbyte _ (by omega)]

/-- The state holds the frame `b` with MIC length `ms`, parsed from `base`: what a PARSE that succeeded leaves and the
host's writes of TX_BASE and TX_CAP keep. -/
structure State.HoldsFrame (t : State) (b : List Byte) (ms base : Nat) : Prop where
  packetType : byteAt b 1 = 3
  length : b.length = 83 + ms + t.kdLen
  frf : t.frf = frfOfFrame (frameFields b ms) ms base
  micLen : t.micLen = ms
  keyMic : t.keyMic = slice b 81 ms
  keyData : t.keyData = some (slice b (83 + ms) t.kdLen)

/-- A PARSE that succeeded leaves its buffer's frame held. -/
theorem State.loadFrame_holdsFrame {s : State} {b : List Byte} {r : KeyFrame} {ms : Nat} (hlegal : s.params.Legal)
    (hms : ms ≤ s.params.maxMic) (hrx : s.rxBase + s.rxLen ≤ s.params.fmBytes)
    (hb : Memory.readBytes s.fm s.rxBase s.rxLen = some b) (hr : decodeFrame b ms = .ok r) :
    (s.loadFrame r ms s.rxBase).HoldsFrame b ms s.rxBase := by
  obtain ⟨h16, hwords, hfm⟩ := sizes_of_legal hlegal hms
  obtain ⟨hfields, hlen⟩ := decodeFrame_eq_ok hr
  have hbuf : b.length = s.rxLen := Memory.length_of_readBytes hb
  obtain ⟨hka, hend⟩ := s.loadFrame_view (base := s.rxBase) hr (by omega)
  have hmic : r.keyMic = slice b 81 ms := congrArg KeyFrame.keyMic hfields
  have hmicLen : r.keyMic.length = ms := by rw [hmic, length_slice_of_le (by omega)]
  exact {
    packetType := byteAt_one_of_decodeFrame_ok hr
    length := by omega
    frf := congrArg (frfOfFrame · ms s.rxBase) hfields
    micLen := s.loadFrame_micLen r s.rxBase h16
    keyMic := (s.loadFrame_keyMic s.rxBase hwords hmicLen h16).trans hmic
    keyData := by
      rw [State.keyData, hka]
      exact Memory.readBytes_slice hb (by omega) }

section HeldFrame

variable {u : State} {b : List Byte} {ms base : Nat}

/-- What SER and SERZ write of a held frame (R111, R112). -/
theorem State.HoldsFrame.image_eq (h : u.HoldsFrame b ms base) (clear : Bool) :
    u.image clear (slice b (83 + ms) u.kdLen) = reserialized clear b ms base u.kdLen := by
  rw [State.image, h.frf, h.micLen, h.keyMic, reserialized]

theorem State.HoldsFrame.imageLen_eq (h : u.HoldsFrame b ms base) : u.imageLen = b.length := by
  rw [State.imageLen, h.micLen, h.length]

/-- What a SER or SERZ of a held frame writes, and where (R114, R115). -/
theorem State.HoldsFrame.serialized {clear : Bool} {v : State} (hu : u.HoldsFrame b ms base)
    (h : exec (if clear then .serz else .ser) u = .next v) (hok : v.succeeded) :
    u.txBase + b.length ≤ u.params.fmBytes ∧
    v = State.finishOk { u with fm := Memory.writeBytes u.fm u.txBase (reserialized clear b ms base u.kdLen) } 0x2 := by
  obtain ⟨needs, hexec⟩ : ∃ needs, conclude 0x2 u (serializeOutcome needs clear u) = .next v := by
    cases clear
    · exact ⟨_, h⟩
    · exact ⟨_, h⟩
  obtain ⟨-, htx, kd, hkd, hv⟩ := serialize_succeeded hexec hok
  obtain rfl : kd = slice b (83 + ms) u.kdLen := Option.some.inj (hkd.symm.trans hu.keyData)
  rw [hu.image_eq] at hv
  exact ⟨hu.imageLen_eq ▸ htx, hv⟩

end HeldFrame

/-- A reserialized frame in FM, against the buffer it was received in (R112). -/
theorem Memory.read_reserialized {m : Memory} {b : List Byte} {a n ms kdl : Nat} (clear : Bool) (base out : Nat)
    (hb : Memory.readBytes m a n = some b) (hlen : b.length = 83 + ms + kdl) {i : Nat} (hi : i < n) :
    Memory.read (Memory.writeBytes m out (reserialized clear b ms base kdl)) (out + i) =
      (Memory.read m (a + i)).map (wireByte clear ms i) := by
  obtain ⟨hbuf, hbyte⟩ := (Memory.readBytes_eq_some_iff m a n b).mp hb
  rw [hbyte i hi, Memory.read_writeBytes, length_reserialized clear base hlen, if_pos (by omega),
    Nat.add_sub_cancel_left, byteAt_reserialized clear base hlen (by omega), Option.map_some]

/-- A PARSE of a buffer that holds an image succeeds and gives the image's fields back (R112). -/
theorem exec_parse_of_image {w : State} {f : Frf} {mic kd : List Byte} (hlegal : w.params.Legal)
    (hready : w.ready .parse) (hsize : w.cfg.micSize.toNat = mic.length) (hms : mic.length ≤ w.params.maxMic)
    (hrx : w.rxBase + w.rxLen ≤ w.params.fmBytes)
    (hb : Memory.readBytes w.fm w.rxBase w.rxLen = some (frameImage f mic kd)) (h3 : f.ptype = 3)
    (hkd : kd.length = f.kdlen.toNat) :
    ∃ x, exec .parse w = .next x ∧ x.succeeded ∧
      x.frf = { f with
        keyinfo := f.keyinfo &&& 0x3FCF
        miclen := BitVec.ofNat 16 mic.length
        kdaddr := BitVec.ofNat 32 (w.rxBase + (83 + mic.length)) } ∧
      x.keyMic = mic := by
  have hdecode := decodeFrame_frameImage mic h3 hkd
  have hexec := exec_eq_conclude .parse w
  rw [outcomeOf, parseOutcome_of_decode_ok hready (hsize ▸ hms) hrx hb (hsize ▸ hdecode), conclude_success, hsize] at hexec
  have hheld := State.loadFrame_holdsFrame hlegal hms hrx hb hdecode
  exact ⟨_, hexec, ⟨rfl, rfl⟩, hheld.frf.trans (frfOfFrame_frameFields_frameImage f mic w.rxBase hkd),
    hheld.keyMic.trans (slice_frameImage_mic f mic kd)⟩

/-- A PARSE of a held frame's image gives the frame back, but for the reserved bits of KeyInformation, a cleared MIC and
the key-data address (R112). -/
theorem State.HoldsFrame.parsed_again {t w : State} {b : List Byte} {ms base : Nat} {clear : Bool}
    (h : t.HoldsFrame b ms base) (hlegal : w.params.Legal) (hready : w.ready .parse)
    (hsize : w.cfg.micSize.toNat = ms) (hms : ms ≤ w.params.maxMic) (hrx : w.rxBase + w.rxLen ≤ w.params.fmBytes)
    (hb : Memory.readBytes w.fm w.rxBase w.rxLen = some (reserialized clear b ms base t.kdLen)) :
    ∃ x, exec .parse w = .next x ∧ x.succeeded ∧
      x.frf = { t.frf with
        keyinfo := t.frf.keyinfo &&& 0x3FCF
        kdaddr := BitVec.ofNat 32 (w.rxBase + 83 + t.micLen) } ∧
      x.keyMic = imageMic clear t.micLen t.keyMic := by
  have hlen := h.length
  have hmic : (imageMic clear ms (slice b 81 ms)).length = ms := length_imageMic clear (length_slice_of_le (by omega))
  have hkd : (slice b (83 + ms) t.kdLen).length = (frfOfFrame (frameFields b ms) ms base).kdlen.toNat := by
    rw [length_slice_of_le (by omega), ← h.frf]
    rfl
  obtain ⟨x, hx, hok, hfrf, hkeyMic⟩ :=
    exec_parse_of_image hlegal hready (hsize.trans hmic.symm) (hmic.trans_le hms) hrx hb h.packetType hkd
  refine ⟨x, hx, hok, ?_, ?_⟩
  · rw [hfrf, h.frf, h.micLen, hmic, Nat.add_assoc]
    rfl
  · rw [hkeyMic, h.micLen, h.keyMic]

/-- PARSE stays ready when more CFG registers become defined (R43, R113). -/
theorem State.ready.parse_of_cfgWdef {s w : State} {more : BitVec 9} (h : s.ready .parse)
    (hw : w.cfgWdef = s.cfgWdef ||| more) : w.ready .parse := by
  intro x hx
  have hs := h x hx
  cases x with
  | cfg r =>
    rw [State.isDefined_cfg, State.cfgDefined] at hs ⊢
    rw [hw, BitVec.getLsbD_or, hs, Bool.true_or]
  | frf r => simp [needsOf] at hx
  | mic k => simp [needsOf] at hx

/-- Settles O19: the parsed frame is held when SER or SERZ writes it, so the output is the received frame byte by byte
but for R112's exceptions, and it is an image, so PARSE gives its fields back. -/
theorem serializeThenParseReproducesTheFrame : Obligations.SerializeThenParseReproducesTheFrame := by
  intro clear s t u v tb cap hlegal hparse hok hu hser hvok
  obtain ⟨hready, hms, hrx, b, r, hb, hr, ht⟩ := exec_parse_succeeded hparse hok
  have hbuf : b.length = s.rxLen := Memory.length_of_readBytes hb
  have hheld : t.HoldsFrame b s.cfg.micSize.toNat s.rxBase := by
    rw [ht]
    exact { State.loadFrame_holdsFrame hlegal hms hrx hb hr with }
  have hheldTx : u.HoldsFrame b s.cfg.micSize.toNat s.rxBase := by
    rw [hu]
    exact { hheld with }
  have hparamsTx : u.params = s.params := by rw [hu, ht]; rfl
  have hout : u.txBase = tb.toNat := by rw [hu]; rfl
  have hkdLen : u.kdLen = t.kdLen := by rw [hu]; rfl
  have hfmTx : u.fm = s.fm := by rw [hu, ht]; rfl
  obtain ⟨hfit, hv⟩ := hheldTx.serialized hser hvok
  rw [hout, hparamsTx] at hfit
  have hparams : v.params = s.params := by rw [hv]; exact hparamsTx
  have hcfg : v.cfg = { s.cfg with txBase := tb, txCap := cap } := by rw [hv, hu, ht]; rfl
  have hwdef : v.cfgWdef = s.cfgWdef ||| 0x018 := by rw [hv, hu, ht]; rfl
  have hfm : v.fm = Memory.writeBytes s.fm tb.toNat (reserialized clear b s.cfg.micSize.toNat s.rxBase t.kdLen) := by
    rw [hv, State.finishOk_fm, hout, hfmTx, hkdLen]
  have hsize : v.cfg.micSize.toNat = s.cfg.micSize.toNat := by rw [hcfg]
  have hrxLen : v.rxLen = b.length := by rw [State.rxLen, hcfg, hbuf]; rfl
  refine ⟨fun i hi => ?_, ?_⟩
  · rw [hfm, hheld.micLen]
    exact Memory.read_reserialized clear _ _ hb hheld.length hi
  · refine hheld.parsed_again (w := { v with cfg := { v.cfg with rxBase := tb } }) (hparams ▸ hlegal)
      (hready.parse_of_cfgWdef hwdef) hsize (hparams ▸ hms) ?_ ?_
    · exact (congrArg (tb.toNat + ·) hrxLen).trans_le (hparams ▸ hfit)
    · change Memory.readBytes v.fm tb.toNat v.rxLen = _
      rw [hfm, hrxLen, ← length_reserialized clear s.rxBase hheld.length]
      exact Memory.readBytes_writeBytes_same _ _ _

end Sys2Proof.Machine
end

section
/-! PROOFS. The Key-Descriptor-Version table: one equation of `kdv` per AKM family (R150), the rows of R152 from them
(O27), and the command that writes the table's value (R151: O28). -/

namespace Sys2Proof.Machine

/-! ### The table, by AKM family -/

section Table

variable {p : Params} {d : Byte} {prot : Word}

/-- An unknown AKM or an unknown pairwise cipher gives 0 before anything else is looked at (R150). -/
theorem kdv_of_not_known (h : ¬(Prot.akmKnown prot = true ∧ Prot.pwKnown prot = true)) : kdv p d prot = 0 := by
  have hunknown : Prot.akmKnown prot = false ∨ Prot.pwKnown prot = false := by
    simpa only [Decidable.not_and_iff_not_or_not, Bool.not_eq_true] using h
  exact if_pos hunknown

/-- With both known, only the AKM type, the descriptor and the three cipher bits decide (R150). -/
theorem kdv_of_known (h : Prot.akmKnown prot = true ∧ Prot.pwKnown prot = true) :
    kdv p d prot =
      if Prot.akmType prot = 1 ∨ Prot.akmType prot = 2 then
        if (d = p.descRc4 ∨ d = p.descWpa1) ∧ Prot.pwTkipOrGroup prot = true then 1
        else if d = p.desc80211 ∧ (Prot.pwEnh prot = true ∨ Prot.gdEnh prot = true) then 2
        else 0
      else if Prot.akmType prot = 3 ∨ Prot.akmType prot = 4 ∨ Prot.akmType prot = 5 ∨ Prot.akmType prot = 6 then 3
      else 0 :=
  if_neg (by simp only [h.1, h.2, Bool.true_eq_false, or_self, not_false_eq_true])

/-- The 802.1X and PSK families, AKM types 1 and 2: the descriptor and the cipher bits decide (R150). -/
theorem kdv_of_psk_akm (h : Prot.akmKnown prot = true ∧ Prot.pwKnown prot = true)
    (hakm : (Prot.akmType prot).toNat = 1 ∨ (Prot.akmType prot).toNat = 2) :
    kdv p d prot =
      if (d = p.descRc4 ∨ d = p.descWpa1) ∧ Prot.pwTkipOrGroup prot = true then 1
      else if d = p.desc80211 ∧ (Prot.pwEnh prot = true ∨ Prot.gdEnh prot = true) then 2
      else 0 := by
  rw [kdv_of_known h]
  exact if_pos (by bv_omega)

/-- The SHA-256 and FT families, AKM types 3 to 6, give 3 for every descriptor (R150). -/
theorem kdv_of_sha256_akm (h : Prot.akmKnown prot = true ∧ Prot.pwKnown prot = true)
    (h3 : 3 ≤ (Prot.akmType prot).toNat) (h6 : (Prot.akmType prot).toNat ≤ 6) : kdv p d prot = 3 := by
  rw [kdv_of_known h, if_neg (by bv_omega)]
  exact if_pos (by bv_omega)

/-- Every other AKM type gives 0 (R150). -/
theorem kdv_of_other_akm (h : Prot.akmKnown prot = true ∧ Prot.pwKnown prot = true)
    (hakm : (Prot.akmType prot).toNat = 0 ∨ 7 ≤ (Prot.akmType prot).toNat) : kdv p d prot = 0 := by
  rw [kdv_of_known h, if_neg (by bv_omega)]
  exact if_neg (by bv_omega)

end Table

/-- Settles O27: one AKM family per row, and the distinct codes of R7 keep the descriptor rows apart. -/
theorem kdvIsTheTableOfR152 : Obligations.KdvIsTheTableOfR152 := by
  intro p d prot hlegal known akm tkip enh
  obtain ⟨-, -, hrc4, -, hwpa1⟩ := hlegal
  have hlegacy : d = p.descRc4 ∨ d = p.descWpa1 → d ≠ p.desc80211 := by
    rintro (rfl | rfl)
    · exact hrc4
    · exact hwpa1.symm
  refine ⟨kdv_of_not_known, fun hk ha hd ht => ?tkip, fun hk ha hd ht => ?legacyOther, fun hk ha hd he => ?enhanced,
    fun hk ha hd he => ?notEnhanced, fun hk ha h1 h2 h3 => ?unknownDescriptor, fun hk => kdv_of_sha256_akm hk,
    fun hk => kdv_of_other_akm hk, kdv_le_three p d prot⟩
  case tkip => rw [kdv_of_psk_akm hk ha, if_pos ⟨hd, ht⟩]
  case legacyOther => rw [kdv_of_psk_akm hk ha, if_neg (ht ·.2), if_neg (hlegacy hd ·.1)]
  case enhanced => rw [kdv_of_psk_akm hk ha, if_neg (hlegacy ·.1 hd), if_pos ⟨hd, he⟩]
  case notEnhanced => rw [kdv_of_psk_akm hk ha, if_neg (hlegacy ·.1 hd), if_neg (he ·.2)]
  case unknownDescriptor => rw [kdv_of_psk_akm hk ha, if_neg (·.1.elim h1 h2), if_neg (h3 ·.1)]

/-! ### The command -/

/-- KDV has no check but its operands (R151). -/
theorem kdvOutcome_of_ready {s : State} (h : s.ready .kdv) :
    kdvOutcome s = .success { s with version := kdv s.params s.frf.desc s.cfg.prot, vvalid := true } := by
  have hneeds : s.firstUndefined kdvOperands = none := h.firstUndefined_eq_none
  simp only [kdvOutcome, hneeds]

/-- Settles O28: the command succeeds, and finishing it writes STATUS alone. -/
theorem kdvWritesVersion : Obligations.KdvWritesVersion := by
  intro s h
  rw [exec_eq_conclude, outcomeOf, kdvOutcome_of_ready h, conclude_success]
  rfl

end Sys2Proof.Machine
end

section
/-! PROOFS. The admission unit: the comparator as an inequality (R162: O29) and RCCMP, which answers it alone (R163:
O30); the gate's nested checks as the first hit of one chain, which is the head of the list of failing checks (R164,
R166: O31, O32); and what passing every check rules out (R169: O33). -/

namespace Sys2Proof.Machine

/-! ### The sender and the comparator -/

/-- A Supplicant's frame is what an Authenticator receives (R15). -/
@[simp] theorem opposite_eq_supplicant_iff (r : Role) : opposite r = .supplicant ↔ r = .authenticator := by
  cases r <;> decide

@[simp] theorem opposite_eq_authenticator_iff (r : Role) : opposite r = .authenticator ↔ r = .supplicant := by
  cases r <;> decide

/-- What check 8 lets pass (R162). -/
theorem rcOk_iff (rc last : Dword) (sender : Role) :
    rcOk rc last sender = true ↔
      last = 0 ∨ (sender = .supplicant ∧ last.toNat ≤ rc.toNat) ∨ (sender = .authenticator ∧ last.toNat < rc.toNat) := by
  by_cases h0 : last = 0
  · simp [rcOk, h0]
  · cases sender <;> simp [rcOk]

/-- What check 8 rejects (R162). -/
theorem rcOk_eq_false_iff (rc last : Dword) (sender : Role) :
    rcOk rc last sender = false ↔
      last ≠ 0 ∧ ((sender = .supplicant ∧ rc.toNat < last.toNat) ∨
        (sender = .authenticator ∧ rc.toNat ≤ last.toNat)) := by
  by_cases h0 : last = 0
  · simp [rcOk, h0]
  · cases sender <;> simp [rcOk]

/-- Settles O29: at the greatest LAST_RC no counter is above it, and only that value is not below it. -/
theorem replayComparatorOfR162 : Obligations.ReplayComparatorOfR162 := by
  intro rc last
  refine ⟨(rcOk_iff _ _ _).mpr (.inl rfl), (rcOk_iff _ _ _).mpr (.inl rfl), fun h => ?supplicant,
    fun h => ?authenticator, ?maxAuthenticator, ?maxSupplicant⟩
  case supplicant => simp only [rcOk_iff, h, reduceCtorEq, true_and, false_and, false_or, or_false]
  case authenticator => simp only [rcOk_iff, h, reduceCtorEq, true_and, false_and, false_or]
  case maxAuthenticator => exact (rcOk_eq_false_iff _ _ _).mpr ⟨by decide, .inr ⟨rfl, by bv_omega⟩⟩
  case maxSupplicant =>
    simp only [rcOk_iff, reduceCtorEq, false_and, true_and, or_false]
    bv_omega

/-! ### RCCMP -/

/-- With its operands defined, RCCMP answers check 8 for the sender (R163). -/
theorem rccmpOutcome_of_ready {s : State} (h : s.ready .rccmp) :
    rccmpOutcome s =
      if rcOk s.replayCounter s.lastRc (opposite s.cfg.role) then .success s else .error .admReplay 8 s := by
  have hneeds : s.firstUndefined rccmpOperands = none := h.firstUndefined_eq_none
  simp only [rccmpOutcome, hneeds]

/-- Settles O30: the two premises are check 8 and its failedIf, for the sender opposite to ROLE. -/
theorem rccmpAnswersCheckEight : Obligations.RccmpAnswersCheckEight := by
  refine fun s h => ⟨fun hpass => ?pass, fun h0 hfail => ?fail⟩ <;>
    rw [exec_eq_conclude, outcomeOf, rccmpOutcome_of_ready h]
  case pass =>
    have hok : rcOk s.replayCounter s.lastRc (opposite s.cfg.role) = true := by simpa [rcOk_iff] using hpass
    rw [if_pos hok]
    rfl
  case fail =>
    have hno : rcOk s.replayCounter s.lastRc (opposite s.cfg.role) = false :=
      (rcOk_eq_false_iff _ _ _).mpr ⟨h0, by simpa using hfail⟩
    rw [hno]
    rfl

/-! ### One check, and the checks of R164 tried one after the other -/

/-- What the test `c` of the check with code `e` and number `n` adds to the list of the failing checks (R166). -/
def failedIf (c : Prop) [Decidable c] (e : ErrorCode) (n : Byte) : List (ErrorCode × Byte) := if c then [(e, n)] else []

section FailedIf

variable (c : Prop) [Decidable c] (e : ErrorCode) (n : Byte)

@[simp] theorem failedIf_eq_nil_iff : failedIf c e n = [] ↔ ¬c := by simp [failedIf]

@[simp] theorem head?_failedIf : (failedIf c e n).head? = if c then some (e, n) else none := by
  unfold failedIf
  split <;> rfl

@[simp] theorem head?_failedIf_append (l : List (ErrorCode × Byte)) :
    (failedIf c e n ++ l).head? = if c then some (e, n) else l.head? := by
  unfold failedIf
  split <;> rfl

end FailedIf

/-- The first check a frame fails, with its number, the checks tried in the order of R164. -/
def firstFailing (p : Params) (a : Admission) : Option (ErrorCode × Byte) :=
  ((descCheck p a.desc a.prot).map (·, 1)).or <|
  (failedIf ((KeyInfo.version a.ki).setWidth 16 ≠ kdv p a.desc a.prot) .admVersion 2).head?.or <|
  (bitsCheck a.ki a.sender).or <|
  ((keyLenCheck a.ki a.klen a.prot a.sender).map (·, 7)).or <|
  (failedIf (rcOk a.rc a.last a.sender = false) .admReplay 8).head?.or <|
  (failedIf (KeyInfo.encryptedKeyData a.ki = true ∧ KeyInfo.keyMic a.ki = false) .admEncWithoutMic 9).head?

/-- The gate's verdict is the first failing check, or the classification when there is none (R164, R165). -/
theorem admissionVerdict_eq_firstFailing (p : Params) (a : Admission) :
    admissionVerdict p a = (firstFailing p a).elim (.ok (classify a.ki)) .error := by
  simp only [admissionVerdict, firstFailing, head?_failedIf]
  cases descCheck p a.desc a.prot with
  | some c => rfl
  | none =>
    by_cases hversion : (KeyInfo.version a.ki).setWidth 16 ≠ kdv p a.desc a.prot
    · simp only [if_pos hversion]
      rfl
    simp only [if_neg hversion]
    cases bitsCheck a.ki a.sender with
    | some x => rfl
    | none =>
      cases keyLenCheck a.ki a.klen a.prot a.sender with
      | some c => rfl
      | none =>
        cases rcOk a.rc a.last a.sender with
        | false => rfl
        | true =>
          by_cases hmic : KeyInfo.encryptedKeyData a.ki = true ∧ KeyInfo.keyMic a.ki = false
          · simp only [if_pos hmic]
            rfl
          · simp only [if_neg hmic]
            rfl

/-! ### The head of the list of failing checks -/

@[simp] theorem KeyInfo.keyType_eq_pairwise_iff (ki : Half) : keyType ki = .pairwise ↔ ki.getLsbD 3 = true := by
  unfold keyType
  cases ki.getLsbD 3 <;> decide

@[simp] theorem KeyInfo.keyType_eq_groupSmk_iff (ki : Half) : keyType ki = .groupSmk ↔ ki.getLsbD 3 = false := by
  unfold keyType
  cases ki.getLsbD 3 <;> decide

/-- Check 1 (R160). The codes are distinct (R7), so at most one of its tests can fail. -/
theorem map_descCheck {p : Params} (hlegal : p.Legal) (d : Byte) (prot : Word) :
    (descCheck p d prot).map (·, (1 : Byte)) =
      (failedIf (d = p.descRc4) .admDescRc4 1 ++
        failedIf (d = p.descWpa1 ∧ prot.getLsbD 5 = false) .admDescWpa1NotNegotiated 1 ++
        failedIf (d ≠ p.desc80211 ∧ d ≠ p.descWpa1 ∧ d ≠ p.descRc4) .admDescUnsupported 1).head? := by
  obtain ⟨-, -, hrc4, hrc4Wpa1, hwpa1⟩ := hlegal
  simp only [descCheck, Prot.originWpa1, List.append_assoc, head?_failedIf_append, head?_failedIf]
  by_cases h1 : d = p.desc80211
  · simp [h1, hrc4.symm, hwpa1]
  by_cases h2 : d = p.descWpa1
  · cases hbit : prot[5] <;> simp [h2, hrc4Wpa1.symm, hwpa1.symm, hbit]
  by_cases h3 : d = p.descRc4
  · simp [h3, hrc4, hrc4Wpa1]
  · simp [h1, h2, h3]

/-- Check 2 compares the version field with the table of R150 as numbers (R164). -/
theorem version_ne_kdv_iff (p : Params) (a : Admission) :
    (KeyInfo.version a.ki).setWidth 16 ≠ kdv p a.desc a.prot ↔
      (a.ki.extractLsb' 0 3).toNat ≠ (kdv p a.desc a.prot).toNat := by
  rw [not_iff_not, ← BitVec.toNat_inj, BitVec.toNat_setWidth_of_le (by decide)]

/-- Checks 3 to 6 (R161). -/
theorem bitsCheck_eq_head? (ki : Half) (sender : Role) :
    bitsCheck ki sender =
      (failedIf (ki.getLsbD 3 = false ∧ ki.getLsbD 6 = true) .admGroupInstall 3 ++
        failedIf (sender = .supplicant ∧ ki.getLsbD 7 = true) .admAckFromSupplicant 4 ++
        failedIf (sender = .authenticator ∧ ki.getLsbD 10 = true) .admErrorFromAuthenticator 5 ++
        failedIf (sender = .authenticator ∧ ki.getLsbD 11 = true) .admRequestFromAuthenticator 5 ++
        failedIf (ki.getLsbD 13 = true) .admSmk 6).head? := by
  simp only [bitsCheck, KeyInfo.keyType_eq_groupSmk_iff, List.append_assoc, head?_failedIf_append, head?_failedIf]

/-- Check 7 (R164): a Supplicant may leave the key length 0. -/
theorem map_keyLenCheck (ki klen : Half) (prot : Word) (sender : Role) :
    (keyLenCheck ki klen prot sender).map (·, (7 : Byte)) =
      (failedIf (ki.getLsbD 3 = true ∧ prot.getLsbD 6 = false) .admTkUnknown 7 ++
        failedIf (ki.getLsbD 3 = true ∧ klen ≠ prot.extractLsb' 16 16 ∧ ¬(sender = .supplicant ∧ klen = 0))
          .admKeyLen 7).head? := by
  simp only [keyLenCheck, KeyInfo.keyType_eq_pairwise_iff, Prot.tkValid, Prot.tkLen, head?_failedIf_append,
    head?_failedIf]
  cases ki.getLsbD 3 with
  | false => rfl
  | true =>
    cases prot.getLsbD 6 with
    | false => rfl
    | true =>
      cases sender with
      | authenticator => by_cases hlen : klen = prot.extractLsb' 16 16 <;> simp [hlen]
      | supplicant =>
        by_cases h0 : klen = 0#16 <;> by_cases hlen : klen = prot.extractLsb' 16 16 <;> simp [h0, hlen]

/-- Check 8 (R162), with the Authenticator's rejection split off at equality. -/
theorem rcOk_eq_false_iff_replay (rc last : Dword) (sender : Role) :
    rcOk rc last sender = false ↔ last ≠ 0 ∧ (rc.toNat < last.toNat ∨ sender = .authenticator ∧ rc = last) := by
  rw [rcOk_eq_false_iff, ← BitVec.toNat_inj (x := rc)]
  cases sender
  · simp [Nat.le_iff_lt_or_eq]
  · simp

/-- R166: the first failing check is the head of the list of all that fail. -/
theorem head?_failingChecks {p : Params} (hlegal : p.Legal) (a : Admission) :
    (failingChecks p a).head? = firstFailing p a := by
  simp only [firstFailing, map_descCheck hlegal, version_ne_kdv_iff, bitsCheck_eq_head?, map_keyLenCheck,
    rcOk_eq_false_iff_replay, ← List.head?_append, failingChecks, failedIf, List.append_assoc]

/-! ### VALIDATE -/

/-- With its operands defined, VALIDATE records the first failing check or the classification (R164, R165). -/
theorem validateOutcome_of_ready {s : State} (h : s.ready .validate) :
    validateOutcome s = (firstFailing s.params s.judgedFrame).elim
      (.success { s with cls := classify s.frf.keyinfo }) (fun x => .error x.1 x.2 { s with cls := .none }) := by
  have hneeds : s.firstUndefined validateOperands = none := h.firstUndefined_eq_none
  simp only [validateOutcome, hneeds, judgedFrame_eq_admission, admissionVerdict_eq_firstFailing]
  cases firstFailing s.params s.admission with
  | none => rfl
  | some x => rfl

/-- Settles O31: an empty list has no head, so no check fails first. -/
theorem validateAdmitsAndClassifies : Obligations.ValidateAdmitsAndClassifies := by
  intro s hlegal h hnone
  have hfirst : firstFailing s.params s.judgedFrame = none := by rw [← head?_failingChecks hlegal, hnone]; rfl
  rw [exec_eq_conclude, outcomeOf, validateOutcome_of_ready h, hfirst]
  rfl

/-- Settles O32: the head of the list is the check that fails first. -/
theorem validateReportsTheFirstFailingCheck : Obligations.ValidateReportsTheFirstFailingCheck := by
  intro s c n more hlegal h hsome
  have hfirst : firstFailing s.params s.judgedFrame = some (c, n) := by rw [← head?_failingChecks hlegal, hsome]; rfl
  rw [exec_eq_conclude, outcomeOf, validateOutcome_of_ready h, hfirst]
  rfl

/-- A frame that passes checks 3 to 6 is no SMK message (R161). -/
theorem smkMessage_of_bitsCheck {ki : Half} {sender : Role} (h : bitsCheck ki sender = none) :
    KeyInfo.smkMessage ki = false := by
  rw [bitsCheck_eq_head?, List.head?_eq_none_iff] at h
  simp only [List.append_eq_nil_iff, failedIf_eq_nil_iff, Bool.not_eq_true] at h
  exact h.2

/-- An admitted frame passed checks 3 to 6, 8 and 9, whatever the parameters are (R164). -/
theorem admissionVerdict_eq_ok {p : Params} {a : Admission} {c : Classification} (h : admissionVerdict p a = .ok c) :
    bitsCheck a.ki a.sender = none ∧ rcOk a.rc a.last a.sender = true ∧
      ¬(KeyInfo.encryptedKeyData a.ki = true ∧ KeyInfo.keyMic a.ki = false) := by
  rw [admissionVerdict_eq_firstFailing] at h
  cases hf : firstFailing p a with
  | some x =>
    rw [hf] at h
    cases h
  | none =>
    simp only [firstFailing, Option.or_eq_none_iff, List.head?_eq_none_iff, failedIf_eq_nil_iff] at hf
    obtain ⟨-, -, hbits, -, hrc, hmic⟩ := hf
    exact ⟨hbits, Bool.eq_true_of_not_eq_false hrc, hmic⟩

/-- Settles O33: each of the four frames fails a check, so VALIDATE ends in that ERROR, another or a fault. -/
theorem forgedOrReplayedFramesAreNeverAdmitted : Obligations.ForgedOrReplayedFramesAreNeverAdmitted := by
  intro s t h hbad
  rw [exec_eq_conclude, outcomeOf] at h
  rcases validateOutcome_cases s with ⟨idx, -, ho⟩ | ⟨-, ⟨c, n, -, ho⟩ | ⟨c, hadmitted, -⟩⟩
  · rw [ho, conclude_fault] at h
    cases h
    exact ⟨rfl, .inr ⟨rfl, _, rfl⟩⟩
  · rw [ho, conclude_error] at h
    cases h
    exact ⟨rfl, .inl rfl⟩
  · obtain ⟨hbits, hrc, hmic⟩ := admissionVerdict_eq_ok hadmitted
    have hnoReplay : rcOk s.replayCounter s.lastRc (opposite s.cfg.role) ≠ false := ne_false_of_eq_true hrc
    rw [Ne, rcOk_eq_false_iff, opposite_eq_supplicant_iff, opposite_eq_authenticator_iff] at hnoReplay
    rcases hbad with hencrypted | hsmk | ⟨h0, hauthenticator⟩ | ⟨h0, hsupplicant⟩
    · exact absurd hencrypted hmic
    · exact absurd hsmk (ne_true_of_eq_false (smkMessage_of_bitsCheck hbits))
    · exact absurd ⟨h0, .inr hauthenticator⟩ hnoReplay
    · exact absurd ⟨h0, .inl hsupplicant⟩ hnoReplay

end Sys2Proof.Machine
end

section
/-! PROOFS. How a command can end (R190 to R197): what outcomes each command has, as one inductive predicate with a lemma
that ties it to `outcomeOf`, and the statements over every command from it (O34, O35, O36); then the ends of a run that
PARSE, SER and SERZ reach on an undefined FM byte (O12, O60). -/

namespace Sys2Proof.Machine

/-! ### The codes of the admission unit -/

section AdmissionCodes

variable {x : ErrorCode × Byte}

theorem descCheck_ne_format (p : Params) (d : Byte) (prot : Word) : descCheck p d prot ≠ some .format := by
  unfold descCheck
  split_ifs <;> nofun

theorem keyLenCheck_ne_format (ki klen : Half) (prot : Word) (sender : Role) :
    keyLenCheck ki klen prot sender ≠ some .format := by
  unfold keyLenCheck
  split_ifs <;> nofun

theorem bitsCheck_ne_format {ki : Half} {sender : Role} (h : bitsCheck ki sender = some x) : x.1 ≠ .format := by
  unfold bitsCheck at h
  split_ifs at h <;> cases h <;> nofun

theorem eq_of_head?_failedIf {c : Prop} [Decidable c] {e : ErrorCode} {n : Byte}
    (h : (failedIf c e n).head? = some x) : x = (e, n) := by
  rw [head?_failedIf, Option.ite_none_right_eq_some] at h
  exact (Option.some.inj h.2).symm

/-- FORMAT is PARSE's own code: no check of the gate reports it (R164, R191). -/
theorem firstFailing_ne_format {p : Params} {a : Admission} (h : firstFailing p a = some x) : x.1 ≠ .format := by
  simp only [firstFailing, Option.or_eq_some_iff, Option.map_eq_some_iff] at h
  rcases h with ⟨c, hdesc, rfl⟩ | ⟨-, hversion | ⟨-, hbits | ⟨-, ⟨c, hlen, rfl⟩ | ⟨-, hreplay | ⟨-, henc⟩⟩⟩⟩⟩
  · exact fun hc => descCheck_ne_format _ _ _ (hdesc.trans (congrArg some hc))
  · rw [eq_of_head?_failedIf hversion]
    nofun
  · exact bitsCheck_ne_format hbits
  · exact fun hc => keyLenCheck_ne_format _ _ _ _ (hlen.trans (congrArg some hc))
  · rw [eq_of_head?_failedIf hreplay]
    nofun
  · rw [eq_of_head?_failedIf henc]
    nofun

theorem admissionVerdict_ne_format {p : Params} {a : Admission} (h : admissionVerdict p a = .error x) :
    x.1 ≠ .format := by
  rw [admissionVerdict_eq_firstFailing] at h
  cases hf : firstFailing p a with
  | none =>
    rw [hf] at h
    cases h
  | some y =>
    rw [hf] at h
    cases h
    exact firstFailing_ne_format hf

end AdmissionCodes

/-! ### The outcomes of each command -/

/-- The commands that read FM, the only ones UNDEF_READ can end (R194). -/
def ReadsFm (i : Instr) : Prop := i = .parse ∨ i = .ser ∨ i = .serz

/-- The outcomes R190 leaves each command of a state: an ERROR only where a rule names one, with what it commits
(R113, R163, R164, R195), and UNDEF_READ only where FM is read. -/
inductive OutcomeOfR190 (s : State) : Instr → CmdOutcome → Prop
  | success (i : Instr) (s' : State) : OutcomeOfR190 s i (.success s')
  | fault (i : Instr) (f : FaultCode) (d : Byte) : OutcomeOfR190 s i (.fault f d)
  | parseFormat (d : Byte) : OutcomeOfR190 s .parse (.error .format d s.invalidateFrf)
  | rccmpReplay (d : Byte) : OutcomeOfR190 s .rccmp (.error .admReplay d s)
  | validateFails (c : ErrorCode) (n : Byte) (hc : c ≠ .format) :
      OutcomeOfR190 s .validate (.error c n { s with cls := .none })
  | undefRead (i : Instr) (hi : ReadsFm i) : OutcomeOfR190 s i .undefRead

/-- SER and SERZ share their outcomes. -/
theorem outcomeOfR190_of_serialize {i : Instr} (s : State) (needs : List Operand) (clear : Bool)
    (hi : ReadsFm i) : OutcomeOfR190 s i (serializeOutcome needs clear s) := by
  rcases serializeOutcome_cases needs clear s with
    ⟨idx, -, ho⟩ | ⟨-, ⟨-, ho⟩ | ⟨-, -, ⟨-, ho⟩ | ⟨-, ⟨-, ho⟩ | ⟨-, ⟨-, ho⟩ | ⟨kd, -, ho⟩⟩⟩⟩⟩ <;> rw [ho]
  case inr.inr.inr.inr.inl => exact .undefRead i hi
  case inr.inr.inr.inr.inr => exact .success i _
  all_goals exact .fault i _ _

/-- Every command ends in one of these. -/
theorem outcomeOfR190_outcomeOf (i : Instr) (s : State) : OutcomeOfR190 s i (outcomeOf s i) := by
  cases i <;> simp only [outcomeOf]
  case parse =>
    rcases parseOutcome_cases s with
      ⟨_, -, ho⟩ | ⟨-, ⟨-, ho⟩ | ⟨-, ⟨-, ho⟩ | ⟨-, ⟨-, ho⟩ | ⟨b, d, -, -, ho⟩ | ⟨b, r, -, -, ho⟩⟩⟩⟩ <;> rw [ho]
    · exact .fault _ _ _
    · exact .fault _ _ _
    · exact .fault _ _ _
    · exact .undefRead _ (.inl rfl)
    · exact .parseFormat _
    · exact .success _ _
  case ser => exact outcomeOfR190_of_serialize s _ _ (.inr (.inl rfl))
  case serz => exact outcomeOfR190_of_serialize s _ _ (.inr (.inr rfl))
  case updlen =>
    rcases updlenOutcome_cases s with ⟨-, ho⟩ | ⟨-, ⟨_, -, ho⟩ | ⟨-, ⟨-, ho⟩ | ⟨-, ho⟩⟩⟩ <;> rw [ho]
    · exact .fault _ _ _
    · exact .fault _ _ _
    · exact .fault _ _ _
    · exact .success _ _
  case patchmic =>
    rcases patchmicOutcome_cases s with ⟨_, -, ho⟩ | ⟨-, ⟨-, ho⟩ | ⟨-, -, ⟨-, ho⟩ | ⟨-, ho⟩⟩⟩ <;> rw [ho]
    · exact .fault _ _ _
    · exact .fault _ _ _
    · exact .fault _ _ _
    · exact .success _ _
  case kdv =>
    rcases kdvOutcome_cases s with ⟨_, -, ho⟩ | ⟨-, ho⟩ <;> rw [ho]
    · exact .fault _ _ _
    · exact .success _ _
  case rccmp =>
    rcases rccmpOutcome_cases s with ⟨_, -, ho⟩ | ⟨-, ⟨-, ho⟩ | ⟨-, ho⟩⟩ <;> rw [ho]
    · exact .fault _ _ _
    · exact .success _ _
    · exact .rccmpReplay _
  case validate =>
    rcases validateOutcome_cases s with ⟨_, -, ho⟩ | ⟨-, ⟨c, n, hfails, ho⟩ | ⟨c, -, ho⟩⟩ <;> rw [ho]
    · exact .fault _ _ _
    · exact .validateFails c n (admissionVerdict_ne_format hfails)
    · exact .success _ _
  case discard => exact .success _ _

/-! ### How the outcome is recorded -/

/-- The OP of a command is in the low bits of its word (R92). -/
theorem extractLsb'_encode (i : Instr) : (encode i).extractLsb' 0 4 = i.op := by
  cases i <;> rfl

/-- A command recorded as a FAULT had that outcome, and committed nothing before it (R196). -/
theorem conclude_faulted {l : BitVec 4} {s t : State} {o : CmdOutcome} {f : FaultCode} (h : conclude l s o = .next t)
    (herr : t.status.err = .fault f) : ∃ d, t = s.raiseFault l f d := by
  rcases conclude_eq_next h with ⟨s', -, rfl⟩ | ⟨e, d, s', -, rfl⟩ | ⟨f', d, -, rfl⟩ <;> cases herr
  exact ⟨d, rfl⟩

/-- A command recorded as an ERROR had that outcome (R195). -/
theorem conclude_errored {l : BitVec 4} {s t : State} {o : CmdOutcome} {e : ErrorCode} (h : conclude l s o = .next t)
    (herr : t.status.err = .error e) : ∃ d s', o = .error e d s' ∧ t = s'.raiseError l e d := by
  rcases conclude_eq_next h with ⟨s', -, rfl⟩ | ⟨e', d, s', ho, rfl⟩ | ⟨f, d, -, rfl⟩ <;> cases herr
  exact ⟨d, s', ho, rfl⟩

/-- Settles O34: SUCCESS, ERROR and FAULT each write STATUS whole, and only a read of FM can end the run. -/
theorem everyCommandEndsInAnOutcomeOfR190 : Obligations.EveryCommandEndsInAnOutcomeOfR190 := by
  intro i s
  have hends := outcomeOfR190_outcomeOf i s
  rw [exec_eq_conclude, extractLsb'_encode]
  cases ho : outcomeOf s i with
  | success s' => exact .inl ⟨_, rfl, rfl, ⟨fun _ => rfl, fun _ => rfl⟩, rfl⟩
  | error e d s' => exact .inl ⟨_, rfl, rfl, ⟨nofun, nofun⟩, rfl⟩
  | fault f d => exact .inl ⟨_, rfl, rfl, ⟨nofun, nofun⟩, rfl⟩
  | undefRead =>
    rw [ho] at hends
    cases hends with
    | undefRead _ hi => exact .inr ⟨rfl, hi⟩

/-- Settles O35: only `State.raiseFault` records a FAULT; the masks are the bits of R192. -/
theorem faultsArePrecise : Obligations.FaultsArePrecise := by
  intro i s t f h herr
  rw [exec_eq_conclude] at h
  obtain ⟨d, rfl⟩ := conclude_faulted h herr
  rw [extractLsb'_encode]
  cases f <;> rfl

/-- Settles O36: three commands have an ERROR, each with what it commits. -/
theorem errorsCommitOnlyWhatTheirRuleNames : Obligations.ErrorsCommitOnlyWhatTheirRuleNames := by
  intro i s t e h herr
  rw [exec_eq_conclude] at h
  obtain ⟨d, s', ho, rfl⟩ := conclude_errored h herr
  refine ⟨by rw [extractLsb'_encode]; rfl, ?_⟩
  have hends := outcomeOfR190_outcomeOf i s
  rw [ho] at hends
  cases hends with
  | parseFormat => exact .inl ⟨rfl, rfl, rfl⟩
  | validateFails _ _ hc => exact .inr (.inl ⟨rfl, hc, rfl⟩)
  | rccmpReplay => exact .inr (.inr ⟨rfl, rfl, rfl⟩)

/-! ### Undefined bytes of FM (R194) -/

/-- A read that reaches an undefined byte has no value (R61). -/
theorem Memory.readBytes_eq_none {m : Memory} {a n x : Nat} (hlo : a ≤ x) (hhi : x < a + n)
    (hx : Memory.read m x = none) : Memory.readBytes m a n = none := by
  rw [← Option.not_isSome_iff_eq_none, Memory.readBytes_isSome_iff]
  intro hall
  have hsome := hall (x - a) (by omega)
  rw [Nat.add_sub_cancel' hlo, hx] at hsome
  cases hsome

/-- PARSE's fault checks passed, and its buffer is not whole (R113, R194). -/
theorem parseOutcome_of_undefined_buffer {s : State} (h : s.ready .parse)
    (hms : s.cfg.micSize.toNat ≤ s.params.maxMic) (hrx : s.rxBase + s.rxLen ≤ s.params.fmBytes)
    (hb : Memory.readBytes s.fm s.rxBase s.rxLen = none) : parseOutcome s = .undefRead := by
  have hneeds : s.firstUndefined parseOperands = none := h.firstUndefined_eq_none
  have hstays : s.leavesFm s.rxBase s.rxLen = false := (s.leavesFm_eq_false_iff _ _).mpr hrx
  simp only [parseOutcome, hneeds, gt_iff_lt, if_neg (Nat.not_lt.mpr hms), hstays, Bool.false_eq_true, if_false, hb]

/-- Settles O12: the fault checks pass, and the buffer has no value to decode. -/
theorem parseOfAnUndefinedByteEndsTheRun : Obligations.ParseOfAnUndefinedByteEndsTheRun := by
  intro s a h hms hrx hlo hhi ha
  have hb : Memory.readBytes s.fm s.rxBase s.rxLen = none := Memory.readBytes_eq_none hlo hhi ha
  rw [exec_eq_conclude, outcomeOf, parseOutcome_of_undefined_buffer h hms hrx hb, conclude_undefRead]

/-- The checks SER and SERZ share passed, and the key data is not whole (R114, R194). -/
theorem serializeOutcome_of_undefined_view {needs : List Operand} {clear : Bool} {s : State}
    (hneeds : s.firstUndefined needs = none) (hcap : s.imageLen ≤ s.txCap)
    (htx : s.txBase + s.imageLen ≤ s.params.fmBytes) (hview : s.kdAddr + s.kdLen ≤ s.params.fmBytes)
    (hapart : s.viewApart s.txBase s.imageLen) (hkd : s.keyData = none) :
    serializeOutcome needs clear s = .undefRead := by
  have hstays : s.leavesFm s.kdAddr s.kdLen = false := (s.leavesFm_eq_false_iff _ _).mpr hview
  have hmiss : s.viewMeets s.txBase s.imageLen = false := (s.viewMeets_eq_false_iff _ _).mpr hapart
  simp only [serializeOutcome, hneeds, State.output_fits hcap htx, hstays, hmiss, hkd, Bool.false_eq_true, if_false]

/-- Settles O60: the shared checks pass, and the view has no value to copy. -/
theorem serializeOfAnUndefinedViewByteEndsTheRun : Obligations.SerializeOfAnUndefinedViewByteEndsTheRun := by
  rintro i s a _ hi h rfl hcap htx hview hapart hlo hhi ha
  obtain ⟨needs, clear, hneeds, hexec⟩ := exec_serialize_of_ready hi h
  have hkd : s.keyData = none := Memory.readBytes_eq_none hlo hhi ha
  rw [hexec, serializeOutcome_of_undefined_view hneeds hcap htx hview hapart hkd, conclude_undefRead]

end Sys2Proof.Machine
end

section
/-! PROOFS. The reset input (R220: O8), and that a CLASS other than NONE describes the frame and inputs as they stand
(R228, R34: O58): a step either clears CLASS, keeps it with all that VALIDATE judged, or is the VALIDATE that sets it. -/

namespace Sys2Proof.Machine

/-! ### The reset input -/

/-- Settles O8: `resetInput` is the reset state but for what the outside holds (log 10). -/
theorem resetInputLeavesTheResetState : Obligations.ResetInputLeavesTheResetState := by
  intro s rest h
  simp only [step, hostStep, h, hostEvent, State.resetInput]

/-! ### What keeps CLASS current -/

/-- No CLASS is current whatever the frame is (R34). -/
theorem State.ClassCurrent.of_none {s : State} (h : s.cls = .none) : s.ClassCurrent := fun hne => absurd h hne

/-- `t` has the CLASS of `s` and what VALIDATE judged there: its parameters, defined operands, frame and inputs. -/
structure State.KeepsJudged (s t : State) : Prop where
  cls : t.cls = s.cls
  params : t.params = s.params
  defined : ∀ x, s.isDefined x = true → t.isDefined x = true
  judged : t.judgedFrame = s.judgedFrame

theorem State.ClassCurrent.of_keepsJudged {s t : State} (h : s.ClassCurrent) (hk : s.KeepsJudged t) :
    t.ClassCurrent := by
  intro hne
  obtain ⟨hready, hpass, hcls⟩ := h (hk.cls ▸ hne)
  have hki : t.frf.keyinfo = s.frf.keyinfo := congrArg Admission.ki hk.judged
  refine ⟨fun x hx => hk.defined x (hready x hx), ?_, ?_⟩
  · rw [hk.params, hk.judged, hpass]
  · rw [hk.cls, hki, hcls]

/-- A write to a buffer register, which is no input of the admission unit (R43). -/
theorem State.writeCfg_keepsJudged (s : State) {r : CfgReg} (d : Word) (hr : clearsClass r = false) :
    s.KeepsJudged (s.writeCfg r d) where
  cls := by rw [State.writeCfg_cls, hr]; rfl
  params := rfl
  defined
    | .cfg _, hx => getLsbD_setBit_of_true _ hx
    | .frf _, hx => hx
    | .mic _, hx => hx
  judged := by
    cases r with
    | role | prot | lastRcHi | lastRcLo => cases hr
    | _ => rfl

/-! ### Commands, writes and steps -/

/-- VALIDATE judges the frame as it stands: an undefined operand leaves CLASS, a failing check clears it, and with
neither it is set (R164, R165). -/
theorem State.ClassCurrent.validate {s t : State} (h : s.ClassCurrent) (hlegal : s.params.Legal)
    (ht : exec .validate s = .next t) : t.ClassCurrent := by
  cases hneeds : s.firstUndefined (needsOf s .validate) with
  | some idx =>
    rw [exec_eq_conclude, outcomeOf_of_firstUndefined hneeds nofun, conclude_fault] at ht
    cases ht
    exact h.of_keepsJudged ⟨rfl, rfl, fun _ hx => hx, rfl⟩
  | none =>
    have hready : s.ready .validate := (s.firstUndefined_eq_none_iff _).mp hneeds
    cases hchecks : failingChecks s.params s.judgedFrame with
    | nil =>
      rw [validateAdmitsAndClassifies s hlegal hready hchecks] at ht
      cases ht
      exact fun _ => ⟨hready, hchecks, rfl⟩
    | cons x more =>
      rw [validateReportsTheFirstFailingCheck s x.1 x.2 more hlegal hready hchecks] at ht
      cases ht
      exact .of_none rfl

/-- Every other command that writes the FRF clears CLASS (R39, R113, R116, R118); the rest touch nothing that is
judged. -/
theorem State.ClassCurrent.execEffect {i : Instr} {s t : State} (h : s.ClassCurrent) (hi : i ≠ .validate)
    (he : ExecEffect s i t) : t.ClassCurrent := by
  cases he with
  | parseFormat => exact .of_none rfl
  | parseOk => exact .of_none rfl
  | updlen => exact .of_none rfl
  | discard => exact .of_none rfl
  | validateFails => exact absurd rfl hi
  | validateOk => exact absurd rfl hi
  | _ => exact h.of_keepsJudged ⟨rfl, rfl, fun _ hx => hx, rfl⟩

/-- A write that changes the frame or an input of the admission unit clears CLASS (R37, R43, R76). -/
theorem State.ClassCurrent.writeEffect {s t : State} {d : Word} {reg : HostReg} (h : s.ClassCurrent)
    (he : WriteEffect s d reg t) : t.ClassCurrent := by
  cases he with
  | cfg r =>
    cases hr : clearsClass r with
    | true => exact .of_none (by rw [State.writeCfg_cls, hr]; rfl)
    | false => exact h.of_keepsJudged (s.writeCfg_keepsJudged d hr)
  | frf => exact .of_none rfl
  | mic => exact .of_none rfl
  | borrow => exact .of_none rfl
  | _ => exact h.of_keepsJudged ⟨rfl, rfl, fun _ hx => hx, rfl⟩

/-- Settles O58: VALIDATE classifies what it judged, and no other step parts CLASS from that. -/
theorem everyStepKeepsClassCurrent : Obligations.EveryStepKeepsClassCurrent := by
  intro s t hlegal h hstep
  have htaken (rest : List HostEvent) : (s.withHost rest).ClassCurrent :=
    h.of_keepsJudged ⟨rfl, rfl, fun _ hx => hx, rfl⟩
  cases stepEffect_of_step hstep with
  | idle => exact h
  | reset => exact .of_none rfl
  | read => exact h.of_keepsJudged ⟨rfl, rfl, fun _ hx => hx, rfl⟩
  | illegal => exact h.of_keepsJudged ⟨rfl, rfl, fun _ hx => hx, rfl⟩
  | write rest off d _ _ _ he => exact (htaken rest).writeEffect he
  | command rest i hh _ he =>
    by_cases hi : i = .validate
    · subst hi
      rw [stepRunsTheCommandWritten s _ .validate rest hh (decode_encode _)] at hstep
      exact (htaken rest).validate hlegal hstep
    · exact (htaken rest).execEffect hi he

end Sys2Proof.Machine
end
